-- ==== Sys2Proof/Word.lean ====
section
/-! DEFINITION. The word types of the CORE (R9: all values are unsigned, widths u8, u16, u32). -/

namespace Sys2Proof

/-- A u8: one byte of a stream, of the dictionary or of the transport (R9, R70). -/
abbrev Byte := BitVec 8

/-- A u16: command codes, parameters, addresses, register values, the running CRC (R9, R62). -/
abbrev Half := BitVec 16

end Sys2Proof
end

