-- ==== Sys2Proof/Config.lean ====
section
/-! DEFINITION. The implementation parameters of R8 and the free values of the environment. A parameter the spec
leaves OPEN and a draw that nothing supplies is an `opaque` constant: no proof can see its value. -/

namespace Sys2Proof.Config

/-- The identifier of this hardware (R2). It names the four units, none of which is optional. -/
def identifier : String := "pl-mcu-epd-core/lzss+crc16ccitt+frm+scr"

/-- `P` (R8): matches of length at most `P` are coded as literals. -/
def policy : Nat := 1

/-- `FILL` (R8, R130): the byte the dictionary is filled with when an LZSS operation starts. -/
def fill : Byte := 0x20

/-- `SEND_MAX_PARAMS` (R8, R181): the most parameters one FRM.SEND carries. -/
def sendMaxParams : Nat := 5

/-- `WAIT_DEFAULT_POLLS` (R8, R108): the bound of the pseudo-operation FRM.WAITD. -/
def waitDefaultPolls : BitVec 32 := 100000

/-- How far `EI_MAX` lies above 10. R8 leaves `EI_MAX` OPEN between 10 and 15 (log 7). -/
opaque eiMaxMargin : Fin 6

/-- `EI_MAX` (R8): the largest window exponent the dictionary RAM supports, 10 to 15 (log 7). -/
def eiMax : Nat := 10 + eiMaxMargin.val

/-- `CS_ACTIVE_LEVEL` (R8, R29): the electrical level of an asserted chip-select; OPEN (log 18). -/
opaque csActiveLevel : Bool

/-- `DC_CMD_LEVEL` (R8, R29): the electrical level of command mode; OPEN (log 18). -/
opaque dcCmdLevel : Bool

/-- The byte the controller supplies to the `n`-th draw that `env.rx` does not script (R7, U7; log 6). -/
opaque freeRx : Nat → Byte

/-- The ready-line level of the `n`-th draw that `env.hrdy` does not script (R7, U7; log 6). -/
opaque freeHrdy : Nat → Bool

end Sys2Proof.Config
end

