-- ==== Sys2Proof/Syntax.lean ====
section
/-! DEFINITION. The instructions: one constructor per row of spec/opcode_table.json. Seventeen are the operations
of the operation port (R91); three are tokens of the LZSS stream (R94), which the running decoder fetches from its
byte source (log 13). -/

namespace Sys2Proof

/-- One row of the opcode table with its operands, each at the width R91 and R94 give it. -/
inductive Instr where
  /-- CFG.RD idx:u8 (R120). -/
  | cfgRd (idx : Byte)
  /-- CFG.WR idx:u8, val:u16 (R121). -/
  | cfgWr (idx : Byte) (val : Half)
  /-- LZSS.ENC (R134). -/
  | lzssEnc
  /-- LZSS.DEC (R140). -/
  | lzssDec
  /-- CRC.INIT (R171). -/
  | crcInit
  /-- CRC.UPD n:u32, then n bytes (R172). -/
  | crcUpd (n : BitVec 32) (bytes : List Byte)
  /-- CRC.CHK w:u16 (R173). -/
  | crcChk (w : Half)
  /-- FRM.SEND cmd:u16, n:u8, then n parameters (R181). -/
  | frmSend (cmd : Half) (n : Byte) (p : List Half)
  /-- FRM.RDREG addr:u16 (R182). -/
  | frmRdreg (addr : Half)
  /-- FRM.WRREG addr:u16, val:u16 (R183). -/
  | frmWrreg (addr : Half) (val : Half)
  /-- FRM.BBEGIN.C cmd:u16 (R184). -/
  | frmBbeginC (cmd : Half)
  /-- FRM.BBEGIN.R addr:u16 (R185). -/
  | frmBbeginR (addr : Half)
  /-- FRM.BWORD w:u16 (R186). -/
  | frmBword (w : Half)
  /-- FRM.BRAW n:u32, then n bytes (R187). -/
  | frmBraw (n : BitVec 32) (bytes : List Byte)
  /-- FRM.BEND (R188). -/
  | frmBend
  /-- FRM.WAIT t:u32, the bound in polls (R189). -/
  | frmWait (t : BitVec 32)
  /-- SCR.IDX mode, gate, source, gate_count, source_count, each u16 (R210). -/
  | scrIdx (mode gate source gateCount sourceCount : Half)
  /-- Token LIT: flag 1, DATA (R94, R141). -/
  | lit (data : Byte)
  /-- Token MATCH with EI = 7, EJ = 4: flag 0, REF, LEN (R94, R142). -/
  | match74 (ref : BitVec 7) (len : BitVec 4)
  /-- Token MATCH with EI = 10, EJ = 4: flag 0, REF, LEN (R94, R142). -/
  | match104 (ref : BitVec 10) (len : BitVec 4)
  deriving DecidableEq, Repr

/-- Pseudo-operation CRC.GET (R108): `CFG.RD CRC_ACC`. -/
def Instr.crcGet : Instr := .cfgRd 0x10

/-- Pseudo-operation CRC.CHKB b0, b1 (R108): `CRC.CHK be16(b0, b1)`, the stored CRC big-endian (R66). -/
def Instr.crcChkb (b0 b1 : Byte) : Instr := .crcChk (b0 ++ b1)

/-- Pseudo-operation FRM.WAITD (R108): `FRM.WAIT 100000`. -/
def Instr.frmWaitd : Instr := .frmWait Config.waitDefaultPolls

/-- Pseudo-operation LZSS.PRESET.WF (R108): `CFG.WR LZSS_CFG, 0x0047`. -/
def Instr.lzssPresetWf : Instr := .cfgWr 0x00 0x0047

/-- Pseudo-operation LZSS.PRESET.GEN (R108): `CFG.WR LZSS_CFG, 0x004A`. -/
def Instr.lzssPresetGen : Instr := .cfgWr 0x00 0x004A

end Sys2Proof
end

