-- ==== Sys2Proof/WellFormed.lean ====
section
/-! DEFINITION. Which instruction terms the operation port can carry: an operand count says how many operands
follow it (R91, R93). Every other operand is a number of its own width, so its type is its check. -/

namespace Sys2Proof

/-- The count operand of CRC.UPD, FRM.SEND and FRM.BRAW is the number of operands that follow (R91). FRM.SEND with
more than five parameters is well formed: it is presented, and refused with ERR_PARAM (R181). -/
def Instr.wellFormed : Instr → Bool
  | .crcUpd n bytes => bytes.length == n.toNat
  | .frmBraw n bytes => bytes.length == n.toNat
  | .frmSend _ n p => p.length == n.toNat
  | .cfgRd _ => true
  | .cfgWr _ _ => true
  | .lzssEnc => true
  | .lzssDec => true
  | .crcInit => true
  | .crcChk _ => true
  | .frmRdreg _ => true
  | .frmWrreg _ _ => true
  | .frmBbeginC _ => true
  | .frmBbeginR _ => true
  | .frmBword _ => true
  | .frmBend => true
  | .frmWait _ => true
  | .scrIdx _ _ _ _ _ => true
  | .lit _ => true
  | .match74 _ _ => true
  | .match104 _ _ => true

end Sys2Proof
end

