-- ==== Sys2Proof/Decode.lean ====
section
/-! DEFINITION. Reading and writing the encodings: the operation port (R90, R91, R93) and the token formats of the
LZSS stream (R94, R95, R99). An operation is presented as its code and then each operand at its width, the most
significant byte first (the `enc` column of 95_test_vectors.md Part 8; log 3). -/

namespace Sys2Proof

/-! ## Bytes and words -/

/-- `hi(w)` (R10): bits 15:8. -/
def hi (w : Half) : Byte := w.extractLsb' 8 8

/-- `lo(w)` (R10): bits 7:0. -/
def lo (w : Half) : Byte := w.extractLsb' 0 8

/-- `be16(b0, b1)` (R10): the u16 whose first byte is `b0`. -/
def be16 (b0 b1 : Byte) : Half := b0 ++ b1

/-- The u32 whose first byte is `b0`. -/
def be32 (b0 b1 b2 b3 : Byte) : BitVec 32 := b0 ++ b1 ++ b2 ++ b3

/-- The two bytes of a u16, first byte first (R62). -/
def bytes16 (w : Half) : List Byte := [hi w, lo w]

/-- The four bytes of a u32, most significant first. -/
def bytes32 (v : BitVec 32) : List Byte :=
  [v.extractLsb' 24 8, v.extractLsb' 16 8, v.extractLsb' 8 8, v.extractLsb' 0 8]

/-! ## Bits of the LZSS stream -/

/-- The low `w` bits of `v`, most significant first (R64, R95). -/
def natBits : Nat → Nat → List Bool
  | 0, _ => []
  | w + 1, v => v.testBit w :: natBits w v

/-- The number a bit string spells, most significant bit first (R95, the accumulation `x` of R133). -/
def bitsNat (bits : List Bool) : Nat := bits.foldl (fun x b => 2 * x + b.toNat) 0

/-- A token of the compressed stream, for any pair (EI, EJ) (R94). -/
inductive Token where
  /-- Format LIT: `DATA`. -/
  | lit (data : Byte)
  /-- Format MATCH: the fields `REF` (EI bits) and `LEN` (EJ bits). -/
  | pair (ref len : Nat)
  deriving DecidableEq, Repr

/-- The bits of a token, first stream bit first (R94, R95). -/
def Token.bits (ei ej : Nat) : Token → List Bool
  | .lit c => true :: natBits 8 c.toNat
  | .pair ref len => false :: (natBits ei ref ++ natBits ej len)

/-- Read one token off the front of a bit string; `none` while it is incomplete (R94, R99). -/
def decodeToken (ei ej : Nat) : List Bool → Option (Token × List Bool)
  | [] => none
  | true :: rest =>
    if rest.length < 8 then none
    else some (.lit (BitVec.ofNat 8 (bitsNat (rest.take 8))), rest.drop 8)
  | false :: rest =>
    if rest.length < ei + ej then none
    else some (.pair (bitsNat (rest.take ei)) (bitsNat ((rest.drop ei).take ej)), rest.drop (ei + ej))

/-- The table row a token of the pair (EI, EJ) stands in, where it stands in one: LIT under any pair, MATCH.7_4 and
MATCH.10_4 under theirs (log 14). -/
def tokenInstr (ei ej : Nat) : Token → Option Instr
  | .lit c => some (.lit c)
  | .pair ref len =>
    if ei = 7 ∧ ej = 4 then some (.match74 (BitVec.ofNat 7 ref) (BitVec.ofNat 4 len))
    else if ei = 10 ∧ ej = 4 then some (.match104 (BitVec.ofNat 10 ref) (BitVec.ofNat 4 len))
    else none

/-! ## Operation codes -/

/-- The seventeen operations of R91. -/
inductive Op where
  | cfgRd | cfgWr | lzssEnc | lzssDec | crcInit | crcUpd | crcChk
  | frmSend | frmRdreg | frmWrreg | frmBbeginC | frmBbeginR | frmBword | frmBraw | frmBend | frmWait
  | scrIdx
  deriving DecidableEq, Repr

/-- The operation code, unit in bits 7:4 and function in bits 3:0 (R90, R91). -/
def Op.code : Op → Byte
  | .cfgRd => 0x00
  | .cfgWr => 0x01
  | .lzssEnc => 0x10
  | .lzssDec => 0x11
  | .crcInit => 0x20
  | .crcUpd => 0x21
  | .crcChk => 0x22
  | .frmSend => 0x30
  | .frmRdreg => 0x31
  | .frmWrreg => 0x32
  | .frmBbeginC => 0x33
  | .frmBbeginR => 0x34
  | .frmBword => 0x35
  | .frmBraw => 0x36
  | .frmBend => 0x37
  | .frmWait => 0x38
  | .scrIdx => 0x40

/-- The rows of R91 in the table's order. -/
def Op.all : List Op :=
  [.cfgRd, .cfgWr, .lzssEnc, .lzssDec, .crcInit, .crcUpd, .crcChk, .frmSend, .frmRdreg, .frmWrreg,
   .frmBbeginC, .frmBbeginR, .frmBword, .frmBraw, .frmBend, .frmWait, .scrIdx]

/-- The operation a code selects, the whole code compared (R90); `none` for the 239 illegal codes (R105). -/
def Op.ofCode (op : Byte) : Option Op := Op.all.find? (fun o => o.code == op)

/-! ## Operands -/

/-- A u8 operand. -/
def takeU8 : List Byte → Option (Byte × List Byte)
  | b :: rest => some (b, rest)
  | [] => none

/-- A u16 operand. -/
def takeU16 : List Byte → Option (Half × List Byte)
  | b0 :: b1 :: rest => some (be16 b0 b1, rest)
  | _ => none

/-- A u32 operand. -/
def takeU32 : List Byte → Option (BitVec 32 × List Byte)
  | b0 :: b1 :: b2 :: b3 :: rest => some (be32 b0 b1 b2 b3, rest)
  | _ => none

/-- `n` u8 operands, first to last (R93). -/
def takeBytes (n : Nat) (bs : List Byte) : Option (List Byte × List Byte) :=
  if bs.length < n then none else some (bs.take n, bs.drop n)

/-- `n` u16 operands, first to last. -/
def takeHalves : Nat → List Byte → Option (List Half × List Byte)
  | 0, bs => some ([], bs)
  | n + 1, bs => do
    let (w, bs) ← takeU16 bs
    let (ws, bs) ← takeHalves n bs
    some (w :: ws, bs)

/-- The operands of an operation, in the order of R91; `none` when bytes are missing. -/
def decodeOperands : Op → List Byte → Option (Instr × List Byte)
  | .cfgRd, bs => do
    let (idx, bs) ← takeU8 bs
    some (.cfgRd idx, bs)
  | .cfgWr, bs => do
    let (idx, bs) ← takeU8 bs
    let (val, bs) ← takeU16 bs
    some (.cfgWr idx val, bs)
  | .lzssEnc, bs => some (.lzssEnc, bs)
  | .lzssDec, bs => some (.lzssDec, bs)
  | .crcInit, bs => some (.crcInit, bs)
  | .crcUpd, bs => do
    let (n, bs) ← takeU32 bs
    let (bytes, bs) ← takeBytes n.toNat bs
    some (.crcUpd n bytes, bs)
  | .crcChk, bs => do
    let (w, bs) ← takeU16 bs
    some (.crcChk w, bs)
  | .frmSend, bs => do
    let (cmd, bs) ← takeU16 bs
    let (n, bs) ← takeU8 bs
    let (p, bs) ← takeHalves n.toNat bs
    some (.frmSend cmd n p, bs)
  | .frmRdreg, bs => do
    let (addr, bs) ← takeU16 bs
    some (.frmRdreg addr, bs)
  | .frmWrreg, bs => do
    let (addr, bs) ← takeU16 bs
    let (val, bs) ← takeU16 bs
    some (.frmWrreg addr val, bs)
  | .frmBbeginC, bs => do
    let (cmd, bs) ← takeU16 bs
    some (.frmBbeginC cmd, bs)
  | .frmBbeginR, bs => do
    let (addr, bs) ← takeU16 bs
    some (.frmBbeginR addr, bs)
  | .frmBword, bs => do
    let (w, bs) ← takeU16 bs
    some (.frmBword w, bs)
  | .frmBraw, bs => do
    let (n, bs) ← takeU32 bs
    let (bytes, bs) ← takeBytes n.toNat bs
    some (.frmBraw n bytes, bs)
  | .frmBend, bs => some (.frmBend, bs)
  | .frmWait, bs => do
    let (t, bs) ← takeU32 bs
    some (.frmWait t, bs)
  | .scrIdx, bs => do
    let (mode, bs) ← takeU16 bs
    let (gate, bs) ← takeU16 bs
    let (source, bs) ← takeU16 bs
    let (gateCount, bs) ← takeU16 bs
    let (sourceCount, bs) ← takeU16 bs
    some (.scrIdx mode gate source gateCount sourceCount, bs)

/-! ## The decoder -/

/-- Why a string of bytes or bits is no instruction. -/
inductive DecodeError where
  /-- No operation code was presented. -/
  | noOperation
  /-- The code is one of the 239 that R105 calls illegal. -/
  | illegalOp (op : Byte)
  /-- The operands of a legal operation are not all there. -/
  | missingOperand (op : Op)
  /-- The bits are no complete token of the pair (EI, EJ), or go on after it. -/
  | noToken
  /-- The token is a MATCH of a pair that has no row of its own in the opcode table. -/
  | noRow (token : Token)
  deriving DecidableEq, Repr

/-- The operation at the front of a byte string, and the bytes after it (R90, R91). -/
def decodeOp : List Byte → Except DecodeError (Instr × List Byte)
  | [] => .error .noOperation
  | op :: bs =>
    match Op.ofCode op with
    | none => .error (.illegalOp op)
    | some o =>
      match decodeOperands o bs with
      | none => .error (.missingOperand o)
      | some r => .ok r

/-- An instruction as the hardware carries it: bytes on the operation port, or bits of the LZSS stream under the
pair (EI, EJ). -/
inductive Encoding where
  | port (bytes : List Byte)
  | stream (ei ej : Nat) (bits : List Bool)
  deriving DecidableEq, Repr

/-- The decoder: the instruction an encoding carries, whole (R91, R99). -/
def decode : Encoding → Except DecodeError (Instr × List Byte)
  | .port bytes => decodeOp bytes
  | .stream ei ej bits =>
    match decodeToken ei ej bits with
    | some (token, []) =>
      match tokenInstr ei ej token with
      | some i => .ok (i, [])
      | none => .error (.noRow token)
    | _ => .error .noToken

/-! ## The encoder -/

/-- The bytes of an operation after its code (R91). -/
def encodeOperands : Instr → List Byte
  | .cfgRd idx => [idx]
  | .cfgWr idx val => idx :: bytes16 val
  | .lzssEnc => []
  | .lzssDec => []
  | .crcInit => []
  | .crcUpd n bytes => bytes32 n ++ bytes
  | .crcChk w => bytes16 w
  | .frmSend cmd n p => bytes16 cmd ++ n :: p.flatMap bytes16
  | .frmRdreg addr => bytes16 addr
  | .frmWrreg addr val => bytes16 addr ++ bytes16 val
  | .frmBbeginC cmd => bytes16 cmd
  | .frmBbeginR addr => bytes16 addr
  | .frmBword w => bytes16 w
  | .frmBraw n bytes => bytes32 n ++ bytes
  | .frmBend => []
  | .frmWait t => bytes32 t
  | .scrIdx mode gate source gateCount sourceCount =>
    bytes16 mode ++ bytes16 gate ++ bytes16 source ++ bytes16 gateCount ++ bytes16 sourceCount
  | .lit _ => []
  | .match74 _ _ => []
  | .match104 _ _ => []

/-- The encoder: an operation's bytes on the port (R91), a token's bits in the stream (R94). LIT is written here
under the pair (7, 4); its bits are the same under every pair. -/
def encode : Instr → Encoding
  | .cfgRd idx => .port (Op.cfgRd.code :: encodeOperands (.cfgRd idx))
  | .cfgWr idx val => .port (Op.cfgWr.code :: encodeOperands (.cfgWr idx val))
  | .lzssEnc => .port [Op.lzssEnc.code]
  | .lzssDec => .port [Op.lzssDec.code]
  | .crcInit => .port [Op.crcInit.code]
  | .crcUpd n bytes => .port (Op.crcUpd.code :: encodeOperands (.crcUpd n bytes))
  | .crcChk w => .port (Op.crcChk.code :: encodeOperands (.crcChk w))
  | .frmSend cmd n p => .port (Op.frmSend.code :: encodeOperands (.frmSend cmd n p))
  | .frmRdreg addr => .port (Op.frmRdreg.code :: encodeOperands (.frmRdreg addr))
  | .frmWrreg addr val => .port (Op.frmWrreg.code :: encodeOperands (.frmWrreg addr val))
  | .frmBbeginC cmd => .port (Op.frmBbeginC.code :: encodeOperands (.frmBbeginC cmd))
  | .frmBbeginR addr => .port (Op.frmBbeginR.code :: encodeOperands (.frmBbeginR addr))
  | .frmBword w => .port (Op.frmBword.code :: encodeOperands (.frmBword w))
  | .frmBraw n bytes => .port (Op.frmBraw.code :: encodeOperands (.frmBraw n bytes))
  | .frmBend => .port [Op.frmBend.code]
  | .frmWait t => .port (Op.frmWait.code :: encodeOperands (.frmWait t))
  | .scrIdx mode gate source gateCount sourceCount =>
    .port (Op.scrIdx.code :: encodeOperands (.scrIdx mode gate source gateCount sourceCount))
  | .lit c => .stream 7 4 (Token.bits 7 4 (.lit c))
  | .match74 ref len => .stream 7 4 (Token.bits 7 4 (.pair ref.toNat len.toNat))
  | .match104 ref len => .stream 10 4 (Token.bits 10 4 (.pair ref.toNat len.toNat))

/-! ## Words as spec/opcode_table.json numbers them -/

/-- The first `k` bytes of a word numbered from its least significant byte. -/
def wordBytes : Nat → Nat → List Byte
  | 0, _ => []
  | k + 1, w => BitVec.ofNat 8 w :: wordBytes k (w / 256)

/-- Enough zero operand bytes for the longest fixed operand list (SCR.IDX, ten bytes). -/
def operandZeros : List Byte := List.replicate 10 0

/-- The bytes presented on the port for a table word of `nbits` bits, operand bytes zero above them. -/
def tableBytes (nbits w : Nat) : List Byte := wordBytes (nbits / 8) w ++ operandZeros

/-- Which token row a table word belongs to: the pair (EI, EJ) and the token's length in bits. The three token rows
are all sixteen bits in whole bytes; a word with only bit 8 set above bit 7 is a LIT, one below bit 11 a MATCH.7_4,
any other a MATCH.10_4 (log 13). -/
def tableToken (nbits w : Nat) : Nat × Nat × Nat :=
  if nbits = 9 then (7, 4, 9)
  else if nbits = 12 then (7, 4, 12)
  else if nbits = 15 then (10, 4, 15)
  else if w / 256 = 1 then (7, 4, 9)
  else if w < 2 ^ 11 then (7, 4, 12)
  else (10, 4, 15)

/-- The instruction the decoder reads from a table word: one byte is an operation code of the port (R90), more is
a token of the stream, its bit 0 the last bit of the stream (R94). -/
def decodeTableWord (nbits w : Nat) : Option Instr :=
  if nbits ≤ 8 then
    match decode (.port (tableBytes 8 w)) with
    | .ok (i, _) => some i
    | .error _ => none
  else
    let (ei, ej, k) := tableToken nbits w
    match decode (.stream ei ej (natBits k w)) with
    | .ok (i, _) => some i
    | .error _ => none

end Sys2Proof
end

