-- ==== Sys2Proof/Machine/State.lean ====
section
/-! DEFINITION. The state of the CORE (R20 to R32), the environment it is driven by, and the value of each at reset
(R51). -/

namespace Sys2Proof.Machine

/-! ## Statuses, results and events -/

/-- The status of an operation (R230). -/
inductive Status where
  | ok | errOp | errState | errParam | errTimeout | errCrc | errSrc | errSnk
  deriving DecidableEq, Repr

/-- The result of an operation (R91): nothing, a u16, or SCR.IDX's three numbers. -/
inductive Result where
  | none
  | value (v : Half)
  | index (phys : BitVec 32) (newGateCount newSourceCount : BitVec 17)
  deriving DecidableEq, Repr

/-- What the host answers to a `SRC.pull()` (R49). -/
inductive SrcAnswer where
  | byte (b : Byte)
  | eos
  | err
  deriving DecidableEq, Repr

/-- What the host answers to a `SNK.push(b)` (R49). -/
inductive SnkAnswer where
  | ok
  | err
  deriving DecidableEq, Repr

/-- A port event (R10, R11). A transaction on `SRC` or `SNK` is two events, its request and its answer, because
whole operations may stand between them (R77); so is an operation, its presentation and its completion on the
operation port (R49; log 16). -/
inductive Event where
  /-- `CS+` -/
  | csAssert
  /-- `CS-` -/
  | csDeassert
  /-- `DC=C` -/
  | dcCmd
  /-- `DC=D` -/
  | dcData
  /-- `T:bb` -/
  | tx (b : Byte)
  /-- `R:bb` -/
  | rx (b : Byte)
  /-- `H:0` or `H:1` -/
  | hrdy (ready : Bool)
  /-- the request of a `SRC.pull()` -/
  | pull
  /-- its answer -/
  | pulled (a : SrcAnswer)
  /-- the request of a `SNK.push(b)` -/
  | push (b : Byte)
  /-- its answer -/
  | pushed (b : Byte) (a : SnkAnswer)
  /-- an operation presented, as R107 writes it -/
  | presented (i : Instr)
  /-- an illegal operation code presented (R105) -/
  | presentedCode (op : Byte)
  /-- `-> (STATUS, result)` -/
  | done (st : Status) (res : Result)
  deriving DecidableEq, Repr

/-! ## The units -/

/-- `LZSS.PHASE` (R27); the fourth value of the two bits never occurs. -/
inductive LzssPhase where
  | idle | enc | dec
  deriving DecidableEq, Repr

/-- The transaction the LZSS unit is blocked in, and what of the operation's pseudocode remains when it is answered
(R77, R131, R133, R135, R140; log 11). -/
inductive LzssWait where
  /-- No transaction is open. -/
  | none
  /-- LZSS.ENC filling the lookahead (R135). -/
  | encPull
  /-- LZSS.ENC pushing a full `WBUF` (R131): the bits of the token still to put, the input bytes it covers. -/
  | encPush (rest : List Bool) (y : Nat)
  /-- LZSS.ENC pushing the partial final byte (R132). -/
  | encFlush
  /-- LZSS.DEC needing a bit (R133): the bits of the token read so far. -/
  | decPull (bits : List Bool)
  /-- LZSS.DEC pushing `c` (R140 `out`): where a MATCH reads next, how many bytes it copies after this one. -/
  | decPush (c : Byte) (src left : Nat)
  deriving DecidableEq, Repr

/-- The dictionary as data: the cells that differ from what an unlisted cell reads as, by rising index. -/
abbrev Memory := List Host.Cell

/-- What an unlisted dictionary cell reads as: `FILL`. The spec leaves the reset contents unspecified (R51, U14);
every LZSS operation writes `FILL` before it reads (R130; log 9). -/
def Memory.unlisted : Byte := Config.fill

/-- The canonical form: indices strictly rising, no cell equal to what an unlisted one reads as. -/
abbrev Memory.wf (m : Memory) : Prop :=
  m.Pairwise (fun a b => a.1 < b.1) ∧ ∀ c ∈ m, c.2 ≠ Memory.unlisted

/-- The LZSS unit (R21 to R27). -/
structure Lzss where
  /-- `LZSS.EI` (R21) -/
  ei : BitVec 4
  /-- `LZSS.EJ` (R21) -/
  ej : BitVec 4
  /-- `LZSS.DICT` (R22) -/
  dict : Memory
  /-- `LZSS.R`, a number in `0 .. N-1` (R23) -/
  r : Nat
  /-- `LZSS.LA`, a number in `0 .. F` (R24) -/
  la : Nat
  /-- `LZSS.EOSF` (R24) -/
  eosf : Bool
  /-- `LZSS.WBUF` (R25) -/
  wbuf : Byte
  /-- `LZSS.WMASK` (R25) -/
  wmask : Byte
  /-- `LZSS.RBUF` (R26) -/
  rbuf : Byte
  /-- `LZSS.RMASK` (R26) -/
  rmask : Byte
  /-- `LZSS.PHASE` (R27) -/
  phase : LzssPhase
  /-- The open transaction (R77; log 11) -/
  wait : LzssWait
  deriving DecidableEq, Repr

/-- The CRC unit (R28). -/
structure Crc where
  /-- `CRC.ACC` (R28) -/
  acc : Half
  deriving DecidableEq, Repr

/-- The level of the command/data select line (R29): 0 `CMD`, 1 `DATA`. -/
inductive DcLevel where
  | cmd | data
  deriving DecidableEq, Repr

/-- `FRM.PHASE` (R30). -/
inductive FrmPhase where
  | idle | burst
  deriving DecidableEq, Repr

/-- The FRM unit (R29 to R31). -/
structure Frm where
  /-- `FRM.CS`: asserted (R29) -/
  cs : Bool
  /-- `FRM.DC` (R29) -/
  dc : DcLevel
  /-- `FRM.PHASE` (R30) -/
  phase : FrmPhase
  /-- `FRM.HAS_DC` (R31, R37) -/
  hasDc : Bool
  /-- `FRM.USE_HRDY` (R31, R37) -/
  useHrdy : Bool
  /-- `FRM.RDOP` (R31, R38) -/
  rdop : Half
  /-- `FRM.WROP` (R31, R39) -/
  wrop : Half
  /-- `FRM.STADDR` (R31, R40) -/
  staddr : Half
  /-- `FRM.STMASK` (R31, R41) -/
  stmask : Half
  /-- `FRM.STEXP` (R31, R42) -/
  stexp : Half
  deriving DecidableEq, Repr

/-! ## The environment -/

/-- One thing the host does (R7, R77, R260): it presents an operation, answers the open transaction, or resets the
CORE. -/
inductive HostInput where
  | op (bytes : List Byte)
  | src (a : SrcAnswer)
  | snk (a : SnkAnswer)
  | reset
  deriving DecidableEq, Repr

/-- The outside of the CORE, no part of its state (R7, R20): what the host will do, the controller's draws to come
(and after them free values, counted by `draws`; log 6), and the event history (R11). -/
structure Env where
  host : List HostInput
  rx : List Byte
  hrdy : List Bool
  draws : Nat
  trace : List Event
  deriving DecidableEq, Repr

/-- The parameter `REF_MODE` (R8, R96). -/
inductive RefMode where
  | distance | position
  deriving DecidableEq, Repr

/-- The whole machine. The SCR unit has no state (R32). `refMode` is a parameter of the implementation that no
operation writes (R269; log 8). -/
structure State where
  lzss : Lzss
  crc : Crc
  frm : Frm
  env : Env
  refMode : RefMode
  deriving DecidableEq, Repr

/-- Why the model stops. -/
inductive Fault where
  /-- Raised by the fetch: the host answers a `SRC` or `SNK` transaction that is not open. The spec calls this no
  legal input (R273, U17). Safe: the model stops where the hardware is not described. -/
  | answerUnasked
  deriving DecidableEq, Repr

/-- Why the model gives an input no meaning. -/
inductive Refusal where
  /-- Raised by an arm of `exec` that has no meaning yet; no arm is left so. Safe. -/
  | notModelled (mnemonic : String)
  /-- Raised by the fetch: what the host presents is not one whole operation, so the operation port cannot carry it
  (R91, R93; log 4). Safe. -/
  | notAnOperation (why : DecodeError)
  /-- Raised by the fetch: bytes are left over after the operation (R91, R93; log 4). Safe. -/
  | surplusOperands (op : Instr)
  deriving DecidableEq, Repr

/-! ## Reset -/

/-- The LZSS unit at reset (R51); its working registers are unspecified there (log 9, log 10). -/
def Lzss.reset : Lzss where
  ei := 7
  ej := 4
  dict := []
  r := 0
  la := 0
  eosf := false
  wbuf := 0x00
  wmask := 0x80
  rbuf := 0x00
  rmask := 0x00
  phase := .idle
  wait := .none

/-- The CRC unit at reset (R51). -/
def Crc.reset : Crc where
  acc := 0xFFFF

/-- The FRM unit at reset (R51). -/
def Frm.reset : Frm where
  cs := false
  dc := .data
  phase := .idle
  hasDc := true
  useHrdy := false
  rdop := 0x0000
  wrop := 0x0000
  staddr := 0x0000
  stmask := 0x0000
  stexp := 0xFFFF

/-- The machine right after reset (R51, R260): the CORE waits for the first operation, the environment has done
nothing, `REF_MODE` has its default (log 2, log 8). -/
def State.reset : State where
  lzss := Lzss.reset
  crc := Crc.reset
  frm := Frm.reset
  env := { host := [], rx := [], hrdy := [], draws := 0, trace := [] }
  refMode := .distance

end Sys2Proof.Machine
end

