-- ==== Sys2Proof/Machine/Ops.lean ====
section
/-! DEFINITION. The named operations every meaning is built from: the event trace, completing an operation and
raising an error (R242), the dictionary's MemRead and MemWrite (R10, R61), and the transport primitives (R180). -/

namespace Sys2Proof.Machine

/-! ## Events and completions -/

/-- Append an event to the history (R11). -/
def State.emit (e : Event) (s : State) : State :=
  { s with env := { s.env with trace := s.env.trace ++ [e] } }

/-- End the operation with a status and a result on the operation port (R10 `return`, R91). -/
def complete (st : Status) (res : Result) (s : State) : State := s.emit (.done st res)

/-- The numeric code of a status (R230). -/
def Status.code : Status → Byte
  | .ok => 0
  | .errOp => 1
  | .errState => 2
  | .errParam => 3
  | .errTimeout => 4
  | .errCrc => 5
  | .errSrc => 6
  | .errSnk => 7

/-- What every meaning answers. -/
abbrev Answer := Host.Outcome State Fault Refusal

/-- `return (OK, v)` (R10). -/
def finish (res : Result) (s : State) : Answer := .next (complete .ok res s)

/-- `raise E` (R10, R242): the operation ends with status `E`; nothing is saved, no mode changes, nothing is
vectored, and what was written and emitted before stands. `res` is the result with all fields 0 (R91). There is no
return from an error: the next operation is executed normally (R243). -/
def raise (st : Status) (res : Result) (s : State) : Answer := .next (complete st res s)

/-! ## The dictionary -/

/-- The byte at index `a` of the dictionary RAM. -/
def memRead : Memory → Nat → Byte
  | [], _ => Memory.unlisted
  | (b, v) :: rest, a => if a = b then v else memRead rest a

/-- A cell in front of a canonical list, left out where it holds what an unlisted cell reads as. -/
def memCons (a : Nat) (v : Byte) (m : Memory) : Memory :=
  if v = Memory.unlisted then m else (a, v) :: m

/-- Store one byte, keeping the canonical form. -/
def memWrite : Memory → Nat → Byte → Memory
  | [], a, v => memCons a v []
  | (b, w) :: rest, a, v =>
    if a < b then memCons a v ((b, w) :: rest)
    else if a = b then memCons a v rest
    else (b, w) :: memWrite rest a v

/-- `for i in 0 .. n-1: MemWrite(i, 1, FILL)` (R130): every cell below `n` becomes what an unlisted cell reads as. -/
def memFill (m : Memory) (n : Nat) : Memory := m.filter (fun c => n ≤ c.1)

/-- `N = 2^EI`, the dictionary size (R21). -/
def Lzss.n (l : Lzss) : Nat := 2 ^ l.ei.toNat

/-- `F = 2^EJ + P`, the longest match and the lookahead size (R8, R21). -/
def Lzss.f (l : Lzss) : Nat := 2 ^ l.ej.toNat + Config.policy

/-- `MemRead(a, 1)` = `DICT[a mod N]` (R10, R61). -/
def Lzss.read (l : Lzss) (a : Nat) : Byte := memRead l.dict (a % l.n)

/-- `MemWrite(a, 1, v)` (R10, R61). -/
def Lzss.write (l : Lzss) (a : Nat) (v : Byte) : Lzss := { l with dict := memWrite l.dict (a % l.n) v }

/-- `(R - d) mod N` for `d` in `0 .. N` (R9). -/
def Lzss.back (l : Lzss) (d : Nat) : Nat := (l.r + l.n - d) % l.n

/-! ## The transport -/

/-- `select()` (R180). -/
def select (s : State) : State := { s with frm := { s.frm with cs := true } }.emit .csAssert

/-- `deselect()` (R180). -/
def deselect (s : State) : State := { s with frm := { s.frm with cs := false } }.emit .csDeassert

/-- `command_mode()` (R180): nothing at all when the controller has no command/data line. -/
def commandMode (s : State) : State :=
  if s.frm.hasDc then { s with frm := { s.frm with dc := .cmd } }.emit .dcCmd else s

/-- `data_mode()` (R180). -/
def dataMode (s : State) : State :=
  if s.frm.hasDc then { s with frm := { s.frm with dc := .data } }.emit .dcData else s

/-- `TX(b)` (R10); it cannot fail (R82). -/
def txByte (b : Byte) (s : State) : State := s.emit (.tx b)

/-- `TX` of each byte in the order given (R65, R187). -/
def txBytes (bs : List Byte) (s : State) : State := bs.foldl (fun s b => txByte b s) s

/-- `tx16(w)` (R180): high byte first (R62). -/
def tx16 (w : Half) (s : State) : State := txByte (lo w) (txByte (hi w) s)

/-- `tx16` of each word in the order given (R181). -/
def txHalves (ws : List Half) (s : State) : State := ws.foldl (fun s w => tx16 w s) s

/-- `open(code)` (R180), the head of every frame. -/
def openFrame (code : Half) (s : State) : State := dataMode (tx16 code (commandMode (select s)))

/-- `RX()` (R10): the controller's next draw, a free value when none is scripted; it cannot fail (R82; log 6). -/
def rxByte (s : State) : Byte × State :=
  match s.env.rx with
  | b :: rest => (b, { s with env := { s.env with rx := rest } }.emit (.rx b))
  | [] =>
    let b := Config.freeRx s.env.draws
    (b, { s with env := { s.env with draws := s.env.draws + 1 } }.emit (.rx b))

/-- `rx16()` (R180): the first byte received is the high one (R63). -/
def rx16 (s : State) : Half × State :=
  let (b0, s) := rxByte s
  let (b1, s) := rxByte s
  (be16 b0 b1, s)

/-- `HRDY()` (R10): the next sample of the ready line, `true` for asserted (R190; log 6). -/
def sampleReady (s : State) : Bool × State :=
  match s.env.hrdy with
  | h :: rest => (h, { s with env := { s.env with hrdy := rest } }.emit (.hrdy h))
  | [] =>
    let h := Config.freeHrdy s.env.draws
    (h, { s with env := { s.env with draws := s.env.draws + 1 } }.emit (.hrdy h))

/-- The register-read frame (R101, R182): the dummy word is always read and never used (R73). -/
def readRegister (addr : Half) (s : State) : Half × State :=
  let (_, s) := rx16 (tx16 addr (openFrame s.frm.rdop s))
  let (value, s) := rx16 s
  (value, deselect s)

/-! ## The source and sink ports -/

/-- Open a `SRC.pull()`; `w` is what is to be done with its answer. -/
def pullSrc (w : LzssWait) (s : State) : State := { s with lzss := { s.lzss with wait := w } }.emit .pull

/-- Open a `SNK.push(b)`; `w` is what is to be done with its answer. -/
def pushSnk (b : Byte) (w : LzssWait) (s : State) : State :=
  { s with lzss := { s.lzss with wait := w } }.emit (.push b)

/-- End an LZSS operation: `LZSS.PHASE <- IDLE` comes first (R134, R140, R148). -/
def lzssEnd (st : Status) (s : State) : State :=
  complete st .none { s with lzss := { s.lzss with phase := .idle, wait := .none } }

/-! ## Reset -/

/-- The reset event (R260, R261): every element at its reset value, an operation in progress abandoned without a
status; the controller, its draws and the host's further inputs are untouched. It emits `CS-` and, when the
controller has a command/data line, `DC=D` (log 15). -/
def resetEvent (s : State) : State :=
  let t : State := { State.reset with env := s.env, refMode := s.refMode }.emit .csDeassert
  if s.frm.hasDc then t.emit .dcData else t

end Sys2Proof.Machine
end

