-- ==== Sys2Proof/Machine/Operands.lean ====
section
/-! DEFINITION. Operand forms: the control registers by index and by field (R33 to R43), the mode mask of SCR.IDX by
name (R104), and the electrical view of the two lines (R29). Byte and word assembly is in Sys2Proof/Decode.lean. -/

namespace Sys2Proof.Machine

/-! ## Control registers -/

/-- The ten control and status registers (R33). -/
inductive Csr where
  | lzssCfg | lzssStat | crcAcc | frmCtrl | frmRdop | frmWrop | frmStaddr | frmStmask | frmStexp | frmStat
  deriving DecidableEq, Repr

/-- The index of a control register (R33). -/
def Csr.idx : Csr → Byte
  | .lzssCfg => 0x00
  | .lzssStat => 0x01
  | .crcAcc => 0x10
  | .frmCtrl => 0x20
  | .frmRdop => 0x21
  | .frmWrop => 0x22
  | .frmStaddr => 0x23
  | .frmStmask => 0x24
  | .frmStexp => 0x25
  | .frmStat => 0x26

/-- The map of R33, in its order. -/
def Csr.all : List Csr :=
  [.lzssCfg, .lzssStat, .crcAcc, .frmCtrl, .frmRdop, .frmWrop, .frmStaddr, .frmStmask, .frmStexp, .frmStat]

/-- The register an index names; any other index does not exist (R33). -/
def Csr.ofIdx (i : Byte) : Option Csr := Csr.all.find? (fun c => c.idx == i)

/-- The read-only registers (R33, R121). -/
def Csr.readOnly : Csr → Bool
  | .lzssStat | .crcAcc | .frmStat => true
  | .lzssCfg | .frmCtrl | .frmRdop | .frmWrop | .frmStaddr | .frmStmask | .frmStexp => false

/-- The two bits of `LZSS.PHASE` (R27). -/
def LzssPhase.bits : LzssPhase → BitVec 2
  | .idle => 0
  | .enc => 1
  | .dec => 2

/-- The bit of `FRM.PHASE` (R30). -/
def FrmPhase.bit : FrmPhase → BitVec 1
  | .idle => 0
  | .burst => 1

/-- The bit of `FRM.DC` (R29). -/
def DcLevel.bit : DcLevel → BitVec 1
  | .cmd => 0
  | .data => 1

/-- `csr[i]` (R10, R120): the register assembled from the state by its field layout, reserved bits 0. -/
def readCsr (s : State) : Csr → Half
  | .lzssCfg => (0#8 ++ s.lzss.ej ++ s.lzss.ei : BitVec 16)
  | .lzssStat => (0#14 ++ s.lzss.phase.bits : BitVec 16)
  | .crcAcc => s.crc.acc
  | .frmCtrl => (0#14 ++ BitVec.ofBool s.frm.useHrdy ++ BitVec.ofBool s.frm.hasDc : BitVec 16)
  | .frmRdop => s.frm.rdop
  | .frmWrop => s.frm.wrop
  | .frmStaddr => s.frm.staddr
  | .frmStmask => s.frm.stmask
  | .frmStexp => s.frm.stexp
  | .frmStat => (0#13 ++ s.frm.dc.bit ++ BitVec.ofBool s.frm.cs ++ s.frm.phase.bit : BitVec 16)

/-- Field `EI` of a value written to LZSS_CFG (R34). -/
def cfgEi (val : Half) : BitVec 4 := val.extractLsb' 0 4

/-- Field `EJ` of a value written to LZSS_CFG (R34). -/
def cfgEj (val : Half) : BitVec 4 := val.extractLsb' 4 4

/-- `EI ≤ EI_MAX`. Ten is at most `EI_MAX` whatever the implementation (R8), so the smaller exponents need no look
at the parameter (log 7). -/
def withinEiMax (ei : Nat) : Bool := decide (ei ≤ 10) || decide (ei ≤ Config.eiMax)

/-- The legal pairs (R21): `1 ≤ EJ`, `EJ < EI`, `EI ≤ EI_MAX`, `EI + EJ ≥ 7`. -/
def legalPair (ei ej : Nat) : Bool :=
  decide (1 ≤ ej) && (decide (ej < ei) && (decide (7 ≤ ei + ej) && withinEiMax ei))

/-- A value that LZSS_CFG accepts (R34): reserved bits 0 and a legal pair. -/
def lzssCfgLegal (val : Half) : Bool :=
  val.extractLsb' 8 8 == 0#8 && legalPair (cfgEi val).toNat (cfgEj val).toNat

/-- A value that FRM_CTRL accepts (R37): reserved bits 0. -/
def frmCtrlLegal (val : Half) : Bool := val.extractLsb' 2 14 == 0#14

/-- Is the value legal for the register (R121)? The read-only registers accept none. -/
def csrLegal (c : Csr) (val : Half) : Bool :=
  match c with
  | .lzssCfg => lzssCfgLegal val
  | .frmCtrl => frmCtrlLegal val
  | .frmRdop | .frmWrop | .frmStaddr | .frmStmask | .frmStexp => true
  | .lzssStat | .crcAcc | .frmStat => false

/-- Is the unit that owns the register busy (R121)? -/
def csrBusy (c : Csr) (s : State) : Bool :=
  match c with
  | .lzssCfg => s.lzss.phase != .idle
  | .frmCtrl | .frmRdop | .frmWrop | .frmStaddr | .frmStmask | .frmStexp => s.frm.phase != .idle
  | .lzssStat | .crcAcc | .frmStat => false

/-- `csr[i] <- v` (R10, R121): exactly the fields of the register. -/
def writeCsr (c : Csr) (val : Half) (s : State) : State :=
  match c with
  | .lzssCfg => { s with lzss := { s.lzss with ei := cfgEi val, ej := cfgEj val } }
  | .frmCtrl => { s with frm := { s.frm with hasDc := val.getLsbD 0, useHrdy := val.getLsbD 1 } }
  | .frmRdop => { s with frm := { s.frm with rdop := val } }
  | .frmWrop => { s with frm := { s.frm with wrop := val } }
  | .frmStaddr => { s with frm := { s.frm with staddr := val } }
  | .frmStmask => { s with frm := { s.frm with stmask := val } }
  | .frmStexp => { s with frm := { s.frm with stexp := val } }
  | .lzssStat | .crcAcc | .frmStat => s

/-! ## The scramble mode mask -/

/-- The nine behaviours of the mode mask (R104). -/
structure ScrMode where
  srcScramble : Bool
  gateScramble : Bool
  firstOdd : Bool
  srcInterleave : Bool
  mirrorLeft : Bool
  mirrorRight : Bool
  srcReverse : Bool
  gateReverse : Bool
  srcStart : Bool
  deriving DecidableEq, Repr

/-- The mask by its bit positions (R104). -/
def ScrMode.ofMask (mode : Half) : ScrMode where
  srcScramble := mode.getLsbD 0
  gateScramble := mode.getLsbD 1
  firstOdd := mode.getLsbD 2
  srcInterleave := mode.getLsbD 3
  mirrorLeft := mode.getLsbD 4
  mirrorRight := mode.getLsbD 5
  srcReverse := mode.getLsbD 6
  gateReverse := mode.getLsbD 7
  srcStart := mode.getLsbD 8

/-- The reserved bits 15:9 are 0 (R104, R106). -/
def scrReservedClear (mode : Half) : Bool := mode.extractLsb' 9 7 == 0#7

/-! ## The electrical view -/

/-- The electrical level of chip-select (R29; log 18). -/
def csPin (s : State) : Bool := if s.frm.cs then Config.csActiveLevel else !Config.csActiveLevel

/-- The electrical level of the command/data line (R29; log 18). -/
def dcPin (s : State) : Bool :=
  match s.frm.dc with
  | .cmd => Config.dcCmdLevel
  | .data => !Config.dcCmdLevel

end Sys2Proof.Machine
end

