-- ==== Sys2Proof/Machine/Flags.lean ====
section
/-! DEFINITION. The CORE has no condition codes and no operation writes a flag (R46). What decides a status in their
place: the busy predicate of FRM.WAIT (R190) and the comparison of CRC.CHK (R173). -/

namespace Sys2Proof.Machine

/-- The status-register policy's predicate `(v & mask) != expected` (R41, R42, R190). -/
def statusBusy (f : Frm) (v : Half) : Bool := (v &&& f.stmask) != f.stexp

/-- `busy()` (R190), one poll: a sample of the ready line, or one whole register-read frame of the status register. -/
def busy (s : State) : Bool × State :=
  if s.frm.useHrdy then
    let (h, s) := sampleReady s
    (!h, s)
  else
    let (v, t) := readRegister s.frm.staddr s
    (statusBusy s.frm v, t)

/-- Does the running CRC equal the stored one (R173)? -/
def crcMatches (c : Crc) (w : Half) : Bool := c.acc == w

end Sys2Proof.Machine
end

