-- ==== Sys2Proof/Machine/Cfg.lean ====
section
/-! DEFINITION. The configuration operations (R120, R121). -/

namespace Sys2Proof.Machine

/-- CFG.RD (R120): legal always; an index that does not exist is ERR_PARAM. -/
def execCfgRd (idx : Byte) (s : State) : Answer :=
  match Csr.ofIdx idx with
  | none => raise .errParam (.value 0) s
  | some c => finish (.value (readCsr s c)) s

/-- CFG.WR (R121), its checks in the order of R241: the index, the owning unit's phase, the value. -/
def execCfgWr (idx : Byte) (val : Half) (s : State) : Answer :=
  match Csr.ofIdx idx with
  | none => raise .errParam .none s
  | some c =>
    if c.readOnly then raise .errParam .none s
    else if csrBusy c s then raise .errState .none s
    else if csrLegal c val then finish .none (writeCsr c val s)
    else raise .errParam .none s

end Sys2Proof.Machine
end

