-- ==== Sys2Proof/Machine/Crc.lean ====
section
/-! DEFINITION. The CRC unit (R170 to R173). -/

namespace Sys2Proof.Machine

/-- One shift of the byte step (R170): the bit shifted out of bit 15 decides whether 0x1021 is added. -/
def crcShift (acc : Half) : Half := if acc.getLsbD 15 then (acc <<< 1) ^^^ 0x1021 else acc <<< 1

/-- `k` shifts. -/
def crcShifts : Nat → Half → Half
  | 0, acc => acc
  | k + 1, acc => crcShifts k (crcShift acc)

/-- `crc_step(acc, b)` (R170). -/
def crcStep (acc : Half) (b : Byte) : Half := crcShifts 8 (acc ^^^ (b.setWidth 16 <<< 8))

/-- `crc_step` over bytes, first to last (R172). -/
def crcBytes (acc : Half) (bs : List Byte) : Half := bs.foldl crcStep acc

/-- `CRC.ACC <- v`. -/
def State.setAcc (v : Half) (s : State) : State := { s with crc := { acc := v } }

/-- CRC.INIT (R171). -/
def execCrcInit (s : State) : Answer := finish .none (s.setAcc 0xFFFF)

/-- CRC.UPD (R172): the first `n` of the bytes presented; a well-formed one presents exactly `n`. -/
def execCrcUpd (n : BitVec 32) (bytes : List Byte) (s : State) : Answer :=
  finish .none (s.setAcc (crcBytes s.crc.acc (bytes.take n.toNat)))

/-- CRC.CHK (R173): the accumulator is unchanged either way. -/
def execCrcChk (w : Half) (s : State) : Answer :=
  if crcMatches s.crc w then finish .none s else raise .errCrc .none s

end Sys2Proof.Machine
end

