-- ==== Sys2Proof/Machine/Framer.lean ====
section
/-! DEFINITION. The FRM unit's operations (R181 to R189) over the frame primitives of Ops. -/

namespace Sys2Proof.Machine

/-- `FRM.PHASE <- p`. -/
def State.setFrmPhase (p : FrmPhase) (s : State) : State := { s with frm := { s.frm with phase := p } }

/-- FRM.SEND (R181): ERR_STATE, then ERR_PARAM for more than five parameters, both before any event. -/
def execFrmSend (cmd : Half) (n : Byte) (p : List Half) (s : State) : Answer :=
  if s.frm.phase != .idle then raise .errState .none s
  else if Config.sendMaxParams < n.toNat then raise .errParam .none s
  else finish .none (deselect (txHalves (p.take n.toNat) (openFrame cmd s)))

/-- FRM.RDREG (R182). -/
def execFrmRdreg (addr : Half) (s : State) : Answer :=
  if s.frm.phase != .idle then raise .errState (.value 0) s
  else
    let (value, t) := readRegister addr s
    finish (.value value) t

/-- FRM.WRREG (R183). -/
def execFrmWrreg (addr val : Half) (s : State) : Answer :=
  if s.frm.phase != .idle then raise .errState .none s
  else finish .none (deselect (tx16 val (tx16 addr (openFrame s.frm.wrop s))))

/-- FRM.BBEGIN.C (R184): the frame stays open. -/
def execFrmBbeginC (cmd : Half) (s : State) : Answer :=
  if s.frm.phase != .idle then raise .errState .none s
  else finish .none ((openFrame cmd s).setFrmPhase .burst)

/-- FRM.BBEGIN.R (R185): the register-write frame with its value part left open. -/
def execFrmBbeginR (addr : Half) (s : State) : Answer :=
  if s.frm.phase != .idle then raise .errState .none s
  else finish .none ((tx16 addr (openFrame s.frm.wrop s)).setFrmPhase .burst)

/-- FRM.BWORD (R186). -/
def execFrmBword (w : Half) (s : State) : Answer :=
  if s.frm.phase != .burst then raise .errState .none s
  else finish .none (tx16 w s)

/-- FRM.BRAW (R187): the first `n` of the bytes presented, verbatim; a well-formed one presents exactly `n`. -/
def execFrmBraw (n : BitVec 32) (bytes : List Byte) (s : State) : Answer :=
  if s.frm.phase != .burst then raise .errState .none s
  else finish .none (txBytes (bytes.take n.toNat) s)

/-- FRM.BEND (R188). -/
def execFrmBend (s : State) : Answer :=
  if s.frm.phase != .burst then raise .errState .none s
  else finish .none ((deselect s).setFrmPhase .idle)

/-- At most so many polls, stopping at the first idle one (R189): was the controller found idle, and the state after
the polls made. -/
def pollUntilIdle : Nat → State → Bool × State
  | 0, s => (false, s)
  | t + 1, s =>
    match busy s with
    | (true, s') => pollUntilIdle t s'
    | (false, s') => (true, s')

/-- FRM.WAIT (R189). -/
def execFrmWait (t : BitVec 32) (s : State) : Answer :=
  if s.frm.phase != .idle then raise .errState .none s
  else
    match pollUntilIdle t.toNat s with
    | (true, s') => finish .none s'
    | (false, s') => raise .errTimeout .none s'

end Sys2Proof.Machine
end

