-- ==== Sys2Proof/Machine/Lzss.lean ====
section
/-! DEFINITION. The LZSS unit (R130 to R148). An operation runs from one source or sink transaction to the next; the
answer resumes it where `LZSS.wait` says it stands (R77, R147; log 1, log 11). -/

namespace Sys2Proof.Machine

/-! ## Shared pieces -/

/-- The start of both operations (R130). -/
def lzssStart (l : Lzss) : Lzss :=
  { l with
    dict := memFill l.dict l.n
    r := l.n - l.f
    la := 0
    eosf := false
    wbuf := 0x00
    wmask := 0x80
    rbuf := 0x00
    rmask := 0x00 }

/-- `putbit(b)` up to its push (R131): place the bit, move the mask. -/
def putBit (b : Bool) (l : Lzss) : Lzss :=
  { l with wbuf := if b then l.wbuf ||| l.wmask else l.wbuf, wmask := l.wmask >>> 1 }

/-- Place bits until the output byte is full: `none` when all are placed, else the bits still to put once the full
byte is pushed (R131). -/
def putBits : List Bool → Lzss → Lzss × Option (List Bool)
  | [], l => (l, none)
  | b :: rest, l => if (putBit b l).wmask = 0 then (putBit b l, some rest) else putBits rest (putBit b l)

/-! ## LZSS.ENC -/

/-- The length of the match at distance `d` (R136): how far the bytes from `R - d` and from `R` agree, `j` known to
agree and at most `k` more. -/
def matchLen (l : Lzss) (d : Nat) : Nat → Nat → Nat
  | 0, j => j
  | k + 1, j => if l.read (l.back d + j) = l.read (l.r + j) then matchLen l d k (j + 1) else j

/-- The search loop (R136): `k` distances from `d` on, ascending; a candidate replaces the best only when strictly
longer. -/
def searchFrom (l : Lzss) : Nat → Nat → Nat × Nat → Nat × Nat
  | 0, _, best => best
  | k + 1, d, best =>
    searchFrom l k (d + 1) (if best.2 < matchLen l d l.la 0 then (d, matchLen l d l.la 0) else best)

/-- The search (R136): the best distance in `1 .. N - F` and its length. -/
def search (l : Lzss) : Nat × Nat := searchFrom l (l.n - l.f) 1 (0, 1)

/-- The number written in a match's `REF` field for backward distance `d` (R96, R137). -/
def refField (mode : RefMode) (l : Lzss) (d : Nat) : Nat :=
  match mode with
  | .distance => d
  | .position => l.back d

/-- The token for the best match (R137) and the number of input bytes it covers. -/
def chooseToken (mode : RefMode) (l : Lzss) (best : Nat × Nat) : Token × Nat :=
  if best.2 ≤ Config.policy then (.lit (l.read l.r), 1)
  else (.pair (refField mode l best.1) (best.2 - 2), best.2)

/-- `R <- (R + y) mod N; LA <- LA - y` (R134). -/
def encAdvance (y : Nat) (l : Lzss) : Lzss := { l with r := (l.r + y) % l.n, la := l.la - y }

/-- `flushbits()` and the end of LZSS.ENC (R132, R134). -/
def encFlushBits (s : State) : State :=
  if s.lzss.wmask = 0x80 then lzssEnd .ok s else pushSnk s.lzss.wbuf .encFlush s

/-- The encoder's loop (R134) up to its next transaction, with at least `LA` for its first argument: fill the
lookahead (R135), else leave the loop when it is empty, else code one token and go round. Coding a token takes at
least one byte off the lookahead. -/
def encLoop : Nat → State → State
  | fuel, s =>
    if s.lzss.la < s.lzss.f ∧ s.lzss.eosf = false then pullSrc .encPull s
    else if s.lzss.la = 0 then encFlushBits s
    else
      match fuel with
      | 0 => encFlushBits s
      | fuel + 1 =>
        let (token, y) := chooseToken s.refMode s.lzss (search s.lzss)
        match putBits (token.bits s.lzss.ei.toNat s.lzss.ej.toNat) s.lzss with
        | (l, some rest) => pushSnk l.wbuf (.encPush rest y) { s with lzss := l }
        | (l, none) => encLoop fuel { s with lzss := encAdvance y l }

/-- Put the rest of a token's bits, then advance and go round the loop (R131, R134). -/
def encResume (rest : List Bool) (y : Nat) (s : State) : State :=
  match putBits rest s.lzss with
  | (l, some rest) => pushSnk l.wbuf (.encPush rest y) { s with lzss := l }
  | (l, none) => encLoop (encAdvance y l).la { s with lzss := encAdvance y l }

/-- The source answers the encoder (R135, R148). -/
def encOnSrc (a : SrcAnswer) (s : State) : State :=
  match a with
  | .err => lzssEnd .errSrc s
  | .eos =>
    let l := { s.lzss with eosf := true }
    encLoop l.la { s with lzss := l }
  | .byte b =>
    let l := { s.lzss.write (s.lzss.r + s.lzss.la) b with la := s.lzss.la + 1 }
    encLoop l.la { s with lzss := l }

/-- The sink answers the encoder inside `putbit` (R131, R148). -/
def encOnPush (rest : List Bool) (y : Nat) (a : SnkAnswer) (s : State) : State :=
  match a with
  | .err => lzssEnd .errSnk s
  | .ok => encResume rest y { s with lzss := { s.lzss with wbuf := 0x00, wmask := 0x80 } }

/-- The sink answers the encoder's flush (R132, R148). -/
def encOnFlush (a : SnkAnswer) (s : State) : State :=
  match a with
  | .err => lzssEnd .errSnk s
  | .ok => lzssEnd .ok s

/-- LZSS.ENC (R134): ERR_STATE when the unit is busy, else the start and the loop up to its first pull. -/
def execLzssEnc (s : State) : Answer :=
  if s.lzss.phase != .idle then raise .errState .none s
  else
    let l := { lzssStart s.lzss with phase := .enc }
    .next (encLoop l.la { s with lzss := l })

/-! ## LZSS.DEC -/

/-- `out(c)` up to its push (R140): `src` and `left` say what a MATCH copies after this byte. -/
def outByte (c : Byte) (src left : Nat) (s : State) : State := pushSnk c (.decPush c src left) s

/-- Token LIT (R141). -/
def runLit (c : Byte) (s : State) : State := outByte c 0 0 s

/-- Where a MATCH starts to copy (R96, R142). -/
def copyStart (mode : RefMode) (l : Lzss) (ref : Nat) : Nat :=
  match mode with
  | .distance => l.back ref
  | .position => ref

/-- Token MATCH (R142), `copy(ref, len)`: the first of its `len + 2` bytes goes to the sink. -/
def runMatch (ref len : Nat) (s : State) : State :=
  let start := copyStart s.refMode s.lzss ref
  outByte (s.lzss.read start) (start + 1) (len + 1) s

/-- Token LIT as an instruction (R141). -/
def execLit (data : Byte) (s : State) : Answer := .next (runLit data s)

/-- Token MATCH of the pair (7, 4) as an instruction (R142). -/
def execMatch74 (ref : BitVec 7) (len : BitVec 4) (s : State) : Answer := .next (runMatch ref.toNat len.toNat s)

/-- Token MATCH of the pair (10, 4) as an instruction (R142). -/
def execMatch104 (ref : BitVec 10) (len : BitVec 4) (s : State) : Answer := .next (runMatch ref.toNat len.toNat s)

/-- LZSS.DEC (R140): ERR_STATE when the unit is busy, else the start and the first pull, for no bit is held. -/
def execLzssDec (s : State) : Answer :=
  if s.lzss.phase != .idle then raise .errState .none s
  else .next (pullSrc (.decPull []) { s with lzss := { lzssStart s.lzss with phase := .dec } })

/-- The bit `RBUF & RMASK` (R133). -/
def Lzss.heldBit (l : Lzss) : Bool := (l.rbuf &&& l.rmask) != 0

/-- The decoder's reading of a token (R133, R140), bit by bit, at most `k` bits: `inl` a token is complete, `inr` a
pull is open. `bits` are the bits of the token read so far. -/
def decBits : Nat → List Bool → State → (Token × State) ⊕ State
  | 0, bits, s => .inr (pullSrc (.decPull bits) s)
  | k + 1, bits, s =>
    if s.lzss.rmask = 0 then .inr (pullSrc (.decPull bits) s)
    else
      let bits' := bits ++ [s.lzss.heldBit]
      let s' := { s with lzss := { s.lzss with rmask := s.lzss.rmask >>> 1 } }
      match decodeToken s.lzss.ei.toNat s.lzss.ej.toNat bits' with
      | some (token, _) => .inl (token, s')
      | none => decBits k bits' s'

/-- The source answers the decoder (R133, R140, R143, R148): the token it completes, or where the unit stands. -/
def decOnSrc (bits : List Bool) (a : SrcAnswer) (s : State) : (Token × State) ⊕ State :=
  match a with
  | .err => .inr (lzssEnd .errSrc s)
  | .eos => .inr (lzssEnd .ok s)
  | .byte b => decBits 8 bits { s with lzss := { s.lzss with rbuf := b, rmask := 0x80 } }

/-- The store of `out(c)` (R140): `MemWrite(R, 1, c)`, then `R <- (R + 1) mod N`. -/
def storeByte (c : Byte) (l : Lzss) : Lzss := { l.write l.r c with r := (l.r + 1) % l.n }

/-- The sink answers the decoder (R140, R142, R148): store the byte, then copy the next one or read a token. -/
def decOnPush (c : Byte) (src left : Nat) (a : SnkAnswer) (s : State) : (Token × State) ⊕ State :=
  match a with
  | .err => .inr (lzssEnd .errSnk s)
  | .ok =>
    let l := storeByte c s.lzss
    match left with
    | 0 => decBits 8 [] { s with lzss := l }
    | left + 1 => .inr (outByte (l.read src) (src + 1) left { s with lzss := l })

end Sys2Proof.Machine
end

