-- ==== Sys2Proof/Machine/Scrambler.lean ====
section
/-! DEFINITION. The SCR unit (R210 to R219): a function of its inputs on natural numbers, no state (R32). -/

namespace Sys2Proof.Machine

/-- The working variables `g, s, G, S` of R210. -/
structure Coord where
  g : Nat
  s : Nat
  gs : Nat
  ss : Nat
  deriving DecidableEq, Repr

/-- Precheck (R211). -/
def scrPrecheck (mode gate source gateCount sourceCount : Half) : Bool :=
  scrReservedClear mode && (decide (1 ≤ gateCount.toNat) && (decide (1 ≤ sourceCount.toNat) &&
    (decide (gate.toNat < gateCount.toNat) && decide (source.toNat < sourceCount.toNat))))

/-- Stage (a), source scramble (R212); `none` is `raise ERR_PARAM`. -/
def stageA (c : Coord) : Option Coord :=
  if c.gs % 2 ≠ 0 then none
  else some { g := c.g / 2, s := 2 * c.s + c.g % 2, gs := c.gs / 2, ss := 2 * c.ss }

/-- Stage (b), gate scramble (R213). -/
def stageB (c : Coord) : Option Coord :=
  if c.ss % 2 ≠ 0 then none
  else some { g := 2 * c.g + c.s % 2, s := c.s / 2, gs := 2 * c.gs, ss := c.ss / 2 }

/-- Stage (c), source interleave with its polarity (R214). -/
def stageC (firstOdd : Bool) (c : Coord) : Option Coord :=
  if c.ss % 2 ≠ 0 then none
  else
    let h := c.ss / 2
    if firstOdd then some { c with s := c.s / 2 + (if c.s % 2 = 1 then 0 else h) }
    else some { c with s := c.s / 2 + (if c.s % 2 = 1 then h else 0) }

/-- Stage (d), half mirrors (R215). -/
def stageD (left right : Bool) (c : Coord) : Option Coord :=
  if c.ss % 2 ≠ 0 then none
  else
    let h := c.ss / 2
    if c.s < h then
      if left then some { c with s := h - 1 - c.s } else some c
    else
      if right then some { c with s := 3 * h - 1 - c.s } else some c

/-- Stage (e), source direction reversal (R216). -/
def stageE (c : Coord) : Option Coord := some { c with s := c.ss - 1 - c.s }

/-- Stage (f), source start rotation (R217). -/
def stageF (c : Coord) : Option Coord :=
  if c.ss % 2 ≠ 0 then none
  else some { c with s := (c.s + c.ss / 2) % c.ss }

/-- Stage (g), gate direction reversal (R218). -/
def stageG (c : Coord) : Option Coord := some { c with g := c.gs - 1 - c.g }

/-- A stage runs when it is enabled (R210). -/
def onlyIf (enabled : Bool) (stage : Coord → Option Coord) (c : Coord) : Option Coord :=
  if enabled then stage c else some c

/-- The stages in their fixed order (R210). -/
def scrStages (m : ScrMode) (c : Coord) : Option Coord := do
  let c ← onlyIf m.srcScramble stageA c
  let c ← onlyIf m.gateScramble stageB c
  let c ← onlyIf m.srcInterleave (stageC m.firstOdd) c
  let c ← onlyIf (m.mirrorLeft || m.mirrorRight) (stageD m.mirrorLeft m.mirrorRight) c
  let c ← onlyIf m.srcReverse stageE c
  let c ← onlyIf m.srcStart stageF c
  onlyIf m.gateReverse stageG c

/-- The final offset (R219). -/
def Coord.phys (c : Coord) : Nat := c.g * c.ss + c.s

/-- SCR.IDX's function (R210): the coordinates after the last enabled stage; `none` is ERR_PARAM. -/
def scramble (mode gate source gateCount sourceCount : Half) : Option Coord :=
  if scrPrecheck mode gate source gateCount sourceCount then
    scrStages (ScrMode.ofMask mode)
      { g := gate.toNat, s := source.toNat, gs := gateCount.toNat, ss := sourceCount.toNat }
  else none

/-- The scrambler port (R49): `ok`, `phys`, `new_gate_count`, `new_source_count`; all 0 when `ok` is. -/
def scrPort (mode gate source gateCount sourceCount : Half) : Bool × BitVec 32 × BitVec 17 × BitVec 17 :=
  match scramble mode gate source gateCount sourceCount with
  | none => (false, 0, 0, 0)
  | some c => (true, BitVec.ofNat 32 c.phys, BitVec.ofNat 17 c.gs, BitVec.ofNat 17 c.ss)

/-- SCR.IDX (R210). -/
def execScrIdx (mode gate source gateCount sourceCount : Half) (s : State) : Answer :=
  match scrPort mode gate source gateCount sourceCount with
  | (false, _) => raise .errParam (.index 0 0 0) s
  | (true, phys, newGateCount, newSourceCount) => finish (.index phys newGateCount newSourceCount) s

end Sys2Proof.Machine
end

