-- ==== Sys2Proof/Machine/Dispatch.lean ====
section
/-! DEFINITION. One arm per constructor of Instr, each one direct call of its meaning. -/

namespace Sys2Proof.Machine

def exec (i : Instr) (s : State) : Host.Outcome State Fault Refusal :=
  match i with
  | .cfgRd idx => Sys2Proof.Machine.execCfgRd idx s
  | .cfgWr idx val => Sys2Proof.Machine.execCfgWr idx val s
  | .lzssEnc => Sys2Proof.Machine.execLzssEnc s
  | .lzssDec => Sys2Proof.Machine.execLzssDec s
  | .crcInit => Sys2Proof.Machine.execCrcInit s
  | .crcUpd n bytes => Sys2Proof.Machine.execCrcUpd n bytes s
  | .crcChk w => Sys2Proof.Machine.execCrcChk w s
  | .frmSend cmd n p => Sys2Proof.Machine.execFrmSend cmd n p s
  | .frmRdreg addr => Sys2Proof.Machine.execFrmRdreg addr s
  | .frmWrreg addr val => Sys2Proof.Machine.execFrmWrreg addr val s
  | .frmBbeginC cmd => Sys2Proof.Machine.execFrmBbeginC cmd s
  | .frmBbeginR addr => Sys2Proof.Machine.execFrmBbeginR addr s
  | .frmBword w => Sys2Proof.Machine.execFrmBword w s
  | .frmBraw n bytes => Sys2Proof.Machine.execFrmBraw n bytes s
  | .frmBend => Sys2Proof.Machine.execFrmBend s
  | .frmWait t => Sys2Proof.Machine.execFrmWait t s
  | .scrIdx mode gate source gateCount sourceCount => Sys2Proof.Machine.execScrIdx mode gate source gateCount sourceCount s
  | .lit data => Sys2Proof.Machine.execLit data s
  | .match74 ref len => Sys2Proof.Machine.execMatch74 ref len s
  | .match104 ref len => Sys2Proof.Machine.execMatch104 ref len s

end Sys2Proof.Machine
end

