-- ==== Sys2Proof/Machine/Fetch.lean ====
section
/-! DEFINITION. What the CORE takes next: the host's next input (R7, R77). An operation presented is decoded; an
answer resumes the LZSS unit, whose decoder fetches the tokens of its stream this way (log 1, log 13). -/

namespace Sys2Proof.Machine

/-- What the next input asks for. -/
inductive Fetched where
  /-- An instruction to run in a state. -/
  | run (i : Instr) (s : State)
  /-- A state reached without one. -/
  | state (s : State)
  | fault (r : Fault)
  | refused (r : Refusal)
  deriving DecidableEq, Repr

/-- An operation presented (R90, R91), which the history records (R11; log 16): an illegal code completes with ERR_OP and
does nothing else (R105, R232); a string of bytes that is no whole operation is nothing the port carries (log 4). -/
def fetchOp (bytes : List Byte) (s : State) : Fetched :=
  match decodeOp bytes with
  | .ok (i, []) => .run i (s.emit (.presented i))
  | .ok (i, _ :: _) => .refused (.surplusOperands i)
  | .error (.illegalOp op) => .state (complete .errOp .none (s.emit (.presentedCode op)))
  | .error e => .refused (.notAnOperation e)

/-- The decoder has a token, or stands in a transaction: a token of a row of the table is that instruction; a MATCH
of another pair (EI, EJ) runs by the same operation (R140, R142; log 14). -/
def fetchToken : (Token × State) ⊕ State → Fetched
  | .inr s => .state s
  | .inl (token, s) =>
    match tokenInstr s.lzss.ei.toNat s.lzss.ej.toNat token, token with
    | some i, _ => .run i s
    | none, .lit c => .state (runLit c s)
    | none, .pair ref len => .state (runMatch ref len s)

/-- An answer on the `SRC` port. -/
def fetchSrc (a : SrcAnswer) (s : State) : Fetched :=
  match s.lzss.wait with
  | .encPull => .state (encOnSrc a (s.emit (.pulled a)))
  | .decPull bits => fetchToken (decOnSrc bits a (s.emit (.pulled a)))
  | .none | .encPush _ _ | .encFlush | .decPush _ _ _ => .fault .answerUnasked

/-- An answer on the `SNK` port. -/
def fetchSnk (a : SnkAnswer) (s : State) : Fetched :=
  match s.lzss.wait with
  | .encPush rest y => .state (encOnPush rest y a (s.emit (.pushed s.lzss.wbuf a)))
  | .encFlush => .state (encOnFlush a (s.emit (.pushed s.lzss.wbuf a)))
  | .decPush c src left => fetchToken (decOnPush c src left a (s.emit (.pushed c a)))
  | .none | .encPull | .decPull _ => .fault .answerUnasked

/-- The next input, taken off the host's list; while the host does nothing the CORE waits, idle or blocked in its
transaction (R249, R260, U18; log 2). -/
def fetchNext (s : State) : Fetched :=
  match s.env.host with
  | [] => .state s
  | input :: rest =>
    let t := { s with env := { s.env with host := rest } }
    match input with
    | .op bytes => fetchOp bytes t
    | .src a => fetchSrc a t
    | .snk a => fetchSnk a t
    | .reset => .state (resetEvent t)

/-- The host presents an operation before all it was going to do. -/
def presentOp (bytes : List Byte) (s : State) : State :=
  { s with env := { s.env with host := .op bytes :: s.env.host } }

/-- Set the decoder running inside a token of `k` bits under the pair (EI, EJ), its last eight bits in the byte the
source delivers next (log 13, log 17). -/
def presentToken (ei ej k w : Nat) (s : State) : State :=
  { s with
    lzss := { s.lzss with
      ei := BitVec.ofNat 4 ei
      ej := BitVec.ofNat 4 ej
      rmask := 0x00
      phase := .dec
      wait := .decPull ((natBits k w).take (k - 8)) }
    env := { s.env with host := .src (.byte (BitVec.ofNat 8 w)) :: s.env.host } }

/-- A table word where the next step fetches: an operation, with no byte beyond its operands, is presented on the
port; a token stands in the decoder's stream. -/
def presentWord (nbits w : Nat) (s : State) : State :=
  if nbits ≤ 8 then
    match decodeOp (tableBytes 8 w) with
    | .ok (_, rest) => presentOp ((tableBytes 8 w).take ((tableBytes 8 w).length - rest.length)) s
    | .error _ => presentOp (tableBytes 8 w) s
  else
    presentToken (tableToken nbits w).1 (tableToken nbits w).2.1 (tableToken nbits w).2.2 w s

end Sys2Proof.Machine
end

