-- ==== Sys2Proof/Machine/Stream.lean ====
section
/-! DEFINITION. The sequence-level meaning of the LZSS operations (R144; R94 to R99 and R142 for the decoder): what the
sink observes as a function of what the source delivers, with no ring, no cursor and no bit accumulator. -/

namespace Sys2Proof.Machine

/-! ## The parameters of a pair -/

/-- The search range `N - F` of the pair (EI, EJ) (R136). -/
def seqRange (ei ej : Nat) : Nat := 2 ^ ei - (2 ^ ej + Config.policy)

/-- `h[i]` of R144 at `i = q - range`: `FILL` before the first input byte, then the input. -/
def seqHistory (range : Nat) (x : List Byte) (q : Nat) : Byte :=
  if q < range then Config.fill else x.getD (q - range) 0

/-! ## Encoding -/

/-- `len(d)` of R144 at position `p`: the largest `j ≤ m` with `h[p - d + k] = h[p + k]` for all `k < j`. -/
def seqLen (range : Nat) (x : List Byte) (p m d : Nat) : Nat :=
  ((List.range m).takeWhile fun k =>
    seqHistory range x (range + p - d + k) == seqHistory range x (range + p + k)).length

/-- The largest `len(d)` over `d` in `1 .. N-F` (R144). -/
def seqBestLen (range : Nat) (x : List Byte) (p m : Nat) : Nat :=
  ((List.range' 1 range).map (seqLen range x p m)).foldl max 0

/-- The smallest `d` attaining it (R144). -/
def seqBestDist (range : Nat) (x : List Byte) (p m : Nat) : Nat :=
  ((List.range' 1 range).find? fun d => seqLen range x p m d == seqBestLen range x p m).getD 0

/-- The number written for backward distance `d` at position `p` (R144). -/
def seqRef (mode : RefMode) (ei ej p d : Nat) : Nat :=
  match mode with
  | .distance => d
  | .position => (seqRange ei ej + p - d) % 2 ^ ei

/-- The token at position `p < L` and the input bytes it covers (R144). -/
def seqToken (mode : RefMode) (ei ej : Nat) (x : List Byte) (p : Nat) : Token × Nat :=
  let range := seqRange ei ej
  let m := min (2 ^ ej + Config.policy) (x.length - p)
  if seqBestLen range x p m ≤ 1 then (.lit (x.getD p 0), 1)
  else (.pair (seqRef mode ei ej p (seqBestDist range x p m)) (seqBestLen range x p m - 2), seqBestLen range x p m)

/-- The token list from position `p` on (R144); `fuel` bounds the number of tokens. -/
def seqTokens (mode : RefMode) (ei ej : Nat) (x : List Byte) : Nat → Nat → List Token
  | 0, _ => []
  | fuel + 1, p =>
    if p < x.length then
      (seqToken mode ei ej x p).1 :: seqTokens mode ei ej x fuel (p + (seqToken mode ei ej x p).2)
    else []

/-- A bit string cut into bytes from its start, the last one padded with 0 bits (R95, R98). -/
def packBits (bits : List Bool) : List Byte :=
  (List.range ((bits.length + 7) / 8)).map fun i =>
    BitVec.ofNat 8 (bitsNat ((List.range 8).map fun j => bits.getD (8 * i + j) false))

/-- What LZSS.ENC pushes for the input `x` (R144). -/
def seqEncode (mode : RefMode) (ei ej : Nat) (x : List Byte) : List Byte :=
  packBits ((seqTokens mode ei ej x x.length 0).flatMap (Token.bits ei ej))

/-! ## Decoding -/

/-- The bit string of a byte sequence (R64). -/
def streamBits (z : List Byte) : List Bool := z.flatMap fun b => natBits 8 b.toNat

/-- The backward distance a `REF` means after `pos` output bytes (R96, R142); distance 0 is the byte `N` back. -/
def seqDistance (mode : RefMode) (ei ej pos ref : Nat) : Nat :=
  let d := match mode with
    | .distance => ref % 2 ^ ei
    | .position => (seqRange ei ej + pos + 2 ^ ei - ref % 2 ^ ei) % 2 ^ ei
  if d = 0 then 2 ^ ei else d

/-- Copy so many bytes from backward distance `d`, each appended before the next is read (R142); what was not output
yet reads `FILL`. -/
def seqCopy (d : Nat) : Nat → List Byte → List Byte
  | 0, out => out
  | k + 1, out => seqCopy d k (out ++ [if d ≤ out.length then out.getD (out.length - d) 0 else Config.fill])

/-- The output after one more token (R141, R142). -/
def seqApply (mode : RefMode) (ei ej : Nat) (out : List Byte) : Token → List Byte
  | .lit c => out ++ [c]
  | .pair ref len => seqCopy (seqDistance mode ei ej out.length ref) (len + 2) out

/-- Decode token after token; an incomplete one at the end is dropped (R143). -/
def seqDecodeBits (mode : RefMode) (ei ej : Nat) : Nat → List Bool → List Byte → List Byte
  | 0, _, out => out
  | fuel + 1, bits, out =>
    match decodeToken ei ej bits with
    | none => out
    | some (token, rest) => seqDecodeBits mode ei ej fuel rest (seqApply mode ei ej out token)

/-- What LZSS.DEC pushes for the stream `z` (R140 to R143). -/
def seqDecode (mode : RefMode) (ei ej : Nat) (z : List Byte) : List Byte :=
  seqDecodeBits mode ei ej (streamBits z).length (streamBits z) []

end Sys2Proof.Machine
end

