-- ==== Sys2Proof/Safety.lean ====
section
/-! DEFINITION. The terms claims are stated in: the invariant of the machine, the chip-select discipline of its event
history, and an environment that answers every transaction. -/

namespace Sys2Proof.Machine

/-! ## The invariant -/

/-- Exactly one bit set (R25, R26). -/
def oneHot (m : Byte) : Bool := (List.range 8).any fun k => m == 1#8 <<< k

/-- What the open transaction says of the LZSS unit (R23 to R27; log 12). -/
def Lzss.waitOk (l : Lzss) : Prop :=
  match l.wait with
  | .none => l.phase = .idle
  | .encPull => l.phase = .enc ∧ l.la < l.f ∧ l.eosf = false ∧ oneHot l.wmask = true
  | .encPush _ y => l.phase = .enc ∧ 1 ≤ y ∧ y ≤ l.la ∧ l.wmask = 0
  | .encFlush => l.phase = .enc ∧ l.la = 0 ∧ l.eosf = true ∧ oneHot l.wmask = true ∧ l.wmask ≠ 0x80
  | .decPull bits => l.phase = .dec ∧ l.rmask = 0 ∧ decodeToken l.ei.toNat l.ej.toNat bits = none
  | .decPush _ _ _ => l.phase = .dec

/-- The LZSS unit is as its rules say (R21 to R27): a legal pair, a canonical dictionary within `2^EI_MAX` entries,
and while an operation runs the cursor in the ring and the lookahead within `F`. -/
structure Lzss.Ok (l : Lzss) : Prop where
  pair : legalPair l.ei.toNat l.ej.toNat = true
  dict : l.dict.wf
  dictSize : ∀ c ∈ l.dict, c.1 < 2 ^ Config.eiMax
  cursor : l.phase ≠ .idle → l.r < l.n
  lookahead : l.phase ≠ .idle → l.la ≤ l.f
  mask : l.rmask = 0 ∨ oneHot l.rmask = true
  wait : l.waitOk

/-- The framer between operations (R30): chip-select follows the phase, the line stands at DATA. -/
structure Frm.Ok (f : Frm) : Prop where
  cs : f.cs = true ↔ f.phase = .burst
  dc : f.dc = .data

/-- The invariant of the machine. -/
structure State.Ok (s : State) : Prop where
  lzss : s.lzss.Ok
  frm : s.frm.Ok

/-! ## The event history -/

/-- Chip-select after one event, `none` where the discipline is broken: it is never asserted twice without a
deassert in between (R191), a byte is moved only while it is asserted and the ready line is sampled only while it is
not (R180, R189). -/
def csAfter (cs : Bool) : Event → Option Bool
  | .csAssert => if cs then none else some true
  | .csDeassert => some false
  | .tx _ | .rx _ => if cs then some cs else none
  | .hrdy _ => if cs then none else some cs
  | .dcCmd | .dcData | .pull | .pulled _ | .push _ | .pushed _ _ | .presented _ | .presentedCode _ | .done _ _ => some cs

/-- Chip-select after a list of events. -/
def csThrough (cs : Bool) : List Event → Option Bool
  | [] => some cs
  | e :: rest =>
    match csAfter cs e with
    | none => none
    | some cs' => csThrough cs' rest

/-- The bytes the sink accepted in a list of events. -/
def sunk (events : List Event) : List Byte :=
  events.filterMap fun e =>
    match e with
    | .pushed b .ok => some b
    | _ => none

/-- How many pulls a list of events holds. -/
def pulls (events : List Event) : Nat := events.countP fun e => e == .pull

/-- Is the event one of the transport's (R49)? -/
def onTransport : Event → Bool
  | .csAssert | .csDeassert | .dcCmd | .dcData | .tx _ | .rx _ | .hrdy _ => true
  | .pull | .pulled _ | .push _ | .pushed _ _ | .presented _ | .presentedCode _ | .done _ _ => false

/-! ## The controller's draws -/

/-- The byte the controller will supply to the `i`-th `RX` from now on (R7, U7): scripted, then free (log 6). -/
def Env.drawn (e : Env) (i : Nat) : Byte :=
  if i < e.rx.length then e.rx.getD i 0 else Config.freeRx (e.draws + (i - e.rx.length))

/-- The environment after `n` bytes have been received, with the events `ev` since. -/
def Env.afterRx (e : Env) (n : Nat) (ev : List Event) : Env :=
  { e with rx := e.rx.drop n, draws := e.draws + (n - e.rx.length), trace := e.trace ++ ev }

/-! ## An environment that answers -/

/-- The host does this next, before all else it was going to do. -/
def State.withInput (s : State) (input : HostInput) : State :=
  { s with env := { s.env with host := input :: s.env.host } }

/-- The answer of an environment whose source holds `src` and whose sink never fails, and the source it has left. -/
def answerFor (src : List Byte) : LzssWait → Option (HostInput × List Byte)
  | .none => none
  | .encPull | .decPull _ =>
    match src with
    | [] => some (.src .eos, [])
    | b :: rest => some (.src (.byte b), rest)
  | .encPush _ _ | .encFlush | .decPush _ _ _ => some (.snk .ok, src)

/-- Up to so many steps in that environment, with no nested operation; it stops when no transaction is open. -/
def serve : Nat → List Byte → State → Host.Outcome State Fault Refusal
  | 0, _, s => .next s
  | k + 1, src, s =>
    match answerFor src s.lzss.wait with
    | none => .next s
    | some (input, src') =>
      match step (s.withInput input) with
      | .next t => serve k src' t
      | .fault r => .fault r
      | .refused r => .refused r

/-- The sink answers `OK` so many times, nothing else happening in between. -/
def sinkOk : Nat → State → Host.Outcome State Fault Refusal
  | 0, s => .next s
  | k + 1, s =>
    match step (s.withInput (.snk .ok)) with
    | .next t => sinkOk k t
    | .fault r => .fault r
    | .refused r => .refused r

/-- Instructions run one after the other. -/
def execAll : List Instr → State → Host.Outcome State Fault Refusal
  | [], s => .next s
  | i :: rest, s =>
    match exec i s with
    | .next t => execAll rest t
    | .fault r => .fault r
    | .refused r => .refused r

/-! ## What an operation leaves -/

/-- The state in which an operation has ended and nothing but its completion has happened. -/
def State.ended (s : State) (st : Status) (res : Result) : State :=
  { s with env := { s.env with trace := s.env.trace ++ [.done st res] } }

/-- The state with the framer as given and the events `ev` recorded, nothing else changed. -/
def State.framed (s : State) (f : Frm) (ev : List Event) : State :=
  { s with frm := f, env := { s.env with trace := s.env.trace ++ ev } }

/-- The state with the LZSS unit as given and the events `ev` recorded, nothing else changed. -/
def State.lzssAs (s : State) (l : Lzss) (ev : List Event) : State :=
  { s with lzss := l, env := { s.env with trace := s.env.trace ++ ev } }

/-- The events of a u16 on the transport: its byte of weight 256, then its byte of weight 1 (R62, R63). -/
def wordEvents (w : Half) : List Event :=
  [.tx (BitVec.ofNat 8 (w.toNat / 256)), .tx (BitVec.ofNat 8 (w.toNat % 256))]

/-- An event of the command/data line, there only when the controller has the line (R100, R180). -/
def lineEvent (f : Frm) (e : Event) : List Event := if f.hasDc then [e] else []

/-- The head of every frame (R100, R180). -/
def headEvents (f : Frm) (code : Half) : List Event :=
  [.csAssert] ++ lineEvent f .dcCmd ++ wordEvents code ++ lineEvent f .dcData

/-- The lines after a frame's head, with chip-select at `cs` (R180). -/
def Frm.lines (f : Frm) (cs : Bool) : Frm := { f with cs := cs, dc := if f.hasDc then .data else f.dc }

/-- The state after `k` polls (R190). -/
def polled : Nat → State → State
  | 0, s => s
  | k + 1, s => polled k (busy s).2

/-- The control registers by index, each the number its bit fields spell (R33 to R43). -/
def csrTable (s : State) : List (Nat × Nat) :=
  [(0x00, s.lzss.ei.toNat + 16 * s.lzss.ej.toNat),
   (0x01, match s.lzss.phase with | .idle => 0 | .enc => 1 | .dec => 2),
   (0x10, s.crc.acc.toNat),
   (0x20, s.frm.hasDc.toNat + 2 * s.frm.useHrdy.toNat),
   (0x21, s.frm.rdop.toNat), (0x22, s.frm.wrop.toNat), (0x23, s.frm.staddr.toNat),
   (0x24, s.frm.stmask.toNat), (0x25, s.frm.stexp.toNat),
   (0x26, (match s.frm.phase with | .idle => 0 | .burst => 1) + 2 * s.frm.cs.toNat
     + 4 * (match s.frm.dc with | .cmd => 0 | .data => 1))]

/-- One bit of the message into the CRC register (R170, bit-serial): the bit is compared with the one shifted out. -/
def crcBit (acc : Half) (bit : Bool) : Half :=
  if (acc.getLsbD 15 != bit) = true then (acc <<< 1) ^^^ 0x1021 else acc <<< 1

/-- The bytes a MATCH copies from index `src` on, so many, and the unit after storing each at the cursor before the
next is read (R142). -/
def ringCopy : Nat → Nat → Lzss → List Byte × Lzss
  | 0, _, l => ([], l)
  | k + 1, src, l =>
    (l.read src :: (ringCopy k (src + 1) (storeByte (l.read src) l)).1,
      (ringCopy k (src + 1) (storeByte (l.read src) l)).2)

/-- The bytes at distance `d` and at the cursor agree for `j` places (R136). -/
def agree (l : Lzss) (d j : Nat) : Prop := ∀ k < j, l.read (l.back d + k) = l.read (l.r + k)

end Sys2Proof.Machine
end

