-- ==== Sys2Proof/Certificates/Slice0/Obligations.lean ====
section
/-! DEFINITION. The statements about the model, for the provers. -/

open Sys2Proof Sys2Proof.Machine

/-! ## Encoding -/

/-- Decode and encode agree (R91, R94): the encoding of a well-formed instruction decodes to it; on the port, whatever
bytes follow are left over. -/
def Obligations.EncodedInstructionDecodesBack : Prop :=
  ∀ i : Instr, i.wellFormed = true →
    match encode i with
    | .port bytes => ∀ rest, decode (.port (bytes ++ rest)) = .ok (i, rest)
    | .stream ei ej bits => decode (.stream ei ej bits) = .ok (i, [])

/-- What decodes as an operation is that operation's encoding and what follows it, and the operation is well formed
(R91, R93): no second spelling, no byte read twice or dropped. -/
def Obligations.DecodedBytesAreTheEncoding : Prop :=
  ∀ (bytes : List Byte) (i : Instr) (rest : List Byte), decodeOp bytes = .ok (i, rest) →
    i.wellFormed = true ∧ ∃ head, encode i = .port head ∧ bytes = head ++ rest

/-- The token formats under every pair (EI, EJ) (R94, R95, R99): a token's bits read back as the token, leaving the
bits after it, and every proper part of them from the front is incomplete. -/
def Obligations.TokenBitsDecodeBack : Prop :=
  ∀ (ei ej : Nat) (token : Token),
    (match token with
      | .lit _ => True
      | .pair ref len => ref < 2 ^ ei ∧ len < 2 ^ ej) →
    (∀ rest, decodeToken ei ej (token.bits ei ej ++ rest) = some (token, rest)) ∧
    (∀ k < (token.bits ei ej).length, decodeToken ei ej ((token.bits ei ej).take k) = none)

/-- Words written out from R91 and R94 decode to the instructions they stand for. That the operands of an operation
stand most significant byte first on the port is the model's choice (log 3). -/
def Obligations.SpecWordsDecode : Prop :=
  decode (.port [0x00, 0x10]) = .ok (.cfgRd 0x10, []) ∧
  decode (.port [0x01, 0x22, 0x00, 0x11]) = .ok (.cfgWr 0x22 0x0011, []) ∧
  decode (.port [0x11]) = .ok (.lzssDec, []) ∧
  decode (.port [0x21, 0x00, 0x00, 0x00, 0x02, 0x80, 0xC0]) = .ok (.crcUpd 2 [0x80, 0xC0], []) ∧
  decode (.port [0x30, 0x12, 0x34, 0x02, 0x00, 0xAB, 0xCD, 0xEF]) = .ok (.frmSend 0x1234 2 [0x00AB, 0xCDEF], []) ∧
  decode (.port [0x38, 0x00, 0x01, 0x86, 0xA0]) = .ok (.frmWait 100000, []) ∧
  decode (.port [0x40, 0x00, 0x01, 0x00, 0x01, 0x00, 0x02, 0x00, 0x04, 0x00, 0x08]) = .ok (.scrIdx 1 1 2 4 8, []) ∧
  decode (.stream 7 4 [true, true, false, true, false, true, false, true, false]) = .ok (.lit 0xAA, []) ∧
  decode (.stream 7 4 [false, false, false, false, false, false, false, true, false, false, false, true])
    = .ok (.match74 1 1, [])

/-- R105, R232: each of the 239 codes that are not among the seventeen of R91 completes with ERR_OP and result 0,
whatever follows it; nothing else happens. That the history records the presentation and the completion, and writes
result 0 as none, is the model's choice (log 16, log 22). -/
def Obligations.IllegalOperationCodes : Prop :=
  (∀ (s : State) (op : Byte) (operands : List Byte) (rest : List HostInput),
    op.toNat ∉ [0x00, 0x01, 0x10, 0x11, 0x20, 0x21, 0x22, 0x30, 0x31, 0x32, 0x33, 0x34, 0x35, 0x36, 0x37, 0x38, 0x40] →
    s.env.host = .op (op :: operands) :: rest →
    step s = .next { s with env := { s.env with
      host := rest, trace := s.env.trace ++ [.presentedCode op, .done .errOp .none] } }) ∧
  ((List.range 256).filter fun k => (Op.ofCode (BitVec.ofNat 8 k)).isNone).length = 239

/-! ## Steps -/

/-- A step runs the operation that is presented whole at the head of what the host does; the presentation is taken
off and recorded in the history (R7, R11, R91; log 16). -/
def Obligations.StepRunsPresentedOperation : Prop :=
  ∀ (s : State) (bytes : List Byte) (rest : List HostInput) (i : Instr),
    s.env.host = .op bytes :: rest → decodeOp bytes = .ok (i, []) →
    step s = exec i { s with env := { s.env with host := rest, trace := s.env.trace ++ [.presented i] } }

/-- A step in a blocked decoder whose source delivers the byte that completes a token runs that token (R99, R133,
R140): as an instruction where it has a row in the opcode table, by the same operation where its pair has none (log
14). The unread bits of the byte stay held. -/
def Obligations.StepRunsFetchedToken : Prop :=
  ∀ (s : State) (bits : List Bool) (b : Byte) (rest : List HostInput) (k : Nat) (token : Token),
    s.env.host = .src (.byte b) :: rest → s.lzss.wait = .decPull bits → k ≤ 8 → 1 ≤ k →
    decodeToken s.lzss.ei.toNat s.lzss.ej.toNat (bits ++ (natBits 8 b.toNat).take k) = some (token, []) →
    let t : State := { s with
      lzss := { s.lzss with rbuf := b, rmask := 0x80#8 >>> k }
      env := { s.env with host := rest, trace := s.env.trace ++ [.pulled (.byte b)] } }
    (∀ i, tokenInstr s.lzss.ei.toNat s.lzss.ej.toNat token = some i → step s = exec i t) ∧
    (∀ ref len, token = .pair ref len → tokenInstr s.lzss.ei.toNat s.lzss.ej.toNat token = none →
      step s = .next (runMatch ref len t))

/-- While the host does nothing the CORE waits (R260, R249; that a wait is a step that changes nothing is the model's
choice, log 2). -/
def Obligations.WaitingChangesNothing : Prop :=
  ∀ s : State, s.env.host = [] → step s = .next s

/-- Every input the spec calls legal is answered by a next state: a whole operation, an illegal code, an answer to the
open transaction, a reset, or none (R7, R77, R105, R260). -/
def Obligations.LegalInputsAnswered : Prop :=
  ∀ s : State,
    (match s.env.host with
      | [] => True
      | .op bytes :: _ => (∃ i, decodeOp bytes = .ok (i, [])) ∨ (∃ op, decodeOp bytes = .error (.illegalOp op))
      | .src _ :: _ => s.lzss.wait = .encPull ∨ ∃ bits, s.lzss.wait = .decPull bits
      | .snk _ :: _ => s.lzss.wait = .encFlush ∨ (∃ rest y, s.lzss.wait = .encPush rest y) ∨
          ∃ c src left, s.lzss.wait = .decPush c src left
      | .reset :: _ => True) →
    ∃ t, step s = .next t

/-! ## Reset -/

/-- The values R51 gives at reset, in the state and in the control registers (R33). The working registers of the LZSS
unit, which R51 leaves unspecified, are not spoken of. -/
def Obligations.ResetValues : Prop :=
  State.reset.lzss.ei = 7 ∧ State.reset.lzss.ej = 4 ∧ State.reset.lzss.phase = .idle ∧
  State.reset.crc.acc = 0xFFFF ∧
  State.reset.frm.cs = false ∧ State.reset.frm.dc = .data ∧ State.reset.frm.phase = .idle ∧
  State.reset.frm.hasDc = true ∧ State.reset.frm.useHrdy = false ∧
  State.reset.frm.rdop = 0x0000 ∧ State.reset.frm.wrop = 0x0000 ∧ State.reset.frm.staddr = 0x0000 ∧
  State.reset.frm.stmask = 0x0000 ∧ State.reset.frm.stexp = 0xFFFF ∧
  Csr.all.map (readCsr State.reset) =
    [0x0047, 0x0000, 0xFFFF, 0x0001, 0x0000, 0x0000, 0x0000, 0x0000, 0xFFFF, 0x0004]

/-- A reset event, whatever state it finds (R260, R261): every element the spec gives a value has its reset value and
no operation runs, no status is returned, the lines' events are recorded, and the environment and the parameter REF_MODE
are as before. That `DC=D` is recorded by the value HAS_DC had is the model's choice (log 15). -/
def Obligations.ResetEventRestoresReset : Prop :=
  ∀ (s : State) (rest : List HostInput), s.env.host = .reset :: rest →
    ∃ t, step s = .next t ∧
      t.lzss.ei = 7 ∧ t.lzss.ej = 4 ∧ t.lzss.phase = .idle ∧ t.lzss.wait = .none ∧ t.crc.acc = 0xFFFF ∧
      t.frm = { cs := false, dc := .data, phase := .idle, hasDc := true, useHrdy := false, rdop := 0, wrop := 0,
                staddr := 0, stmask := 0, stexp := 0xFFFF } ∧
      t.refMode = s.refMode ∧
      t.env = { s.env with host := rest, trace := s.env.trace ++ ([.csDeassert] ++ lineEvent s.frm .dcData) }

/-! ## Configuration -/

/-- CFG.RD (R120): in every state, the number the register's fields spell; ERR_PARAM and 0 for an index that does not
exist; nothing else changes. -/
def Obligations.ControlRegisterRead : Prop :=
  ∀ (s : State) (idx : Byte),
    exec (.cfgRd idx) s = .next
      (match (csrTable s).lookup idx.toNat with
        | some v => s.ended .ok (.value (BitVec.ofNat 16 v))
        | none => s.ended .errParam (.value 0))

/-- CFG.WR (R121): its checks in their order, the fields it writes, and nothing else. -/
def Obligations.ControlRegisterWrite : Prop :=
  ∀ (s : State) (idx : Byte) (val : Half),
    exec (.cfgWr idx val) s = .next
      (let i := idx.toNat
       let v := val.toNat
       let ei := v % 16
       let ej := v / 16 % 16
       if i ∉ [0x00, 0x01, 0x10, 0x20, 0x21, 0x22, 0x23, 0x24, 0x25, 0x26] then s.ended .errParam .none
       else if i ∈ [0x01, 0x10, 0x26] then s.ended .errParam .none
       else if i = 0x00 ∧ s.lzss.phase ≠ .idle then s.ended .errState .none
       else if 0x20 ≤ i ∧ i ≤ 0x25 ∧ s.frm.phase ≠ .idle then s.ended .errState .none
       else if i = 0x00 then
         if v / 256 ≠ 0 ∨ ej < 1 ∨ ei ≤ ej ∨ Config.eiMax < ei ∨ ei + ej < 7 then s.ended .errParam .none
         else State.ended { s with lzss := { s.lzss with ei := BitVec.ofNat 4 ei, ej := BitVec.ofNat 4 ej } } .ok .none
       else if i = 0x20 then
         if v / 4 ≠ 0 then s.ended .errParam .none
         else State.ended { s with frm := { s.frm with
           hasDc := decide (v % 2 = 1), useHrdy := decide (v / 2 % 2 = 1) } } .ok .none
       else if i = 0x21 then State.ended { s with frm := { s.frm with rdop := val } } .ok .none
       else if i = 0x22 then State.ended { s with frm := { s.frm with wrop := val } } .ok .none
       else if i = 0x23 then State.ended { s with frm := { s.frm with staddr := val } } .ok .none
       else if i = 0x24 then State.ended { s with frm := { s.frm with stmask := val } } .ok .none
       else State.ended { s with frm := { s.frm with stexp := val } } .ok .none)

/-- A value a CFG.WR was accepted with is what CFG.RD of the same register returns next (R34, R37 to R42, R80). -/
def Obligations.WrittenValueReadsBack : Prop :=
  ∀ (s t : State) (idx : Byte) (val : Half),
    exec (.cfgWr idx val) s = .next t → t.env.trace = s.env.trace ++ [.done .ok .none] →
    exec (.cfgRd idx) t = .next (t.ended .ok (.value val))

/-! ## CRC -/

/-- CRC.INIT and CRC.CHK (R171, R173), in every state: what they write, what they answer, and that nothing else
changes. -/
def Obligations.CrcInitAndCheck : Prop :=
  ∀ s : State,
    exec .crcInit s = .next (State.ended { s with crc := { acc := 0xFFFF } } .ok .none) ∧
    ∀ w : Half, exec (.crcChk w) s = .next (if s.crc.acc = w then s.ended .ok .none else s.ended .errCrc .none)

/-- CRC.UPD (R170, R172), in every state: the accumulator takes the bits of the bytes, most significant first, one at
a time through the generator 0x1021; nothing else changes. -/
def Obligations.CrcUpdateIsBitSerial : Prop :=
  ∀ (s : State) (n : BitVec 32) (bytes : List Byte), bytes.length = n.toNat →
    exec (.crcUpd n bytes) s =
      .next (State.ended { s with crc := { acc := (streamBits bytes).foldl crcBit s.crc.acc } } .ok .none)

/-- Splitting a stream over two CRC.UPD operations gives the same accumulator as one over the whole (R172). -/
def Obligations.CrcUpdateSplits : Prop :=
  ∀ (s : State) (n m k : BitVec 32) (a b : List Byte),
    a.length = n.toNat → b.length = m.toNat → (a ++ b).length = k.toNat →
    ∃ t u, execAll [.crcUpd n a, .crcUpd m b] s = .next t ∧ exec (.crcUpd k (a ++ b)) s = .next u ∧ t.crc = u.crc

/-- R174 (3): summing the two bytes of the running CRC itself, high byte first, leaves 0x0000. -/
def Obligations.CrcResidueIsZero : Prop :=
  ∀ s : State, ∃ t, exec (.crcUpd 2 [hi s.crc.acc, lo s.crc.acc]) s = .next t ∧ t.crc.acc = 0x0000

/-- R174 (4): changing one byte of a sequence changes its CRC, so CRC.CHK of the old one fails. -/
def Obligations.CrcDetectsByteChange : Prop :=
  ∀ (s : State) (n : BitVec 32) (p q : List Byte) (b b' : Byte), b ≠ b' → (p ++ b :: q).length = n.toNat →
    ∃ t u, exec (.crcUpd n (p ++ b :: q)) s = .next t ∧ exec (.crcUpd n (p ++ b' :: q)) s = .next u ∧
      t.crc.acc ≠ u.crc.acc ∧ exec (.crcChk t.crc.acc) u = .next (u.ended .errCrc .none)

/-- R174 (2): from reset, the nine bytes "123456789" give 0x29B1. -/
def Obligations.CrcCheckValue : Prop :=
  ∃ t, exec (.crcUpd 9 [0x31, 0x32, 0x33, 0x34, 0x35, 0x36, 0x37, 0x38, 0x39]) State.reset = .next t ∧
    t.crc.acc = 0x29B1

/-! ## The framer -/

/-- FRM.SEND (R181, R100): refused in a burst, then refused with more than five parameters, else one whole frame. -/
def Obligations.FrmSendFrame : Prop :=
  ∀ (s : State) (cmd : Half) (n : Byte) (p : List Half), p.length = n.toNat →
    exec (.frmSend cmd n p) s = .next
      (if s.frm.phase = .burst then s.ended .errState .none
       else if 5 < n.toNat then s.ended .errParam .none
       else s.framed (s.frm.lines false)
         (headEvents s.frm cmd ++ p.flatMap wordEvents ++ [.csDeassert, .done .ok .none]))

/-- FRM.RDREG (R182, R101): refused in a burst, else one read frame with four received bytes, of which the last two,
high byte first, are the value, whatever the first two are; exactly four draws are taken. -/
def Obligations.FrmReadFrame : Prop :=
  ∀ (s : State) (addr : Half),
    exec (.frmRdreg addr) s = .next
      (if s.frm.phase = .burst then s.ended .errState (.value 0)
       else { s with
         frm := s.frm.lines false
         env := s.env.afterRx 4 (headEvents s.frm s.frm.rdop ++ wordEvents addr ++
           [.rx (s.env.drawn 0), .rx (s.env.drawn 1), .rx (s.env.drawn 2), .rx (s.env.drawn 3), .csDeassert,
            .done .ok (.value (BitVec.ofNat 16 (256 * (s.env.drawn 2).toNat + (s.env.drawn 3).toNat)))]) })

/-- FRM.WRREG (R183, R102): refused in a burst, else one write frame. -/
def Obligations.FrmWriteFrame : Prop :=
  ∀ (s : State) (addr val : Half),
    exec (.frmWrreg addr val) s = .next
      (if s.frm.phase = .burst then s.ended .errState .none
       else s.framed (s.frm.lines false)
         (headEvents s.frm s.frm.wrop ++ wordEvents addr ++ wordEvents val ++ [.csDeassert, .done .ok .none]))

/-- FRM.BBEGIN.C and FRM.BBEGIN.R (R184, R185): refused in a burst, else the head of a frame that stays open. -/
def Obligations.FrmBurstOpens : Prop :=
  ∀ (s : State) (cmd addr : Half),
    exec (.frmBbeginC cmd) s = .next
      (if s.frm.phase = .burst then s.ended .errState .none
       else s.framed { s.frm.lines true with phase := .burst } (headEvents s.frm cmd ++ [.done .ok .none])) ∧
    exec (.frmBbeginR addr) s = .next
      (if s.frm.phase = .burst then s.ended .errState .none
       else s.framed { s.frm.lines true with phase := .burst }
         (headEvents s.frm s.frm.wrop ++ wordEvents addr ++ [.done .ok .none]))

/-- FRM.BWORD, FRM.BRAW and FRM.BEND (R186, R187, R188): refused with no burst open, else a word high byte first, the
bytes verbatim, the close. -/
def Obligations.FrmBurstMovesAndCloses : Prop :=
  ∀ (s : State) (w : Half) (n : BitVec 32) (bytes : List Byte), bytes.length = n.toNat →
    exec (.frmBword w) s = .next
      (if s.frm.phase = .idle then s.ended .errState .none
       else s.framed s.frm (wordEvents w ++ [.done .ok .none])) ∧
    exec (.frmBraw n bytes) s = .next
      (if s.frm.phase = .idle then s.ended .errState .none
       else s.framed s.frm (bytes.map Event.tx ++ [.done .ok .none])) ∧
    exec .frmBend s = .next
      (if s.frm.phase = .idle then s.ended .errState .none
       else s.framed { s.frm with cs := false, phase := .idle } [.csDeassert, .done .ok .none])

/-- A command burst is the frame of FRM.SEND held open (R103): begin, one FRM.BWORD for each parameter, and end put
the same events on the transport as one FRM.SEND and leave the framer as it does. -/
def Obligations.BurstFrameIsSendFrame : Prop :=
  ∀ (s : State) (cmd : Half) (n : Byte) (p : List Half),
    s.frm.phase = .idle → p.length = n.toNat → n.toNat ≤ 5 →
    ∃ t u et eu, execAll ([.frmBbeginC cmd] ++ p.map Instr.frmBword ++ [.frmBend]) s = .next t ∧
      exec (.frmSend cmd n p) s = .next u ∧
      t.env.trace = s.env.trace ++ et ∧ u.env.trace = s.env.trace ++ eu ∧
      et.filter onTransport = eu.filter onTransport ∧ t.frm = u.frm

/-- One poll (R190): under the ready-line policy a sample of the line and busy when it is not asserted; under the
status policy exactly what FRM.RDREG of FRM_STADDR does, and busy when the masked value differs from the expected. -/
def Obligations.BusyPoll : Prop :=
  ∀ s : State, s.frm.phase = .idle →
    (s.frm.useHrdy = true →
      ∃ h t, busy s = (!h, t) ∧ t.frm = s.frm ∧ t.lzss = s.lzss ∧ t.crc = s.crc ∧ t.env.rx = s.env.rx ∧
        t.env.host = s.env.host ∧ t.env.trace = s.env.trace ++ [.hrdy h] ∧
        (∀ r rest, s.env.hrdy = r :: rest → h = r ∧ t.env.hrdy = rest)) ∧
    (s.frm.useHrdy = false →
      ∃ v t, exec (.frmRdreg s.frm.staddr) s = .next (t.ended .ok (.value v)) ∧
        busy s = (decide (v &&& s.frm.stmask ≠ s.frm.stexp), t))

/-- FRM.WAIT (R189): refused in a burst; otherwise it polls until the first idle poll and ends OK, or makes all `t`
polls, each busy, and ends with ERR_TIMEOUT, at once when `t` is 0; between polls the frame of a poll is closed. -/
def Obligations.FrmWaitPolls : Prop :=
  ∀ (s : State) (t : BitVec 32),
    (s.frm.phase = .burst → exec (.frmWait t) s = .next (s.ended .errState .none)) ∧
    (s.frm.phase = .idle →
      (∀ k < t.toNat, (∀ j < k, (busy (polled j s)).1 = true) → (busy (polled k s)).1 = false →
        exec (.frmWait t) s = .next ((polled (k + 1) s).ended .ok .none)) ∧
      ((∀ j < t.toNat, (busy (polled j s)).1 = true) →
        exec (.frmWait t) s = .next ((polled t.toNat s).ended .errTimeout .none)) ∧
      (s.frm.cs = false → ∀ k, (polled k s).frm.cs = false ∧ (polled k s).frm.phase = .idle))

/-- An expected value with a bit outside the mask looks busy for ever (R42, R190), so FRM.WAIT ends with ERR_TIMEOUT
after `t` polls, the framer idle and chip-select deasserted (R235), whatever the controller answers; the reset
configuration is of this kind. -/
def Obligations.UnmatchablePolicyTimesOut : Prop :=
  ∀ (s : State) (t : BitVec 32) (j : Nat),
    s.frm.Ok → s.frm.phase = .idle → s.frm.useHrdy = false →
    s.frm.stexp.getLsbD j = true → s.frm.stmask.getLsbD j = false →
    ∃ u : State, exec (.frmWait t) s = .next (u.ended .errTimeout .none) ∧ u.frm = s.frm ∧
      u.lzss = s.lzss ∧ u.crc = s.crc ∧ u.env.hrdy = s.env.hrdy ∧ u.env.rx = s.env.rx.drop (4 * t.toNat)

/-! ## The scrambler -/

/-- SCR.IDX ends OK exactly on the inputs R211 calls valid with the parities R222 collects, and otherwise with
ERR_PARAM and results 0; either way nothing but its completion happens (R32, R210). -/
def Obligations.ScrAcceptsExactly : Prop :=
  ∀ (st : State) (mode gate source gateCount sourceCount : Half),
    let m := ScrMode.ofMask mode
    let s1 := if m.srcScramble then 2 * sourceCount.toNat else sourceCount.toNat
    let s2 := if m.gateScramble then s1 / 2 else s1
    let accepted := mode.toNat < 512 ∧ 1 ≤ gateCount.toNat ∧ 1 ≤ sourceCount.toNat ∧
      gate.toNat < gateCount.toNat ∧ source.toNat < sourceCount.toNat ∧
      (m.srcScramble = true → 2 ∣ gateCount.toNat) ∧ (m.gateScramble = true → 2 ∣ s1) ∧
      ((m.srcInterleave || m.mirrorLeft || m.mirrorRight || m.srcStart) = true → 2 ∣ s2)
    (accepted → ∃ phys g s, exec (.scrIdx mode gate source gateCount sourceCount) st
      = .next (st.ended .ok (.index phys g s))) ∧
    (¬ accepted → exec (.scrIdx mode gate source gateCount sourceCount) st
      = .next (st.ended .errParam (.index 0 0 0)))

/-- The new counts (R212, R213, R220): only the two scramble stages change them, by halving one and doubling the
other; their product is that of the input counts, and the physical index is below it. -/
def Obligations.ScrCountsAndRange : Prop :=
  ∀ (st : State) (mode gate source gateCount sourceCount : Half) (phys : BitVec 32) (g s : BitVec 17),
    exec (.scrIdx mode gate source gateCount sourceCount) st = .next (st.ended .ok (.index phys g s)) →
    let m := ScrMode.ofMask mode
    g.toNat = (if m.gateScramble then 2 else 1) * (if m.srcScramble then gateCount.toNat / 2 else gateCount.toNat) ∧
    g.toNat * s.toNat = gateCount.toNat * sourceCount.toNat ∧
    phys.toNat < g.toNat * s.toNat

/-- Mode 0 is the identity (R221 (1)): `phys = gate * source_count + source`, counts unchanged. -/
def Obligations.ScrIdentityAtModeZero : Prop :=
  ∀ (st : State) (gate source gateCount sourceCount : Half),
    gate.toNat < gateCount.toNat → source.toNat < sourceCount.toNat →
    ∃ phys g s, exec (.scrIdx 0 gate source gateCount sourceCount) st = .next (st.ended .ok (.index phys g s)) ∧
      phys.toNat = gate.toNat * sourceCount.toNat + source.toNat ∧
      g.toNat = gateCount.toNat ∧ s.toNat = sourceCount.toNat

/-- Each stage alone, through the operation (R212 to R219): with one mode bit set, the physical index is the row-major
offset of the coordinates the stage's formula gives. FIRST_ODD alone does nothing. -/
def Obligations.ScrSingleStages : Prop :=
  ∀ (st : State) (mode gate source gateCount sourceCount : Half) (phys : BitVec 32) (g s : BitVec 17),
    exec (.scrIdx mode gate source gateCount sourceCount) st = .next (st.ended .ok (.index phys g s)) →
    let x := gate.toNat
    let y := source.toNat
    let gs := gateCount.toNat
    let ss := sourceCount.toNat
    let h := ss / 2
    (mode = 0x001 → phys.toNat = x / 2 * (2 * ss) + (2 * y + x % 2)) ∧
    (mode = 0x002 → phys.toNat = (2 * x + y % 2) * h + y / 2) ∧
    (mode = 0x004 → phys.toNat = x * ss + y) ∧
    (mode = 0x008 → phys.toNat = x * ss + (if y % 2 = 0 then y / 2 else y / 2 + h)) ∧
    (mode = 0x00C → phys.toNat = x * ss + (if y % 2 = 0 then y / 2 + h else y / 2)) ∧
    (mode = 0x010 → phys.toNat = x * ss + (if y < h then h - 1 - y else y)) ∧
    (mode = 0x020 → phys.toNat = x * ss + (if y < h then y else 3 * h - 1 - y)) ∧
    (mode = 0x040 → phys.toNat = x * ss + (ss - 1 - y)) ∧
    (mode = 0x080 → phys.toNat = (gs - 1 - x) * ss + y) ∧
    (mode = 0x100 → phys.toNat = x * ss + (y + h) % ss)

/-- The stages in their fixed order (R210, R212 to R219; the formulas of the first four are the spec's own, D29, D31,
D39), for every mode: from an accepted input, source scramble, gate
scramble, source interleave, half mirrors, source reversal, source start, gate reversal, each where its bit is set and
at the counts the stages before it left, then the row-major offset. -/
def Obligations.ScrComposesStages : Prop :=
  ∀ (st : State) (mode gate source gateCount sourceCount : Half) (phys : BitVec 32) (g s : BitVec 17),
    exec (.scrIdx mode gate source gateCount sourceCount) st = .next (st.ended .ok (.index phys g s)) →
    let bit := fun k => mode.toNat / 2 ^ k % 2 = 1
    let (x1, y1, gs1, ss1) := if bit 0
      then (gate.toNat / 2, 2 * source.toNat + gate.toNat % 2, gateCount.toNat / 2, 2 * sourceCount.toNat)
      else (gate.toNat, source.toNat, gateCount.toNat, sourceCount.toNat)
    let (x2, y2, gs2, ss2) := if bit 1 then (2 * x1 + y1 % 2, y1 / 2, 2 * gs1, ss1 / 2) else (x1, y1, gs1, ss1)
    let h := ss2 / 2
    let y3 := if bit 3 then (if (y2 % 2 = 1 ↔ bit 2) then y2 / 2 else y2 / 2 + h) else y2
    let y4 := if bit 4 ∧ y3 < h then h - 1 - y3 else if bit 5 ∧ h ≤ y3 then 3 * h - 1 - y3 else y3
    let y5 := if bit 6 then ss2 - 1 - y4 else y4
    let y6 := if bit 8 then (y5 + h) % ss2 else y5
    let x7 := if bit 7 then gs2 - 1 - x2 else x2
    phys.toNat = x7 * ss2 + y6 ∧ g.toNat = gs2 ∧ s.toNat = ss2

/-- Both scramble bits together cancel (R213): the result is that of the mode without them, whenever that mode's
result exists and the gate count is even. -/
def Obligations.ScrScramblesCancel : Prop :=
  ∀ (st : State) (mode gate source gateCount sourceCount : Half) (res : Result),
    mode.getLsbD 0 = false → mode.getLsbD 1 = false → 2 ∣ gateCount.toNat →
    exec (.scrIdx mode gate source gateCount sourceCount) st = .next (st.ended .ok res) →
    exec (.scrIdx (mode ||| 3) gate source gateCount sourceCount) st = .next (st.ended .ok res)

/-- Bijection (R221 (2), (3)): where one pair is accepted, every valid pair is; two pairs never share a physical
index; and every index below the product of the counts is some pair's. -/
def Obligations.ScrBijection : Prop :=
  ∀ (st : State) (mode gateCount sourceCount gate0 source0 : Half) (res0 : Result),
    exec (.scrIdx mode gate0 source0 gateCount sourceCount) st = .next (st.ended .ok res0) →
    (∀ gate source : Half, gate.toNat < gateCount.toNat → source.toNat < sourceCount.toNat →
      ∃ phys g s, exec (.scrIdx mode gate source gateCount sourceCount) st = .next (st.ended .ok (.index phys g s))) ∧
    (∀ (x y x' y' : Half) (phys : BitVec 32) (g s g' s' : BitVec 17),
      exec (.scrIdx mode x y gateCount sourceCount) st = .next (st.ended .ok (.index phys g s)) →
      exec (.scrIdx mode x' y' gateCount sourceCount) st = .next (st.ended .ok (.index phys g' s')) →
      x = x' ∧ y = y') ∧
    (∀ k < gateCount.toNat * sourceCount.toNat, ∃ (x y : Half) (phys : BitVec 32) (g s : BitVec 17),
      exec (.scrIdx mode x y gateCount sourceCount) st = .next (st.ended .ok (.index phys g s)) ∧ phys.toNat = k)

/-! ## LZSS -/

/-- LZSS.ENC and LZSS.DEC from an idle unit (R130, R134, R140): the unit is started, every used entry of the
dictionary reads FILL and the others are untouched, and the first pull is open; nothing else changes. -/
def Obligations.LzssOperationsStart : Prop :=
  ∀ s : State, s.lzss.phase = .idle →
    ∃ d : Memory, (∀ a, memRead d a = if a < 2 ^ s.lzss.ei.toNat then 0x20 else memRead s.lzss.dict a) ∧
      exec .lzssEnc s = .next { s with
        lzss := { ei := s.lzss.ei, ej := s.lzss.ej, dict := d, r := 2 ^ s.lzss.ei.toNat - (2 ^ s.lzss.ej.toNat + 1),
                  la := 0, eosf := false, wbuf := 0x00, wmask := 0x80, rbuf := 0x00, rmask := 0x00,
                  phase := .enc, wait := .encPull }
        env := { s.env with trace := s.env.trace ++ [.pull] } } ∧
      exec .lzssDec s = .next { s with
        lzss := { ei := s.lzss.ei, ej := s.lzss.ej, dict := d, r := 2 ^ s.lzss.ei.toNat - (2 ^ s.lzss.ej.toNat + 1),
                  la := 0, eosf := false, wbuf := 0x00, wmask := 0x80, rbuf := 0x00, rmask := 0x00,
                  phase := .dec, wait := .decPull [] }
        env := { s.env with trace := s.env.trace ++ [.pull] } }

/-- LZSS.ENC and LZSS.DEC while the unit is busy (R233): ERR_STATE and nothing else. -/
def Obligations.LzssBusyRefuses : Prop :=
  ∀ s : State, s.lzss.phase ≠ .idle →
    exec .lzssEnc s = .next (s.ended .errState .none) ∧ exec .lzssDec s = .next (s.ended .errState .none)

/-- ERR on the source or the sink (R148): the unit is idle again, the operation ends with ERR_SRC or ERR_SNK, no
further pull or push is made, and everything else is left as it was. -/
def Obligations.LzssPortErrors : Prop :=
  ∀ (s : State) (rest : List HostInput),
    (s.env.host = .src .err :: rest → (s.lzss.wait = .encPull ∨ ∃ bits, s.lzss.wait = .decPull bits) →
      step s = .next { s with
        lzss := { s.lzss with phase := .idle, wait := .none }
        env := { s.env with host := rest, trace := s.env.trace ++ [.pulled .err, .done .errSrc .none] } }) ∧
    (∀ b, s.env.host = .snk .err :: rest →
      (b = s.lzss.wbuf ∧ (s.lzss.wait = .encFlush ∨ ∃ bits y, s.lzss.wait = .encPush bits y) ∨
        ∃ src left, s.lzss.wait = .decPush b src left) →
      step s = .next { s with
        lzss := { s.lzss with phase := .idle, wait := .none }
        env := { s.env with host := rest, trace := s.env.trace ++ [.pushed b .err, .done .errSnk .none] } })

/-- The end of the source in a decoder (R143): the operation ends OK wherever in a token it stands, and the bits of
the token are dropped. -/
def Obligations.DecoderEndsAtEndOfStream : Prop :=
  ∀ (s : State) (bits : List Bool) (rest : List HostInput),
    s.env.host = .src .eos :: rest → s.lzss.wait = .decPull bits →
    step s = .next { s with
      lzss := { s.lzss with phase := .idle, wait := .none }
      env := { s.env with host := rest, trace := s.env.trace ++ [.pulled .eos, .done .ok .none] } }

/-- Filling the lookahead (R135): a byte pulled while two or more places are free is stored at `(R + LA) mod N`,
`LA` grows by one and the next pull is open; no other entry changes. -/
def Obligations.LookaheadFill : Prop :=
  ∀ (s : State) (b : Byte) (rest : List HostInput),
    s.lzss.dict.wf → s.env.host = .src (.byte b) :: rest → s.lzss.wait = .encPull → s.lzss.eosf = false →
    s.lzss.la + 1 < 2 ^ s.lzss.ej.toNat + 1 →
    ∃ d : Memory,
      (∀ a, memRead d a = if a = (s.lzss.r + s.lzss.la) % 2 ^ s.lzss.ei.toNat then b else memRead s.lzss.dict a) ∧
      step s = .next { s with
        lzss := { s.lzss with dict := d, la := s.lzss.la + 1 }
        env := { s.env with host := rest, trace := s.env.trace ++ [.pulled (.byte b), .pull] } }

/-- The search (R136): the length found is the greatest any distance in `1 .. N - F` has within the lookahead, 1 when
none has more, and the distance is the smallest that has it. -/
def Obligations.SearchFindsLongestNearest : Prop :=
  ∀ l : Lzss, ∃ d len, search l = (d, len) ∧ 1 ≤ len ∧
    (len = 1 → d = 0) ∧
    (1 < len → 1 ≤ d ∧ d ≤ l.n - l.f ∧ len ≤ l.la ∧ agree l d len ∧ ∀ d', 1 ≤ d' → d' < d → ¬ agree l d' len) ∧
    (len < l.la → ∀ d', 1 ≤ d' → d' ≤ l.n - l.f → ¬ agree l d' (len + 1))

/-- Token LIT (R141): the byte is pushed to the sink and nothing else happens; when the sink takes it, it is stored at
the cursor and the cursor moves on by one in the ring, and when the sink fails nothing is stored. Of the rest only the
bits held in `RBUF` and the open transaction move, for the decoder reads on. R141 speaks of a running decoder; that LIT runs so in every other state is
the model's choice (log 21). -/
def Obligations.LitPushedThenStored : Prop :=
  ∀ (s : State) (c : Byte), s.lzss.dict.wf →
    ∃ w, exec (.lit c) s = .next (s.lzssAs { s.lzss with wait := w } [.push c]) ∧
      ∃ u ev, step ((s.lzssAs { s.lzss with wait := w } [.push c]).withInput (.snk .ok)) = .next u ∧
        u = s.lzssAs { s.lzss with dict := u.lzss.dict, r := (s.lzss.r + 1) % 2 ^ s.lzss.ei.toNat,
                                   rmask := u.lzss.rmask, wait := u.lzss.wait }
              ([.push c, .pushed c .ok] ++ ev) ∧
        (∀ a, memRead u.lzss.dict a =
          if a = s.lzss.r % 2 ^ s.lzss.ei.toNat then c else memRead s.lzss.dict a) ∧
      step ((s.lzssAs { s.lzss with wait := w } [.push c]).withInput (.snk .err)) =
        .next (s.lzssAs { s.lzss with phase := .idle, wait := .none } [.push c, .pushed c .err, .done .errSnk .none])

/-- Tokens MATCH.7_4 and MATCH.10_4 (R142): `LEN + 2` bytes go to the sink, read from the ring one after the other
from the start that REF_MODE gives, each stored at the cursor before the next is read; nothing else changes but the
bits held in `RBUF` and the open transaction. R142 speaks of a running decoder of the row's pair; that the token runs so
in every other state is the model's choice (log 21). -/
def Obligations.MatchCopiesThroughRing : Prop :=
  ∀ (s : State) (i : Instr) (ref len : Nat),
    (∃ (r : BitVec 7) (l : BitVec 4), i = .match74 r l ∧ ref = r.toNat ∧ len = l.toNat) ∨
      (∃ (r : BitVec 10) (l : BitVec 4), i = .match104 r l ∧ ref = r.toNat ∧ len = l.toNat) →
    let n := 2 ^ s.lzss.ei.toNat
    let start := match s.refMode with
      | .distance => (s.lzss.r + n - ref) % n
      | .position => ref
    let copied := ringCopy (len + 2) start s.lzss
    ∃ w, exec i s = .next (s.lzssAs { s.lzss with wait := w } [.push (s.lzss.read start)]) ∧
      ∃ u ev, sinkOk (len + 2) (s.lzssAs { s.lzss with wait := w } [.push (s.lzss.read start)]) = .next u ∧
        u = s.lzssAs { s.lzss with dict := copied.2.dict, r := copied.2.r,
                                   rmask := u.lzss.rmask, wait := u.lzss.wait } ev ∧
        sunk ev = copied.1

/-- LZSS.DEC as a whole (R140 to R143): in an environment that delivers `z` and accepts every byte it ends OK after
`|z| + 1` pulls, the sink has taken the sequence-level decoding of `z`, and the other units are untouched. -/
def Obligations.LzssDecMeansSequence : Prop :=
  ∀ (s : State) (z : List Byte), s.Ok → s.lzss.phase = .idle →
    ∃ t, exec .lzssDec s = .next t ∧
      ∃ k u ev, serve k z t = .next u ∧ u.lzss.phase = .idle ∧
        u.env.trace = s.env.trace ++ ev ++ [.done .ok .none] ∧
        sunk ev = seqDecode s.refMode s.lzss.ei.toNat s.lzss.ej.toNat z ∧ pulls ev = z.length + 1 ∧
        u.lzss.ei = s.lzss.ei ∧ u.lzss.ej = s.lzss.ej ∧ u.crc = s.crc ∧ u.frm = s.frm ∧ u.refMode = s.refMode

/-- LZSS.ENC as a whole (R134, R139, R144, which the spec derives from R130 and R135 to R137): in an environment that delivers `x` and accepts every byte it ends OK
after `|x| + 1` pulls, and the sink has taken the packing of R144's token list. -/
def Obligations.LzssEncMeansSequence : Prop :=
  ∀ (s : State) (x : List Byte), s.Ok → s.lzss.phase = .idle →
    ∃ t, exec .lzssEnc s = .next t ∧
      ∃ k u ev, serve k x t = .next u ∧ u.lzss.phase = .idle ∧
        u.env.trace = s.env.trace ++ ev ++ [.done .ok .none] ∧
        sunk ev = seqEncode s.refMode s.lzss.ei.toNat s.lzss.ej.toNat x ∧ pulls ev = x.length + 1 ∧
        u.lzss.ei = s.lzss.ei ∧ u.lzss.ej = s.lzss.ej ∧ u.crc = s.crc ∧ u.frm = s.frm ∧ u.refMode = s.refMode

/-- Round trip on sequences (R144, R145): under every legal pair and both meanings of REF, decoding an encoding gives
the input back. -/
def Obligations.SequenceRoundTrip : Prop :=
  ∀ (mode : RefMode) (ei ej : Nat) (x : List Byte), legalPair ei ej = true →
    seqDecode mode ei ej (seqEncode mode ei ej x) = x

/-- Round trip on the machine (R145): what LZSS.ENC pushes for `x`, LZSS.DEC with the same pair and REF_MODE, in any
other state, turns back into `x`; both end OK. -/
def Obligations.LzssRoundTrip : Prop :=
  ∀ (s : State) (x : List Byte), s.Ok → s.lzss.phase = .idle →
    ∃ t k u ev, exec .lzssEnc s = .next t ∧ serve k x t = .next u ∧
      u.env.trace = s.env.trace ++ ev ++ [.done .ok .none] ∧
      ∀ s' : State, s'.Ok → s'.lzss.phase = .idle → s'.lzss.ei = s.lzss.ei → s'.lzss.ej = s.lzss.ej →
        s'.refMode = s.refMode →
        ∃ t' k' u' ev', exec .lzssDec s' = .next t' ∧ serve k' (sunk ev) t' = .next u' ∧
          u'.env.trace = s'.env.trace ++ ev' ++ [.done .ok .none] ∧ sunk ev' = x

/-! ## The whole machine -/

/-- The invariant (R21 to R27, R30) is kept by every step: a legal pair, a canonical dictionary of at most 2^EI_MAX
entries, a cursor in the ring and a lookahead within F while an operation runs, and chip-select as the framer's phase
says. What it says of the open transaction is the model's reading (log 11). Of WMASK it says less than R25's 'always has
exactly one bit set': it is 0 while the push of a full byte is open, by R131 (log 12), and unsaid in an idle or decoding
unit. -/
def Obligations.EveryStepKeepsOk : Prop :=
  ∀ s t : State, s.Ok → step s = .next t → t.Ok

/-- The invariant holds at reset (the working registers R51 leaves unspecified have the model's values, log 9, log
10; its clauses on the open transaction and the mask are readings, log 11, log 12). -/
def Obligations.ResetIsOk : Prop := State.reset.Ok

/-- The chip-select discipline (R191, R180, R189): every step only adds events, chip-select is never asserted twice
without a deassert in between, bytes move only while it is asserted and the ready line is sampled only while it is not,
and the events leave it where the state says. -/
def Obligations.ChipSelectDiscipline : Prop :=
  ∀ s t : State, s.frm.Ok → step s = .next t →
    ∃ ev, t.env.trace = s.env.trace ++ ev ∧ csThrough s.frm.cs ev = some t.frm.cs

/-- FRM.PHASE (R245): a step changes it only by running FRM.BBEGIN.C or FRM.BBEGIN.R from IDLE, by running FRM.BEND
from BURST, or by a reset. -/
def Obligations.BurstPhaseTransitions : Prop :=
  ∀ s t : State, step s = .next t → t.frm.phase ≠ s.frm.phase →
    (s.frm.phase = .idle ∧ ∃ bytes rest w, s.env.host = .op bytes :: rest ∧
      (decodeOp bytes = .ok (.frmBbeginC w, []) ∨ decodeOp bytes = .ok (.frmBbeginR w, []))) ∨
    (s.frm.phase = .burst ∧ ∃ bytes rest, s.env.host = .op bytes :: rest ∧ decodeOp bytes = .ok (.frmBend, [])) ∨
    ∃ rest, s.env.host = .reset :: rest

/-- LZSS.PHASE (R245): a step takes it from IDLE only by running LZSS.ENC (to ENC) or LZSS.DEC (to DEC), and from
those only to IDLE, by an answer on the source or the sink or by a reset. -/
def Obligations.LzssPhaseTransitions : Prop :=
  ∀ s t : State, s.Ok → step s = .next t → t.lzss.phase ≠ s.lzss.phase →
    (s.lzss.phase = .idle ∧ ∃ bytes rest, s.env.host = .op bytes :: rest ∧
      (decodeOp bytes = .ok (.lzssEnc, []) ∧ t.lzss.phase = .enc ∨
        decodeOp bytes = .ok (.lzssDec, []) ∧ t.lzss.phase = .dec)) ∨
    (t.lzss.phase = .idle ∧ ∃ input rest, s.env.host = input :: rest ∧ ∀ bytes, input ≠ .op bytes)

/-- Errors are precise (R242, R231): an instruction that ends with ERR_OP, ERR_STATE or ERR_PARAM has done nothing but
end, with result 0. -/
def Obligations.EarlyErrorsChangeNothing : Prop :=
  ∀ (i : Instr) (s t : State) (ev : List Event) (st : Status) (res : Result),
    exec i s = .next t → t.env.trace = s.env.trace ++ ev ++ [.done st res] →
    st = .errOp ∨ st = .errState ∨ st = .errParam →
    t = s.ended st res ∧ (res = .none ∨ res = .value 0 ∨ res = .index 0 0 0)

/-- Nesting (R77, R233): an operation presented while an LZSS operation is in progress, accepted or refused, leaves
the LZSS unit exactly as it was. -/
def Obligations.NestingLeavesLzssAlone : Prop :=
  ∀ (s t : State) (bytes : List Byte) (rest : List HostInput),
    s.lzss.phase ≠ .idle → s.env.host = .op bytes :: rest → step s = .next t → t.lzss = s.lzss

/-- The units share no state (R20): an operation of one unit leaves the other units unchanged, and what it does to its
own unit, to the environment and to its result does not depend on them. For the LZSS unit this is said of the start of an
operation, of every token, and of every step by which an answer of the source or the sink takes it on, to its end. -/
def Obligations.UnitsShareNoState : Prop :=
  ∀ s s' : State, s.env = s'.env → s.refMode = s'.refMode →
    (∀ (i : Instr) (c : Byte) (ref7 : BitVec 7) (ref10 : BitVec 10) (len : BitVec 4),
      i ∈ [Instr.lzssEnc, .lzssDec, .lit c, .match74 ref7 len, .match104 ref10 len] → s.lzss = s'.lzss →
      ∃ t t', exec i s = .next t ∧ exec i s' = .next t' ∧ t.lzss = t'.lzss ∧ t.env = t'.env ∧
        t.crc = s.crc ∧ t.frm = s.frm) ∧
    (∀ (input : HostInput) (rest : List HostInput), s.lzss = s'.lzss → s.env.host = input :: rest →
      (match input, s.lzss.wait with
        | .src _, .encPull | .src _, .decPull _ => True
        | .snk _, .encPush _ _ | .snk _, .encFlush | .snk _, .decPush _ _ _ => True
        | _, _ => False) →
      ∃ t t', step s = .next t ∧ step s' = .next t' ∧ t.lzss = t'.lzss ∧ t.env = t'.env ∧
        t.crc = s.crc ∧ t.frm = s.frm) ∧
    (∀ (i : Instr) (n : BitVec 32) (bytes : List Byte) (w : Half),
      i ∈ [Instr.crcInit, .crcUpd n bytes, .crcChk w] → s.crc = s'.crc →
      ∃ t t', exec i s = .next t ∧ exec i s' = .next t' ∧ t.crc = t'.crc ∧ t.env = t'.env ∧
        t.lzss = s.lzss ∧ t.frm = s.frm) ∧
    (∀ (i : Instr) (n : BitVec 32) (k : Byte) (bytes : List Byte) (p : List Half) (a w : Half),
      i ∈ [Instr.frmSend w k p, .frmRdreg a, .frmWrreg a w, .frmBbeginC w, .frmBbeginR a, .frmBword w,
        .frmBraw n bytes, .frmBend, .frmWait n] → s.frm = s'.frm →
      ∃ t t', exec i s = .next t ∧ exec i s' = .next t' ∧ t.frm = t'.frm ∧ t.env = t'.env ∧
        t.lzss = s.lzss ∧ t.crc = s.crc) ∧
    (∀ mode gate source gateCount sourceCount : Half,
      ∃ t t', exec (.scrIdx mode gate source gateCount sourceCount) s = .next t ∧
        exec (.scrIdx mode gate source gateCount sourceCount) s' = .next t' ∧ t.env = t'.env ∧
        t.lzss = s.lzss ∧ t.crc = s.crc ∧ t.frm = s.frm)

/-- Only the FRM operations and a reset move the transport (R49, R121, R191), and only FRM.WAIT, no other operation and
no reset, samples the ready line (R192, R240, R261). -/
def Obligations.OnlyFramerTouchesTransport : Prop :=
  ∀ (s t : State) (ev : List Event) (e : Event),
    step s = .next t → t.env.trace = s.env.trace ++ ev → e ∈ ev → onTransport e = true →
    ((∃ rest, s.env.host = .reset :: rest) ∨
      ∃ bytes rest i, s.env.host = .op bytes :: rest ∧ decodeOp bytes = .ok (i, []) ∧
        (match i with
          | .frmSend _ _ _ | .frmRdreg _ | .frmWrreg _ _ | .frmBbeginC _ | .frmBbeginR _ | .frmBword _
          | .frmBraw _ _ | .frmBend | .frmWait _ => True
          | _ => False)) ∧
    ((∃ h, e = .hrdy h) → ∃ bytes rest n, s.env.host = .op bytes :: rest ∧ decodeOp bytes = .ok (.frmWait n, []))

/-- REF_MODE is fixed in the hardware (R269): no step changes it. -/
def Obligations.RefModeNeverChanges : Prop :=
  ∀ s t : State, step s = .next t → t.refMode = s.refMode
end

