-- ==== Sys2Proof/Laws/Encoding.lean ====
section
/-! SUPPORT. Reading back what was written: bytes and words, operands, bit fields, tokens. -/

namespace Sys2Proof

/-! ## Bytes and words -/

theorem hi_toNat (w : Half) : (hi w).toNat = w.toNat / 256 := by
  simp [hi, Nat.shiftRight_eq_div_pow]
  omega

theorem lo_toNat (w : Half) : (lo w).toNat = w.toNat % 256 := by simp [lo]

theorem be16_toNat (a b : Byte) : (be16 a b).toNat = 256 * a.toNat + b.toNat := by
  have h : (be16 a b).toNat = a.toNat <<< 8 ||| b.toNat := BitVec.toNat_append a b
  rw [h, ← Nat.shiftLeft_add_eq_or_of_lt b.isLt, Nat.shiftLeft_eq]
  omega

theorem be32_toNat (a b c d : Byte) :
    (be32 a b c d).toNat = 16777216 * a.toNat + 65536 * b.toNat + 256 * c.toNat + d.toNat := by
  have h : (be32 a b c d).toNat = (a ++ b ++ c).toNat <<< 8 ||| d.toNat := BitVec.toNat_append (a ++ b ++ c) d
  have h2 : (a ++ b ++ c).toNat = (a ++ b).toNat <<< 8 ||| c.toNat := BitVec.toNat_append (a ++ b) c
  have h3 : (a ++ b).toNat = a.toNat <<< 8 ||| b.toNat := BitVec.toNat_append a b
  rw [h, h2, h3, ← Nat.shiftLeft_add_eq_or_of_lt b.isLt, ← Nat.shiftLeft_add_eq_or_of_lt c.isLt,
    ← Nat.shiftLeft_add_eq_or_of_lt d.isLt, Nat.shiftLeft_eq, Nat.shiftLeft_eq, Nat.shiftLeft_eq]
  omega

@[simp] theorem be16_hi_lo (w : Half) : be16 (hi w) (lo w) = w := by
  apply BitVec.eq_of_toNat_eq
  rw [be16_toNat, hi_toNat, lo_toNat]
  omega

@[simp] theorem hi_be16 (a b : Byte) : hi (be16 a b) = a := by
  apply BitVec.eq_of_toNat_eq
  rw [hi_toNat, be16_toNat]
  omega

@[simp] theorem lo_be16 (a b : Byte) : lo (be16 a b) = b := by
  apply BitVec.eq_of_toNat_eq
  rw [lo_toNat, be16_toNat]
  omega

theorem bytes32_be32 (a b c d : Byte) : bytes32 (be32 a b c d) = [a, b, c, d] := by
  simp only [bytes32, List.cons.injEq, and_true]
  refine ⟨?_, ?_, ?_, ?_⟩ <;>
    (apply BitVec.eq_of_toNat_eq; simp [be32_toNat, Nat.shiftRight_eq_div_pow]; omega)

theorem be32_of_bytes (v : BitVec 32) :
    be32 (v.extractLsb' 24 8) (v.extractLsb' 16 8) (v.extractLsb' 8 8) (v.extractLsb' 0 8) = v := by
  apply BitVec.eq_of_toNat_eq
  rw [be32_toNat]
  simp [Nat.shiftRight_eq_div_pow]
  omega

/-! ## Operation codes -/

/-- The code of an operation selects it (R90). -/
@[simp] theorem ofCode_code (o : Op) : Op.ofCode o.code = some o := by cases o <;> rfl

/-- A code selects only the operation whose code it is (R90). -/
theorem code_of_ofCode {b : Byte} {o : Op} (h : Op.ofCode b = some o) : o.code = b := by
  simpa using List.find?_some h

/-! ## Operands -/

theorem takeU8_cons (b : Byte) (rest : List Byte) : takeU8 (b :: rest) = some (b, rest) := rfl

theorem takeU16_bytes16 (w : Half) (rest : List Byte) : takeU16 (bytes16 w ++ rest) = some (w, rest) := by
  simp [takeU16, bytes16]

theorem takeU32_bytes32 (v : BitVec 32) (rest : List Byte) : takeU32 (bytes32 v ++ rest) = some (v, rest) := by
  simp [takeU32, bytes32, be32_of_bytes]

theorem takeBytes_append (a rest : List Byte) : takeBytes a.length (a ++ rest) = some (a, rest) := by
  simp [takeBytes]

theorem takeHalves_append (ws : List Half) (rest : List Byte) :
    takeHalves ws.length (ws.flatMap bytes16 ++ rest) = some (ws, rest) := by
  induction ws generalizing rest with
  | nil => rfl
  | cons w ws ih =>
    simp only [List.flatMap_cons, List.append_assoc, List.length_cons, takeHalves, takeU16_bytes16]
    simp [ih]

theorem takeU8_some {bs : List Byte} {b : Byte} {rest : List Byte} (h : takeU8 bs = some (b, rest)) :
    bs = b :: rest := by
  cases bs with
  | nil => simp [takeU8] at h
  | cons c cs => simp only [takeU8, Option.some.injEq, Prod.mk.injEq] at h; rw [h.1, h.2]

theorem takeU16_some {bs : List Byte} {w : Half} {rest : List Byte} (h : takeU16 bs = some (w, rest)) :
    bs = bytes16 w ++ rest := by
  match bs, h with
  | b0 :: b1 :: cs, h =>
    simp only [takeU16, Option.some.injEq, Prod.mk.injEq] at h
    simp [bytes16, ← h.1, ← h.2]

theorem takeU32_some {bs : List Byte} {v : BitVec 32} {rest : List Byte} (h : takeU32 bs = some (v, rest)) :
    bs = bytes32 v ++ rest := by
  match bs, h with
  | b0 :: b1 :: b2 :: b3 :: cs, h =>
    simp only [takeU32, Option.some.injEq, Prod.mk.injEq] at h
    simp [← h.1, ← h.2, bytes32_be32]

theorem takeBytes_some {n : Nat} {bs a rest : List Byte} (h : takeBytes n bs = some (a, rest)) :
    a.length = n ∧ bs = a ++ rest := by
  unfold takeBytes at h
  split at h
  · cases h
  · simp only [Option.some.injEq, Prod.mk.injEq] at h
    obtain ⟨rfl, rfl⟩ := h
    simp
    omega

theorem takeHalves_some {n : Nat} {bs : List Byte} {ws : List Half} {rest : List Byte}
    (h : takeHalves n bs = some (ws, rest)) : ws.length = n ∧ bs = ws.flatMap bytes16 ++ rest := by
  induction n generalizing bs ws rest with
  | zero =>
    simp only [takeHalves, Option.some.injEq, Prod.mk.injEq] at h
    simp [← h.1, ← h.2]
  | succ n ih =>
    simp only [takeHalves, Option.bind_eq_bind, Option.bind_eq_some_iff, Prod.exists, Option.some.injEq,
      Prod.mk.injEq] at h
    obtain ⟨w, bs', h1, ws', rest', h2, rfl, rfl⟩ := h
    obtain ⟨h3, h4⟩ := ih h2
    rw [takeU16_some h1, h4]
    simp [h3]

/-! ## Bit fields -/

@[simp] theorem natBits_length (w v : Nat) : (natBits w v).length = w := by
  induction w with
  | zero => rfl
  | succ w ih => simp [natBits, ih]

theorem bitsNat_foldl (l : List Bool) (x : Nat) :
    l.foldl (fun x b => 2 * x + b.toNat) x = x * 2 ^ l.length + bitsNat l := by
  induction l generalizing x with
  | nil => simp [bitsNat]
  | cons b l ih =>
    have h0 : bitsNat (b :: l) = l.foldl (fun x b => 2 * x + b.toNat) (2 * 0 + b.toNat) := rfl
    rw [List.foldl_cons, ih, h0, ih, List.length_cons, pow_succ]
    ring

theorem bitsNat_cons (b : Bool) (l : List Bool) : bitsNat (b :: l) = b.toNat * 2 ^ l.length + bitsNat l := by
  have h0 : bitsNat (b :: l) = l.foldl (fun x b => 2 * x + b.toNat) (2 * 0 + b.toNat) := rfl
  rw [h0, bitsNat_foldl]
  ring

theorem bitsNat_lt (l : List Bool) : bitsNat l < 2 ^ l.length := by
  induction l with
  | nil => simp [bitsNat]
  | cons b l ih =>
    rw [bitsNat_cons, List.length_cons, pow_succ]
    cases b <;> simp <;> omega

/-- The bits of a number spell the number, as far as the width goes (R95). -/
theorem bitsNat_natBits (w v : Nat) : bitsNat (natBits w v) = v % 2 ^ w := by
  induction w with
  | zero => simp [natBits, bitsNat, Nat.mod_one]
  | succ w ih =>
    rw [natBits, bitsNat_cons, ih, natBits_length, Nat.mod_pow_succ, Nat.testBit_eq_decide_div_mod_eq]
    rcases Nat.mod_two_eq_zero_or_one (v / 2 ^ w) with h | h
    · simp [h]
    · simp only [h, decide_true, Bool.toNat_true]; ring

/-! ## Tokens -/

theorem Token.bits_length (ei ej : Nat) (token : Token) :
    (token.bits ei ej).length = match token with | .lit _ => 9 | .pair _ _ => 1 + ei + ej := by
  cases token with
  | lit c => simp [Token.bits]
  | pair ref len => simp [Token.bits]; omega

/-- A string with more bits reads as the same token, with the more left over. -/
theorem decodeToken_append {ei ej : Nat} {bits : List Bool} {token : Token} {rest : List Bool}
    (h : decodeToken ei ej bits = some (token, rest)) (more : List Bool) :
    decodeToken ei ej (bits ++ more) = some (token, rest ++ more) := by
  match bits with
  | [] => simp [decodeToken] at h
  | true :: bs =>
    simp only [decodeToken, List.cons_append] at h ⊢
    split at h
    · cases h
    · rename_i hlen
      simp only [Option.some.injEq, Prod.mk.injEq] at h
      rw [if_neg (by simp; omega), List.take_append_of_le_length (by omega),
        List.drop_append_of_le_length (by omega), h.1, h.2]
  | false :: bs =>
    simp only [decodeToken, List.cons_append] at h ⊢
    split at h
    · cases h
    · rename_i hlen
      simp only [Option.some.injEq, Prod.mk.injEq] at h
      rw [if_neg (by simp; omega), List.take_append_of_le_length (by omega),
        List.drop_append_of_le_length (by omega), List.take_append_of_le_length (by simp; omega),
        List.drop_append_of_le_length (by omega), h.1, h.2]

/-- A token that ends exactly at the end of a string was incomplete before. -/
theorem decodeToken_prefix_none {ei ej : Nat} {bits more : List Bool} {token : Token}
    (h : decodeToken ei ej (bits ++ more) = some (token, [])) (hne : more ≠ []) :
    decodeToken ei ej bits = none := by
  cases hd : decodeToken ei ej bits with
  | none => rfl
  | some r =>
    have := decodeToken_append (rest := r.2) (token := r.1) hd more
    rw [h] at this
    simp only [Option.some.injEq, Prod.mk.injEq] at this
    exact absurd (List.append_eq_nil_iff.1 this.2.symm).2 hne

end Sys2Proof
end

