-- ==== Sys2Proof/Laws/State.lean ====
section
/-! SUPPORT. One lemma per field of State per named update, so that no proof unfolds a record update. -/

namespace Sys2Proof.Machine

/-! ## State.emit and complete -/

@[simp] theorem emit_lzss (e : Event) (s : State) : (s.emit e).lzss = s.lzss := rfl
@[simp] theorem emit_crc (e : Event) (s : State) : (s.emit e).crc = s.crc := rfl
@[simp] theorem emit_frm (e : Event) (s : State) : (s.emit e).frm = s.frm := rfl
@[simp] theorem emit_env_host (e : Event) (s : State) : (s.emit e).env.host = s.env.host := rfl
@[simp] theorem emit_env_rx (e : Event) (s : State) : (s.emit e).env.rx = s.env.rx := rfl
@[simp] theorem emit_env_hrdy (e : Event) (s : State) : (s.emit e).env.hrdy = s.env.hrdy := rfl
@[simp] theorem emit_env_draws (e : Event) (s : State) : (s.emit e).env.draws = s.env.draws := rfl
@[simp] theorem emit_env_trace (e : Event) (s : State) : (s.emit e).env.trace = s.env.trace ++ [e] := rfl
@[simp] theorem emit_refMode (e : Event) (s : State) : (s.emit e).refMode = s.refMode := rfl

@[simp] theorem complete_lzss (st : Status) (res : Result) (s : State) : (complete st res s).lzss = s.lzss := rfl
@[simp] theorem complete_crc (st : Status) (res : Result) (s : State) : (complete st res s).crc = s.crc := rfl
@[simp] theorem complete_frm (st : Status) (res : Result) (s : State) : (complete st res s).frm = s.frm := rfl
@[simp] theorem complete_env_host (st : Status) (res : Result) (s : State) : (complete st res s).env.host = s.env.host := rfl
@[simp] theorem complete_env_rx (st : Status) (res : Result) (s : State) : (complete st res s).env.rx = s.env.rx := rfl
@[simp] theorem complete_env_hrdy (st : Status) (res : Result) (s : State) : (complete st res s).env.hrdy = s.env.hrdy := rfl
@[simp] theorem complete_env_draws (st : Status) (res : Result) (s : State) : (complete st res s).env.draws = s.env.draws := rfl
@[simp] theorem complete_env_trace (st : Status) (res : Result) (s : State) : (complete st res s).env.trace = s.env.trace ++ [.done st res] := rfl
@[simp] theorem complete_refMode (st : Status) (res : Result) (s : State) : (complete st res s).refMode = s.refMode := rfl

/-! ## Single fields -/

@[simp] theorem setAcc_lzss (v : Half) (s : State) : (s.setAcc v).lzss = s.lzss := rfl
@[simp] theorem setAcc_crc (v : Half) (s : State) : (s.setAcc v).crc = ⟨v⟩ := rfl
@[simp] theorem setAcc_frm (v : Half) (s : State) : (s.setAcc v).frm = s.frm := rfl
@[simp] theorem setAcc_env_host (v : Half) (s : State) : (s.setAcc v).env.host = s.env.host := rfl
@[simp] theorem setAcc_env_rx (v : Half) (s : State) : (s.setAcc v).env.rx = s.env.rx := rfl
@[simp] theorem setAcc_env_hrdy (v : Half) (s : State) : (s.setAcc v).env.hrdy = s.env.hrdy := rfl
@[simp] theorem setAcc_env_draws (v : Half) (s : State) : (s.setAcc v).env.draws = s.env.draws := rfl
@[simp] theorem setAcc_env_trace (v : Half) (s : State) : (s.setAcc v).env.trace = s.env.trace := rfl
@[simp] theorem setAcc_refMode (v : Half) (s : State) : (s.setAcc v).refMode = s.refMode := rfl

@[simp] theorem setFrmPhase_lzss (p : FrmPhase) (s : State) : (s.setFrmPhase p).lzss = s.lzss := rfl
@[simp] theorem setFrmPhase_crc (p : FrmPhase) (s : State) : (s.setFrmPhase p).crc = s.crc := rfl
@[simp] theorem setFrmPhase_frm (p : FrmPhase) (s : State) : (s.setFrmPhase p).frm = { s.frm with phase := p } := rfl
@[simp] theorem setFrmPhase_env_host (p : FrmPhase) (s : State) : (s.setFrmPhase p).env.host = s.env.host := rfl
@[simp] theorem setFrmPhase_env_rx (p : FrmPhase) (s : State) : (s.setFrmPhase p).env.rx = s.env.rx := rfl
@[simp] theorem setFrmPhase_env_hrdy (p : FrmPhase) (s : State) : (s.setFrmPhase p).env.hrdy = s.env.hrdy := rfl
@[simp] theorem setFrmPhase_env_draws (p : FrmPhase) (s : State) : (s.setFrmPhase p).env.draws = s.env.draws := rfl
@[simp] theorem setFrmPhase_env_trace (p : FrmPhase) (s : State) : (s.setFrmPhase p).env.trace = s.env.trace := rfl
@[simp] theorem setFrmPhase_refMode (p : FrmPhase) (s : State) : (s.setFrmPhase p).refMode = s.refMode := rfl

@[simp] theorem withInput_lzss (i : HostInput) (s : State) : (s.withInput i).lzss = s.lzss := rfl
@[simp] theorem withInput_crc (i : HostInput) (s : State) : (s.withInput i).crc = s.crc := rfl
@[simp] theorem withInput_frm (i : HostInput) (s : State) : (s.withInput i).frm = s.frm := rfl
@[simp] theorem withInput_env_host (i : HostInput) (s : State) : (s.withInput i).env.host = i :: s.env.host := rfl
@[simp] theorem withInput_env_rx (i : HostInput) (s : State) : (s.withInput i).env.rx = s.env.rx := rfl
@[simp] theorem withInput_env_hrdy (i : HostInput) (s : State) : (s.withInput i).env.hrdy = s.env.hrdy := rfl
@[simp] theorem withInput_env_draws (i : HostInput) (s : State) : (s.withInput i).env.draws = s.env.draws := rfl
@[simp] theorem withInput_env_trace (i : HostInput) (s : State) : (s.withInput i).env.trace = s.env.trace := rfl
@[simp] theorem withInput_refMode (i : HostInput) (s : State) : (s.withInput i).refMode = s.refMode := rfl

/-! ## The transport -/

@[simp] theorem select_lzss (s : State) : (select s).lzss = s.lzss := rfl
@[simp] theorem select_crc (s : State) : (select s).crc = s.crc := rfl
@[simp] theorem select_frm (s : State) : (select s).frm = { s.frm with cs := true } := rfl
@[simp] theorem select_env_host (s : State) : (select s).env.host = s.env.host := rfl
@[simp] theorem select_env_rx (s : State) : (select s).env.rx = s.env.rx := rfl
@[simp] theorem select_env_hrdy (s : State) : (select s).env.hrdy = s.env.hrdy := rfl
@[simp] theorem select_env_draws (s : State) : (select s).env.draws = s.env.draws := rfl
@[simp] theorem select_env_trace (s : State) : (select s).env.trace = s.env.trace ++ [.csAssert] := rfl
@[simp] theorem select_refMode (s : State) : (select s).refMode = s.refMode := rfl

@[simp] theorem deselect_lzss (s : State) : (deselect s).lzss = s.lzss := rfl
@[simp] theorem deselect_crc (s : State) : (deselect s).crc = s.crc := rfl
@[simp] theorem deselect_frm (s : State) : (deselect s).frm = { s.frm with cs := false } := rfl
@[simp] theorem deselect_env_host (s : State) : (deselect s).env.host = s.env.host := rfl
@[simp] theorem deselect_env_rx (s : State) : (deselect s).env.rx = s.env.rx := rfl
@[simp] theorem deselect_env_hrdy (s : State) : (deselect s).env.hrdy = s.env.hrdy := rfl
@[simp] theorem deselect_env_draws (s : State) : (deselect s).env.draws = s.env.draws := rfl
@[simp] theorem deselect_env_trace (s : State) : (deselect s).env.trace = s.env.trace ++ [.csDeassert] := rfl
@[simp] theorem deselect_refMode (s : State) : (deselect s).refMode = s.refMode := rfl

@[simp] theorem commandMode_lzss (s : State) : (commandMode s).lzss = s.lzss := by unfold commandMode; split <;> simp_all
@[simp] theorem commandMode_crc (s : State) : (commandMode s).crc = s.crc := by unfold commandMode; split <;> simp_all
@[simp] theorem commandMode_frm (s : State) : (commandMode s).frm = if s.frm.hasDc then { s.frm with dc := .cmd } else s.frm := by unfold commandMode; split <;> simp_all
@[simp] theorem commandMode_env_host (s : State) : (commandMode s).env.host = s.env.host := by unfold commandMode; split <;> simp_all
@[simp] theorem commandMode_env_rx (s : State) : (commandMode s).env.rx = s.env.rx := by unfold commandMode; split <;> simp_all
@[simp] theorem commandMode_env_hrdy (s : State) : (commandMode s).env.hrdy = s.env.hrdy := by unfold commandMode; split <;> simp_all
@[simp] theorem commandMode_env_draws (s : State) : (commandMode s).env.draws = s.env.draws := by unfold commandMode; split <;> simp_all
@[simp] theorem commandMode_env_trace (s : State) : (commandMode s).env.trace = s.env.trace ++ (if s.frm.hasDc then [.dcCmd] else []) := by unfold commandMode; split <;> simp_all
@[simp] theorem commandMode_refMode (s : State) : (commandMode s).refMode = s.refMode := by unfold commandMode; split <;> simp_all

@[simp] theorem dataMode_lzss (s : State) : (dataMode s).lzss = s.lzss := by unfold dataMode; split <;> simp_all
@[simp] theorem dataMode_crc (s : State) : (dataMode s).crc = s.crc := by unfold dataMode; split <;> simp_all
@[simp] theorem dataMode_frm (s : State) : (dataMode s).frm = if s.frm.hasDc then { s.frm with dc := .data } else s.frm := by unfold dataMode; split <;> simp_all
@[simp] theorem dataMode_env_host (s : State) : (dataMode s).env.host = s.env.host := by unfold dataMode; split <;> simp_all
@[simp] theorem dataMode_env_rx (s : State) : (dataMode s).env.rx = s.env.rx := by unfold dataMode; split <;> simp_all
@[simp] theorem dataMode_env_hrdy (s : State) : (dataMode s).env.hrdy = s.env.hrdy := by unfold dataMode; split <;> simp_all
@[simp] theorem dataMode_env_draws (s : State) : (dataMode s).env.draws = s.env.draws := by unfold dataMode; split <;> simp_all
@[simp] theorem dataMode_env_trace (s : State) : (dataMode s).env.trace = s.env.trace ++ (if s.frm.hasDc then [.dcData] else []) := by unfold dataMode; split <;> simp_all
@[simp] theorem dataMode_refMode (s : State) : (dataMode s).refMode = s.refMode := by unfold dataMode; split <;> simp_all

@[simp] theorem txByte_lzss (b : Byte) (s : State) : (txByte b s).lzss = s.lzss := rfl
@[simp] theorem txByte_crc (b : Byte) (s : State) : (txByte b s).crc = s.crc := rfl
@[simp] theorem txByte_frm (b : Byte) (s : State) : (txByte b s).frm = s.frm := rfl
@[simp] theorem txByte_env_host (b : Byte) (s : State) : (txByte b s).env.host = s.env.host := rfl
@[simp] theorem txByte_env_rx (b : Byte) (s : State) : (txByte b s).env.rx = s.env.rx := rfl
@[simp] theorem txByte_env_hrdy (b : Byte) (s : State) : (txByte b s).env.hrdy = s.env.hrdy := rfl
@[simp] theorem txByte_env_draws (b : Byte) (s : State) : (txByte b s).env.draws = s.env.draws := rfl
@[simp] theorem txByte_env_trace (b : Byte) (s : State) : (txByte b s).env.trace = s.env.trace ++ [.tx b] := rfl
@[simp] theorem txByte_refMode (b : Byte) (s : State) : (txByte b s).refMode = s.refMode := rfl

/-! ## The source and sink ports -/

@[simp] theorem pullSrc_lzss (w : LzssWait) (s : State) : (pullSrc w s).lzss = { s.lzss with wait := w } := rfl
@[simp] theorem pullSrc_crc (w : LzssWait) (s : State) : (pullSrc w s).crc = s.crc := rfl
@[simp] theorem pullSrc_frm (w : LzssWait) (s : State) : (pullSrc w s).frm = s.frm := rfl
@[simp] theorem pullSrc_env_host (w : LzssWait) (s : State) : (pullSrc w s).env.host = s.env.host := rfl
@[simp] theorem pullSrc_env_rx (w : LzssWait) (s : State) : (pullSrc w s).env.rx = s.env.rx := rfl
@[simp] theorem pullSrc_env_hrdy (w : LzssWait) (s : State) : (pullSrc w s).env.hrdy = s.env.hrdy := rfl
@[simp] theorem pullSrc_env_draws (w : LzssWait) (s : State) : (pullSrc w s).env.draws = s.env.draws := rfl
@[simp] theorem pullSrc_env_trace (w : LzssWait) (s : State) : (pullSrc w s).env.trace = s.env.trace ++ [.pull] := rfl
@[simp] theorem pullSrc_refMode (w : LzssWait) (s : State) : (pullSrc w s).refMode = s.refMode := rfl

@[simp] theorem pushSnk_lzss (b : Byte) (w : LzssWait) (s : State) : (pushSnk b w s).lzss = { s.lzss with wait := w } := rfl
@[simp] theorem pushSnk_crc (b : Byte) (w : LzssWait) (s : State) : (pushSnk b w s).crc = s.crc := rfl
@[simp] theorem pushSnk_frm (b : Byte) (w : LzssWait) (s : State) : (pushSnk b w s).frm = s.frm := rfl
@[simp] theorem pushSnk_env_host (b : Byte) (w : LzssWait) (s : State) : (pushSnk b w s).env.host = s.env.host := rfl
@[simp] theorem pushSnk_env_rx (b : Byte) (w : LzssWait) (s : State) : (pushSnk b w s).env.rx = s.env.rx := rfl
@[simp] theorem pushSnk_env_hrdy (b : Byte) (w : LzssWait) (s : State) : (pushSnk b w s).env.hrdy = s.env.hrdy := rfl
@[simp] theorem pushSnk_env_draws (b : Byte) (w : LzssWait) (s : State) : (pushSnk b w s).env.draws = s.env.draws := rfl
@[simp] theorem pushSnk_env_trace (b : Byte) (w : LzssWait) (s : State) : (pushSnk b w s).env.trace = s.env.trace ++ [.push b] := rfl
@[simp] theorem pushSnk_refMode (b : Byte) (w : LzssWait) (s : State) : (pushSnk b w s).refMode = s.refMode := rfl

@[simp] theorem lzssEnd_lzss (st : Status) (s : State) : (lzssEnd st s).lzss = { s.lzss with phase := .idle, wait := .none } := rfl
@[simp] theorem lzssEnd_crc (st : Status) (s : State) : (lzssEnd st s).crc = s.crc := rfl
@[simp] theorem lzssEnd_frm (st : Status) (s : State) : (lzssEnd st s).frm = s.frm := rfl
@[simp] theorem lzssEnd_env_host (st : Status) (s : State) : (lzssEnd st s).env.host = s.env.host := rfl
@[simp] theorem lzssEnd_env_rx (st : Status) (s : State) : (lzssEnd st s).env.rx = s.env.rx := rfl
@[simp] theorem lzssEnd_env_hrdy (st : Status) (s : State) : (lzssEnd st s).env.hrdy = s.env.hrdy := rfl
@[simp] theorem lzssEnd_env_draws (st : Status) (s : State) : (lzssEnd st s).env.draws = s.env.draws := rfl
@[simp] theorem lzssEnd_env_trace (st : Status) (s : State) : (lzssEnd st s).env.trace = s.env.trace ++ [.done st .none] := rfl
@[simp] theorem lzssEnd_refMode (st : Status) (s : State) : (lzssEnd st s).refMode = s.refMode := rfl

/-! ## Reset -/

@[simp] theorem resetEvent_lzss (s : State) : (resetEvent s).lzss = Lzss.reset := by unfold resetEvent; split <;> simp_all [State.reset]
@[simp] theorem resetEvent_crc (s : State) : (resetEvent s).crc = Crc.reset := by unfold resetEvent; split <;> simp_all [State.reset]
@[simp] theorem resetEvent_frm (s : State) : (resetEvent s).frm = Frm.reset := by unfold resetEvent; split <;> simp_all [State.reset]
@[simp] theorem resetEvent_env_host (s : State) : (resetEvent s).env.host = s.env.host := by unfold resetEvent; split <;> simp_all [State.reset]
@[simp] theorem resetEvent_env_rx (s : State) : (resetEvent s).env.rx = s.env.rx := by unfold resetEvent; split <;> simp_all [State.reset]
@[simp] theorem resetEvent_env_hrdy (s : State) : (resetEvent s).env.hrdy = s.env.hrdy := by unfold resetEvent; split <;> simp_all [State.reset]
@[simp] theorem resetEvent_env_draws (s : State) : (resetEvent s).env.draws = s.env.draws := by unfold resetEvent; split <;> simp_all [State.reset]
@[simp] theorem resetEvent_env_trace (s : State) : (resetEvent s).env.trace = s.env.trace ++ (.csDeassert :: (if s.frm.hasDc then [.dcData] else [])) := by unfold resetEvent; split <;> simp_all [State.reset]
@[simp] theorem resetEvent_refMode (s : State) : (resetEvent s).refMode = s.refMode := by unfold resetEvent; split <;> simp_all [State.reset]

end Sys2Proof.Machine
end

