-- ==== Sys2Proof/Laws/Memory.lean ====
section
/-! SUPPORT. The dictionary's memory: every operation keeps the canonical form, and what a read gives after it. -/

namespace Sys2Proof.Machine

@[simp] theorem memRead_nil (a : Nat) : memRead [] a = Memory.unlisted := rfl

@[simp] theorem memRead_cons (b : Nat) (v : Byte) (m : Memory) (a : Nat) :
    memRead ((b, v) :: m) a = if a = b then v else memRead m a := rfl

theorem memRead_of_forall_ne {m : Memory} {a : Nat} (h : ∀ c ∈ m, c.1 ≠ a) : memRead m a = Memory.unlisted := by
  induction m with
  | nil => rfl
  | cons c m ih =>
    obtain ⟨b, v⟩ := c
    have hb : a ≠ b := fun e => h (b, v) (by simp) e.symm
    simp [hb, ih fun c hc => h c (by simp [hc])]

theorem Memory.wf_nil : Memory.wf [] := by simp [Memory.wf]

theorem Memory.wf_tail {c : Host.Cell} {m : Memory} (h : Memory.wf (c :: m)) : Memory.wf m := by
  simp only [Memory.wf, List.pairwise_cons, List.mem_cons, forall_eq_or_imp] at h ⊢
  exact ⟨h.1.2, h.2.2⟩

/-- A cell in front of a canonical list of higher cells. -/
theorem memCons_wf {a : Nat} {v : Byte} {m : Memory} (h : Memory.wf m) (hlt : ∀ c ∈ m, a < c.1) :
    Memory.wf (memCons a v m) := by
  unfold memCons
  split
  · exact h
  · simp only [Memory.wf, List.pairwise_cons, List.mem_cons, forall_eq_or_imp] at h ⊢
    exact ⟨⟨fun c hc => hlt c hc, h.1⟩, ‹_›, h.2⟩

theorem mem_memCons {a : Nat} {v : Byte} {m : Memory} {c : Host.Cell} (h : c ∈ memCons a v m) : c = (a, v) ∨ c ∈ m := by
  unfold memCons at h
  split at h
  · exact .inr h
  · simpa using h

/-- A cell after a write is the written one or was there before. -/
theorem mem_memWrite {m : Memory} {a : Nat} {v : Byte} {c : Host.Cell} (h : c ∈ memWrite m a v) :
    c = (a, v) ∨ c ∈ m := by
  induction m with
  | nil => exact mem_memCons h
  | cons d m ih =>
    obtain ⟨b, w⟩ := d
    simp only [memWrite] at h
    split at h
    · exact mem_memCons h
    · split at h
      · exact (mem_memCons h).imp id fun h => by simp [h]
      · rcases List.mem_cons.1 h with h | h
        · exact .inr (by simp [h])
        · exact (ih h).imp id fun h => by simp [h]

theorem memWrite_wf {m : Memory} (a : Nat) (v : Byte) (h : Memory.wf m) : Memory.wf (memWrite m a v) := by
  induction m with
  | nil => exact memCons_wf h (by simp)
  | cons d m ih =>
    obtain ⟨b, w⟩ := d
    have ht := Memory.wf_tail h
    have hb : ∀ c ∈ m, b < c.1 := (List.pairwise_cons.1 h.1).1
    simp only [memWrite]
    split
    · rename_i hab
      refine memCons_wf h fun c hc => ?_
      rcases List.mem_cons.1 hc with rfl | hc
      · exact hab
      · exact hab.trans (hb c hc)
    · split
      · rename_i hab
        exact memCons_wf ht fun c hc => hab ▸ hb c hc
      · rename_i h1 h2
        refine ⟨List.pairwise_cons.2 ⟨fun c hc => ?_, (ih ht).1⟩, fun c hc => ?_⟩
        · rcases mem_memWrite hc with rfl | hc
          · exact lt_of_le_of_ne (not_lt.1 h1) (Ne.symm h2)
          · exact hb c hc
        · rcases List.mem_cons.1 hc with rfl | hc
          · exact h.2 _ (by simp)
          · exact (ih ht).2 c hc

/-- A read after a write gives the value written at its address and what was there everywhere else. -/
theorem memRead_memWrite {m : Memory} (h : Memory.wf m) (a : Nat) (v : Byte) (x : Nat) :
    memRead (memWrite m a v) x = if x = a then v else memRead m x := by
  have cons : ∀ m' : Memory, (∀ c ∈ m', a < c.1) →
      memRead (memCons a v m') x = if x = a then v else memRead m' x := by
    intro m' hlt
    unfold memCons
    split
    · rename_i hv
      split
      · rename_i hx
        rw [hv, memRead_of_forall_ne fun c hc => by have := hlt c hc; omega]
      · rfl
    · simp
  induction m with
  | nil => exact cons [] (by simp)
  | cons d m ih =>
    obtain ⟨b, w⟩ := d
    have ht := Memory.wf_tail h
    have hb : ∀ c ∈ m, b < c.1 := (List.pairwise_cons.1 h.1).1
    simp only [memWrite]
    split
    · rename_i hab
      refine cons _ fun c hc => ?_
      rcases List.mem_cons.1 hc with rfl | hc
      · exact hab
      · exact hab.trans (hb c hc)
    · split
      · rename_i hab
        subst hab
        rw [cons m hb]
        by_cases hx : x = a <;> simp [hx]
      · rename_i h1 h2
        simp only [memRead_cons, ih ht]
        by_cases hx : x = b
        · have : x ≠ a := by omega
          simp [hx, Ne.symm h2]
        · simp [hx]

theorem memFill_wf {m : Memory} (n : Nat) (h : Memory.wf m) : Memory.wf (memFill m n) :=
  ⟨h.1.filter _, fun c hc => h.2 c (List.mem_of_mem_filter hc)⟩

theorem mem_memFill {m : Memory} {n : Nat} {c : Host.Cell} (h : c ∈ memFill m n) : c ∈ m := List.mem_of_mem_filter h

/-- After the fill every cell below `n` reads as an unlisted one; the others as before (R130). -/
theorem memRead_memFill (m : Memory) (n x : Nat) :
    memRead (memFill m n) x = if x < n then Memory.unlisted else memRead m x := by
  induction m with
  | nil => simp [memFill]
  | cons d m ih =>
    obtain ⟨b, w⟩ := d
    by_cases hb : n ≤ b
    · have : memFill ((b, w) :: m) n = (b, w) :: memFill m n := by simp [memFill, hb]
      rw [this, memRead_cons, memRead_cons, ih]
      by_cases hx : x = b
      · simp [hx, Nat.not_lt.2 hb]
      · simp [hx]
    · have : memFill ((b, w) :: m) n = memFill m n := by simp [memFill, hb]
      rw [this, memRead_cons, ih]
      by_cases hx : x < n
      · simp [hx]
      · have : x ≠ b := by omega
        simp [hx, this]

end Sys2Proof.Machine
end

