-- ==== Sys2Proof/Laws/Transport.lean ====
section
/-! SUPPORT. What each transport primitive does, once, as a whole state: the events it appends, the draws it takes and
the lines it moves. -/

namespace Sys2Proof.Machine

@[simp] theorem finish_eq (res : Result) (s : State) : finish res s = .next (complete .ok res s) := rfl

@[simp] theorem raise_eq (st : Status) (res : Result) (s : State) : raise st res s = .next (complete st res s) := rfl

/-! ## States with the framer moved and events recorded -/

@[simp] theorem framed_lzss (s : State) (f : Frm) (ev : List Event) : (s.framed f ev).lzss = s.lzss := rfl
@[simp] theorem framed_crc (s : State) (f : Frm) (ev : List Event) : (s.framed f ev).crc = s.crc := rfl
@[simp] theorem framed_frm (s : State) (f : Frm) (ev : List Event) : (s.framed f ev).frm = f := rfl
@[simp] theorem framed_refMode (s : State) (f : Frm) (ev : List Event) : (s.framed f ev).refMode = s.refMode := rfl
@[simp] theorem framed_env_host (s : State) (f : Frm) (ev : List Event) : (s.framed f ev).env.host = s.env.host := rfl
@[simp] theorem framed_env_rx (s : State) (f : Frm) (ev : List Event) : (s.framed f ev).env.rx = s.env.rx := rfl
@[simp] theorem framed_env_hrdy (s : State) (f : Frm) (ev : List Event) : (s.framed f ev).env.hrdy = s.env.hrdy := rfl
@[simp] theorem framed_env_draws (s : State) (f : Frm) (ev : List Event) : (s.framed f ev).env.draws = s.env.draws := rfl
@[simp] theorem framed_env_trace (s : State) (f : Frm) (ev : List Event) :
    (s.framed f ev).env.trace = s.env.trace ++ ev := rfl

@[simp] theorem framed_framed (s : State) (f g : Frm) (a b : List Event) :
    (s.framed f a).framed g b = s.framed g (a ++ b) := by simp [State.framed]

@[simp] theorem framed_self (s : State) : s.framed s.frm [] = s := by simp [State.framed]

theorem ended_eq_framed (s : State) (st : Status) (res : Result) : s.ended st res = s.framed s.frm [.done st res] := rfl

theorem emit_eq (e : Event) (s : State) : s.emit e = s.framed s.frm [e] := rfl

theorem complete_eq (st : Status) (res : Result) (s : State) : complete st res s = s.framed s.frm [.done st res] := rfl

theorem deselect_eq (s : State) : deselect s = s.framed { s.frm with cs := false } [.csDeassert] := rfl

theorem wordEvents_eq (w : Half) : wordEvents w = [.tx (hi w), .tx (lo w)] := by
  have h : BitVec.ofNat 8 (w.toNat / 256) = hi w := by
    apply BitVec.eq_of_toNat_eq
    rw [hi_toNat, BitVec.toNat_ofNat]
    omega
  have l : BitVec.ofNat 8 (w.toNat % 256) = lo w := by
    apply BitVec.eq_of_toNat_eq
    rw [lo_toNat, BitVec.toNat_ofNat]
    omega
  rw [wordEvents, h, l]

theorem txBytes_eq (bs : List Byte) (s : State) : txBytes bs s = s.framed s.frm (bs.map .tx) := by
  induction bs generalizing s with
  | nil => simp [txBytes]
  | cons b bs ih =>
    have : txBytes (b :: bs) s = txBytes bs (txByte b s) := rfl
    rw [this, ih, show txByte b s = s.framed s.frm [.tx b] from rfl]
    simp

theorem tx16_eq (w : Half) (s : State) : tx16 w s = s.framed s.frm (wordEvents w) := by
  rw [wordEvents_eq, show tx16 w s = (s.framed s.frm [.tx (hi w)]).framed s.frm [.tx (lo w)] from rfl]
  simp

theorem txHalves_eq (ws : List Half) (s : State) : txHalves ws s = s.framed s.frm (ws.flatMap wordEvents) := by
  induction ws generalizing s with
  | nil => simp [txHalves]
  | cons w ws ih =>
    have : txHalves (w :: ws) s = txHalves ws (tx16 w s) := rfl
    rw [this, ih, tx16_eq]
    simp

/-- The head of every frame (R180): chip-select asserted, the code sent in command mode, the line left at DATA. -/
theorem openFrame_eq (code : Half) (s : State) :
    openFrame code s = s.framed (s.frm.lines true) (headEvents s.frm code) := by
  rcases s with ⟨l, c, f, e, m⟩
  cases hd : f.hasDc <;>
    simp [openFrame, dataMode, commandMode, select, tx16_eq, State.emit, State.framed, headEvents, lineEvent, Frm.lines, hd]

/-! ## Draws -/

theorem rxByte_eq (s : State) :
    rxByte s = (s.env.drawn 0, { s with env := s.env.afterRx 1 [.rx (s.env.drawn 0)] }) := by
  rcases s with ⟨l, c, f, ⟨h, rx, hr, d, t⟩, m⟩
  cases rx with
  | nil => simp [rxByte, Env.drawn, Env.afterRx, State.emit]
  | cons b rx => simp [rxByte, Env.drawn, Env.afterRx, State.emit]

/-- The draws to come do not depend on what has been recorded. -/
@[simp] theorem drawn_withTrace (e : Env) (t : List Event) (i : Nat) :
    Env.drawn { e with trace := t } i = e.drawn i := rfl

/-- The draws to come after some have been taken. -/
@[simp] theorem drawn_afterRx (e : Env) (n : Nat) (ev : List Event) (i : Nat) :
    (e.afterRx n ev).drawn i = e.drawn (n + i) := by
  rcases e with ⟨h, rx, hr, d, t⟩
  simp only [Env.drawn, Env.afterRx, List.length_drop]
  by_cases h1 : n + i < rx.length
  · have h2 : i < rx.length - n := by omega
    simp [h1, h2, List.getD_eq_getElem?_getD]
  · have h2 : ¬ i < rx.length - n := by omega
    simp only [h1, h2, if_false]
    congr 1
    omega

@[simp] theorem afterRx_afterRx (e : Env) (n k : Nat) (a b : List Event) :
    (e.afterRx n a).afterRx k b = e.afterRx (n + k) (a ++ b) := by
  rcases e with ⟨h, rx, hr, d, t⟩
  simp only [Env.afterRx, List.drop_drop, List.length_drop, List.append_assoc]
  congr 1
  omega

@[simp] theorem afterRx_withTrace (e : Env) (a : List Event) (n : Nat) (b : List Event) :
    Env.afterRx { e with trace := e.trace ++ a } n b = e.afterRx n (a ++ b) := by
  simp [Env.afterRx]

theorem rx16_eq (s : State) :
    rx16 s = (be16 (s.env.drawn 0) (s.env.drawn 1),
      { s with env := s.env.afterRx 2 [.rx (s.env.drawn 0), .rx (s.env.drawn 1)] }) := by
  simp [rx16, rxByte_eq]

@[simp] theorem withTrace_afterRx (e : Env) (n : Nat) (a b : List Event) :
    { e.afterRx n a with trace := (e.afterRx n a).trace ++ b } = e.afterRx n (a ++ b) := by
  simp [Env.afterRx]

/-- The register-read frame (R101, R182): four bytes received, the last two the value. -/
theorem readRegister_eq (addr : Half) (s : State) :
    readRegister addr s =
      (be16 (s.env.drawn 2) (s.env.drawn 3),
        { s with
          frm := s.frm.lines false
          env := s.env.afterRx 4 (headEvents s.frm s.frm.rdop ++ wordEvents addr ++
            [.rx (s.env.drawn 0), .rx (s.env.drawn 1), .rx (s.env.drawn 2), .rx (s.env.drawn 3), .csDeassert]) }) := by
  simp only [readRegister, rx16_eq, tx16_eq, openFrame_eq, State.framed, deselect, State.emit, List.append_assoc,
    afterRx_withTrace, afterRx_afterRx, drawn_withTrace, drawn_afterRx, withTrace_afterRx, List.cons_append,
    List.nil_append, Nat.reduceAdd, Frm.lines]

/-- A sample of the ready line takes one draw and appends one event. -/
theorem sampleReady_spec (s : State) :
    ∃ h rest k, sampleReady s = (h, { s with env := { s.env with
      hrdy := rest, draws := s.env.draws + k, trace := s.env.trace ++ [.hrdy h] } }) := by
  rcases s with ⟨l, c, f, ⟨h, rx, hr, d, t⟩, m⟩
  cases hr with
  | nil => exact ⟨_, _, 1, rfl⟩
  | cons b hr => exact ⟨_, _, 0, rfl⟩

end Sys2Proof.Machine
end

