-- ==== Sys2Proof/Laws/Lzss.lean ====
section
/-! SUPPORT. What the shared operations of the LZSS unit can do: they change the LZSS unit alone and record events of the
`SRC` and `SNK` ports and completions, none of the transport. -/

namespace Sys2Proof.Machine

/-! ## One update -/

@[simp] theorem lzssAs_lzss (s : State) (l : Lzss) (ev : List Event) : (s.lzssAs l ev).lzss = l := rfl
@[simp] theorem lzssAs_crc (s : State) (l : Lzss) (ev : List Event) : (s.lzssAs l ev).crc = s.crc := rfl
@[simp] theorem lzssAs_frm (s : State) (l : Lzss) (ev : List Event) : (s.lzssAs l ev).frm = s.frm := rfl
@[simp] theorem lzssAs_refMode (s : State) (l : Lzss) (ev : List Event) : (s.lzssAs l ev).refMode = s.refMode := rfl
@[simp] theorem lzssAs_env_host (s : State) (l : Lzss) (ev : List Event) : (s.lzssAs l ev).env.host = s.env.host := rfl
@[simp] theorem lzssAs_env_rx (s : State) (l : Lzss) (ev : List Event) : (s.lzssAs l ev).env.rx = s.env.rx := rfl
@[simp] theorem lzssAs_env_hrdy (s : State) (l : Lzss) (ev : List Event) : (s.lzssAs l ev).env.hrdy = s.env.hrdy := rfl
@[simp] theorem lzssAs_env_draws (s : State) (l : Lzss) (ev : List Event) : (s.lzssAs l ev).env.draws = s.env.draws := rfl
@[simp] theorem lzssAs_env_trace (s : State) (l : Lzss) (ev : List Event) :
    (s.lzssAs l ev).env.trace = s.env.trace ++ ev := rfl

@[simp] theorem lzssAs_lzssAs (s : State) (l l' : Lzss) (ev ev' : List Event) :
    (s.lzssAs l ev).lzssAs l' ev' = s.lzssAs l' (ev ++ ev') := by simp [State.lzssAs]

@[simp] theorem lzssAs_self (s : State) : s.lzssAs s.lzss [] = s := by simp [State.lzssAs]

theorem pullSrc_eq (w : LzssWait) (s : State) : pullSrc w s = s.lzssAs { s.lzss with wait := w } [.pull] := rfl

theorem pushSnk_eq (b : Byte) (w : LzssWait) (s : State) :
    pushSnk b w s = s.lzssAs { s.lzss with wait := w } [.push b] := rfl

theorem lzssEnd_eq (st : Status) (s : State) :
    lzssEnd st s = s.lzssAs { s.lzss with phase := .idle, wait := .none } [.done st .none] := rfl

theorem withLzss_eq (s : State) (l : Lzss) : { s with lzss := l } = s.lzssAs l [] := by simp [State.lzssAs]

theorem emit_eq_lzssAs (e : Event) (s : State) : s.emit e = s.lzssAs s.lzss [e] := rfl

/-- `t` is `s` with another LZSS unit and more events, none of them on the transport. -/
def LzssOnly (s t : State) : Prop := ∃ l ev, t = s.lzssAs l ev ∧ ∀ e ∈ ev, onTransport e = false

theorem LzssOnly.refl (s : State) : LzssOnly s s := ⟨s.lzss, [], by simp, by simp⟩

theorem LzssOnly.trans {s t u : State} (h : LzssOnly s t) (h' : LzssOnly t u) : LzssOnly s u := by
  obtain ⟨l, ev, rfl, hq⟩ := h
  obtain ⟨l', ev', rfl, hq'⟩ := h'
  refine ⟨l', ev ++ ev', by simp, fun e he => ?_⟩
  rcases List.mem_append.1 he with he | he
  · exact hq e he
  · exact hq' e he

theorem lzssOnly_withLzss (s : State) (l : Lzss) : LzssOnly s { s with lzss := l } := ⟨l, [], withLzss_eq s l, by simp⟩

theorem lzssOnly_emit {e : Event} (s : State) (h : onTransport e = false) : LzssOnly s (s.emit e) :=
  ⟨s.lzss, [e], rfl, by simpa using h⟩

theorem lzssOnly_pullSrc (w : LzssWait) (s : State) : LzssOnly s (pullSrc w s) := ⟨_, _, pullSrc_eq w s, by simp [onTransport]⟩

theorem lzssOnly_pushSnk (b : Byte) (w : LzssWait) (s : State) : LzssOnly s (pushSnk b w s) :=
  ⟨_, _, pushSnk_eq b w s, by simp [onTransport]⟩

theorem lzssOnly_lzssEnd (st : Status) (s : State) : LzssOnly s (lzssEnd st s) :=
  ⟨_, _, lzssEnd_eq st s, by simp [onTransport]⟩

/-! ## The encoder -/

theorem lzssOnly_encFlushBits (s : State) : LzssOnly s (encFlushBits s) := by
  unfold encFlushBits
  split
  · exact lzssOnly_lzssEnd ..
  · exact lzssOnly_pushSnk ..

theorem lzssOnly_encLoop (fuel : Nat) (s : State) : LzssOnly s (encLoop fuel s) := by
  induction fuel generalizing s with
  | zero =>
    unfold encLoop
    split
    · exact lzssOnly_pullSrc ..
    · split <;> exact lzssOnly_encFlushBits s
  | succ fuel ih =>
    unfold encLoop
    split
    · exact lzssOnly_pullSrc ..
    · split
      · exact lzssOnly_encFlushBits s
      · dsimp only
        split
        · exact (lzssOnly_withLzss s _).trans (lzssOnly_pushSnk ..)
        · exact (lzssOnly_withLzss s _).trans (ih _)

theorem lzssOnly_encResume (rest : List Bool) (y : Nat) (s : State) : LzssOnly s (encResume rest y s) := by
  unfold encResume
  split
  · exact (lzssOnly_withLzss s _).trans (lzssOnly_pushSnk ..)
  · exact (lzssOnly_withLzss s _).trans (lzssOnly_encLoop ..)

theorem lzssOnly_encOnSrc (a : SrcAnswer) (s : State) : LzssOnly s (encOnSrc a s) := by
  cases a
  · exact (lzssOnly_withLzss s _).trans (lzssOnly_encLoop ..)
  · exact (lzssOnly_withLzss s _).trans (lzssOnly_encLoop ..)
  · exact lzssOnly_lzssEnd ..

theorem lzssOnly_encOnPush (rest : List Bool) (y : Nat) (a : SnkAnswer) (s : State) :
    LzssOnly s (encOnPush rest y a s) := by
  cases a
  · exact (lzssOnly_withLzss s _).trans (lzssOnly_encResume ..)
  · exact lzssOnly_lzssEnd ..

theorem lzssOnly_encOnFlush (a : SnkAnswer) (s : State) : LzssOnly s (encOnFlush a s) := by
  cases a <;> exact lzssOnly_lzssEnd ..

/-! ## The decoder -/

theorem lzssOnly_runLit (c : Byte) (s : State) : LzssOnly s (runLit c s) := lzssOnly_pushSnk ..

theorem lzssOnly_runMatch (ref len : Nat) (s : State) : LzssOnly s (runMatch ref len s) := lzssOnly_pushSnk ..

/-- The state of a token that is complete, or of the transaction that is open. -/
def fetchedState : (Token × State) ⊕ State → State
  | .inl (_, s) => s
  | .inr s => s

theorem lzssOnly_decBits (k : Nat) (bits : List Bool) (s : State) : LzssOnly s (fetchedState (decBits k bits s)) := by
  induction k generalizing bits s with
  | zero => exact lzssOnly_pullSrc ..
  | succ k ih =>
    unfold decBits
    split
    · exact lzssOnly_pullSrc ..
    · dsimp only
      split
      · exact lzssOnly_withLzss s _
      · exact (lzssOnly_withLzss s _).trans (ih ..)

theorem lzssOnly_decOnSrc (bits : List Bool) (a : SrcAnswer) (s : State) :
    LzssOnly s (fetchedState (decOnSrc bits a s)) := by
  cases a
  · exact (lzssOnly_withLzss s _).trans (lzssOnly_decBits ..)
  · exact lzssOnly_lzssEnd ..
  · exact lzssOnly_lzssEnd ..

theorem lzssOnly_decOnPush (c : Byte) (src left : Nat) (a : SnkAnswer) (s : State) :
    LzssOnly s (fetchedState (decOnPush c src left a s)) := by
  cases a
  · cases left
    · exact (lzssOnly_withLzss s _).trans (lzssOnly_decBits ..)
    · exact (lzssOnly_withLzss s _).trans (lzssOnly_pushSnk ..)
  · exact lzssOnly_lzssEnd ..

end Sys2Proof.Machine
end

