-- ==== Sys2Proof/Laws/Step.lean ====
section
/-! SUPPORT. What one step can do, by the input it takes. -/

namespace Sys2Proof.Machine

/-- The state with the next input taken off the host's list. -/
def State.taken (s : State) (rest : List HostInput) : State := { s with env := { s.env with host := rest } }

/-- Every instruction has a meaning: `exec` answers a next state. -/
theorem exec_next (i : Instr) (s : State) : ∃ t, exec i s = .next t := by
  cases i <;>
    simp only [exec, execCfgRd, execCfgWr, execLzssEnc, execLzssDec, execCrcInit, execCrcUpd, execCrcChk, execFrmSend,
      execFrmRdreg, execFrmWrreg, execFrmBbeginC, execFrmBbeginR, execFrmBword, execFrmBraw, execFrmBend, execFrmWait,
      execScrIdx, execLit, execMatch74, execMatch104, finish, raise] <;>
    repeat' split
  all_goals exact ⟨_, rfl⟩

theorem step_illegal {s : State} {bytes : List Byte} {rest : List HostInput} {op : Byte}
    (h : s.env.host = .op bytes :: rest) (hd : decodeOp bytes = .error (.illegalOp op)) :
    step s = .next (complete .errOp .none ((s.taken rest).emit (.presentedCode op))) := by
  simp [step, fetchNext, h, fetchOp, hd, State.taken]

theorem step_reset {s : State} {rest : List HostInput} (h : s.env.host = .reset :: rest) :
    step s = .next (resetEvent (s.taken rest)) := by
  simp [step, fetchNext, h, State.taken]

/-- What a completed token does, whether it runs as an instruction of its own row or by the shared operation. -/
def runToken (token : Token) (s : State) : State :=
  match tokenInstr s.lzss.ei.toNat s.lzss.ej.toNat token, token with
  | some (.lit c), _ => runLit c s
  | some (.match74 ref len), _ => runMatch ref.toNat len.toNat s
  | some (.match104 ref len), _ => runMatch ref.toNat len.toNat s
  | _, .lit c => runLit c s
  | _, .pair ref len => runMatch ref len s

@[simp] theorem runToken_lit (c : Byte) (s : State) : runToken (.lit c) s = runLit c s := by
  simp [runToken, tokenInstr]

/-- With fields of their widths, a MATCH means the same whether its pair has a row or not (log 14). -/
theorem runToken_pair {ref len : Nat} {s : State} (h1 : ref < 2 ^ s.lzss.ei.toNat) (h2 : len < 2 ^ s.lzss.ej.toNat) :
    runToken (.pair ref len) s = runMatch ref len s := by
  simp only [runToken, tokenInstr]
  split_ifs with hp hq
  · rw [hp.1] at h1
    rw [hp.2] at h2
    simp only [BitVec.toNat_ofNat, Nat.mod_eq_of_lt h1, Nat.mod_eq_of_lt h2]
  · rw [hq.1] at h1
    rw [hq.2] at h2
    simp only [BitVec.toNat_ofNat, Nat.mod_eq_of_lt h1, Nat.mod_eq_of_lt h2]
  · rfl

/-- Every token opens one push. -/
theorem runToken_push (token : Token) (s : State) : ∃ c src left, runToken token s = pushSnk c (.decPush c src left) s := by
  unfold runToken
  split <;> exact ⟨_, _, _, rfl⟩

/-- What a fetch that is no fault and no refusal runs. -/
def Fetched.answer : Fetched → Answer
  | .run i s => exec i s
  | .state s => .next s
  | .fault r => .fault r
  | .refused r => .refused r

theorem step_eq (s : State) : step s = (fetchNext s).answer := by
  unfold step Fetched.answer
  rfl

theorem fetchToken_inr (s : State) : (fetchToken (.inr s)).answer = .next s := rfl

theorem fetchToken_inl (token : Token) (s : State) :
    (fetchToken (.inl (token, s))).answer = .next (runToken token s) := by
  cases token with
  | lit c => simp [fetchToken, tokenInstr, Fetched.answer, exec, execLit]
  | pair ref len =>
    simp only [fetchToken, tokenInstr, runToken]
    split_ifs <;> simp [Fetched.answer, exec, execMatch74, execMatch104]

/-- Where a fetch of the decoder leaves the machine. -/
def afterFetch : (Token × State) ⊕ State → State
  | .inl (token, s) => runToken token s
  | .inr s => s

theorem answer_fetchToken (x : (Token × State) ⊕ State) : (fetchToken x).answer = .next (afterFetch x) := by
  rcases x with ⟨token, s⟩ | s
  · exact fetchToken_inl token s
  · rfl

theorem lzssOnly_afterFetch {s : State} {x : (Token × State) ⊕ State} (h : LzssOnly s (fetchedState x)) :
    LzssOnly s (afterFetch x) := by
  rcases x with ⟨token, u⟩ | u
  · obtain ⟨c, src, left, he⟩ := runToken_push token u
    exact h.trans (by rw [afterFetch, he]; exact lzssOnly_pushSnk ..)
  · exact h

/-- A step that takes an answer of the source. -/
theorem step_src_enc {s : State} {a : SrcAnswer} {rest : List HostInput} (h : s.env.host = .src a :: rest)
    (hw : s.lzss.wait = .encPull) : step s = .next (encOnSrc a ((s.taken rest).emit (.pulled a))) := by
  simp [step_eq, fetchNext, h, fetchSrc, hw, Fetched.answer, State.taken]

theorem step_src_dec {s : State} {a : SrcAnswer} {rest : List HostInput} {bits : List Bool}
    (h : s.env.host = .src a :: rest) (hw : s.lzss.wait = .decPull bits) :
    step s = .next (afterFetch (decOnSrc bits a ((s.taken rest).emit (.pulled a)))) := by
  simp only [step_eq, fetchNext, h, fetchSrc, hw]
  exact answer_fetchToken _

/-- A step that takes an answer of the sink. -/
theorem step_snk_push {s : State} {a : SnkAnswer} {rest : List HostInput} {bits : List Bool} {y : Nat}
    (h : s.env.host = .snk a :: rest) (hw : s.lzss.wait = .encPush bits y) :
    step s = .next (encOnPush bits y a ((s.taken rest).emit (.pushed s.lzss.wbuf a))) := by
  simp [step_eq, fetchNext, h, fetchSnk, hw, Fetched.answer, State.taken]

theorem step_snk_flush {s : State} {a : SnkAnswer} {rest : List HostInput}
    (h : s.env.host = .snk a :: rest) (hw : s.lzss.wait = .encFlush) :
    step s = .next (encOnFlush a ((s.taken rest).emit (.pushed s.lzss.wbuf a))) := by
  simp [step_eq, fetchNext, h, fetchSnk, hw, Fetched.answer, State.taken]

theorem step_snk_dec {s : State} {a : SnkAnswer} {rest : List HostInput} {c : Byte} {src left : Nat}
    (h : s.env.host = .snk a :: rest) (hw : s.lzss.wait = .decPush c src left) :
    step s = .next (afterFetch (decOnPush c src left a ((s.taken rest).emit (.pushed c a)))) := by
  simp only [step_eq, fetchNext, h, fetchSnk, hw]
  exact answer_fetchToken _

/-- Everything a step that answers a next state can have done. -/
theorem step_cases {s t : State} (h : step s = .next t) :
    (s.env.host = [] ∧ t = s) ∨
    (∃ bytes rest i, s.env.host = .op bytes :: rest ∧ decodeOp bytes = .ok (i, []) ∧
      exec i ((s.taken rest).emit (.presented i)) = .next t) ∨
    (∃ bytes rest op, s.env.host = .op bytes :: rest ∧ decodeOp bytes = .error (.illegalOp op) ∧
      t = complete .errOp .none ((s.taken rest).emit (.presentedCode op))) ∨
    (∃ a rest, s.env.host = .src a :: rest ∧ s.lzss.wait = .encPull ∧
      t = encOnSrc a ((s.taken rest).emit (.pulled a))) ∨
    (∃ bits a rest, s.env.host = .src a :: rest ∧ s.lzss.wait = .decPull bits ∧
      t = afterFetch (decOnSrc bits a ((s.taken rest).emit (.pulled a)))) ∨
    (∃ bits y a rest, s.env.host = .snk a :: rest ∧ s.lzss.wait = .encPush bits y ∧
      t = encOnPush bits y a ((s.taken rest).emit (.pushed s.lzss.wbuf a))) ∨
    (∃ a rest, s.env.host = .snk a :: rest ∧ s.lzss.wait = .encFlush ∧
      t = encOnFlush a ((s.taken rest).emit (.pushed s.lzss.wbuf a))) ∨
    (∃ c src left a rest, s.env.host = .snk a :: rest ∧ s.lzss.wait = .decPush c src left ∧
      t = afterFetch (decOnPush c src left a ((s.taken rest).emit (.pushed c a)))) ∨
    (∃ rest, s.env.host = .reset :: rest ∧ t = resetEvent (s.taken rest)) := by
  rcases hh : s.env.host with _ | ⟨⟨bytes⟩ | ⟨a⟩ | ⟨a⟩ | _, rest⟩
  · simp only [step, fetchNext, hh] at h
    exact .inl ⟨rfl, by simpa using h.symm⟩
  · rcases hd : decodeOp bytes with e | ⟨i, _ | ⟨b, bs⟩⟩
    · cases e with
      | illegalOp op =>
        rw [step_illegal hh hd] at h
        exact .inr (.inr (.inl ⟨bytes, rest, op, rfl, hd, by simpa using h.symm⟩))
      | noOperation | missingOperand _ | noToken | noRow _ => simp [step, fetchNext, hh, fetchOp, hd] at h
    · simp only [step, fetchNext, hh, fetchOp, hd] at h
      exact .inr (.inl ⟨bytes, rest, i, rfl, hd, h⟩)
    · simp [step, fetchNext, hh, fetchOp, hd] at h
  · cases hw : s.lzss.wait with
    | encPull =>
      rw [step_src_enc hh hw] at h
      exact .inr (.inr (.inr (.inl ⟨a, rest, rfl, rfl, by simpa using h.symm⟩)))
    | decPull bits =>
      rw [step_src_dec hh hw] at h
      exact .inr (.inr (.inr (.inr (.inl ⟨bits, a, rest, rfl, rfl, by simpa using h.symm⟩))))
    | none | encPush _ _ | encFlush | decPush _ _ _ => simp [step, fetchNext, hh, fetchSrc, hw] at h
  · cases hw : s.lzss.wait with
    | encPush bits y =>
      rw [step_snk_push hh hw] at h
      exact .inr (.inr (.inr (.inr (.inr (.inl ⟨bits, y, a, rest, rfl, rfl, by simpa using h.symm⟩)))))
    | encFlush =>
      rw [step_snk_flush hh hw] at h
      exact .inr (.inr (.inr (.inr (.inr (.inr (.inl ⟨a, rest, rfl, rfl, by simpa using h.symm⟩))))))
    | decPush c src left =>
      rw [step_snk_dec hh hw] at h
      exact .inr (.inr (.inr (.inr (.inr (.inr (.inr (.inl ⟨c, src, left, a, rest, rfl, rfl, by simpa using h.symm⟩)))))))
    | none | encPull | decPull _ => simp [step, fetchNext, hh, fetchSnk, hw] at h
  · rw [step_reset hh] at h
    exact .inr (.inr (.inr (.inr (.inr (.inr (.inr (.inr ⟨rest, rfl, by simpa using h.symm⟩)))))))

/-- Where the source or the sink has answered, only the LZSS unit has moved. -/
theorem step_answer_lzssOnly {s t : State} {input : HostInput} {rest : List HostInput} (h : step s = .next t)
    (hh : s.env.host = input :: rest) (ho : ∀ bytes, input ≠ .op bytes) (hr : input ≠ .reset) :
    LzssOnly (s.taken rest) t := by
  have quiet1 : ∀ a, LzssOnly (s.taken rest) ((s.taken rest).emit (.pulled a)) := fun a => lzssOnly_emit _ rfl
  have quiet2 : ∀ b a, LzssOnly (s.taken rest) ((s.taken rest).emit (.pushed b a)) := fun b a => lzssOnly_emit _ rfl
  rcases step_cases h with ⟨h1, -⟩ | ⟨b, r, i, h1, -⟩ | ⟨b, r, o, h1, -⟩ | ⟨a, r, h1, -, rfl⟩ | ⟨b, a, r, h1, -, rfl⟩ |
    ⟨b, y, a, r, h1, -, rfl⟩ | ⟨a, r, h1, -, rfl⟩ | ⟨c, src, l, a, r, h1, -, rfl⟩ | ⟨r, h1, -⟩ <;> rw [hh] at h1
  · cases h1
  · exact absurd (List.cons.inj h1).1 (ho b)
  · exact absurd (List.cons.inj h1).1 (ho b)
  · obtain ⟨-, rfl⟩ := List.cons.inj h1
    exact (quiet1 a).trans (lzssOnly_encOnSrc ..)
  · obtain ⟨-, rfl⟩ := List.cons.inj h1
    exact (quiet1 a).trans (lzssOnly_afterFetch (lzssOnly_decOnSrc ..))
  · obtain ⟨-, rfl⟩ := List.cons.inj h1
    exact (quiet2 _ a).trans (lzssOnly_encOnPush ..)
  · obtain ⟨-, rfl⟩ := List.cons.inj h1
    exact (quiet2 _ a).trans (lzssOnly_encOnFlush ..)
  · obtain ⟨-, rfl⟩ := List.cons.inj h1
    exact (quiet2 _ a).trans (lzssOnly_afterFetch (lzssOnly_decOnPush ..))
  · exact absurd (List.cons.inj h1).1 hr

end Sys2Proof.Machine
end

