-- ==== Sys2Proof/Laws/Exec.lean ====
section
/-! SUPPORT. What an instruction can change, unit by unit: an FRM operation moves the framer's lines and the transport,
an LZSS operation or a token the LZSS unit, a CRC operation the accumulator, CFG.WR a configuration field. -/

namespace Sys2Proof.Machine

/-! ## The framer -/

/-- `t` is `s` after the framer has moved its lines and recorded `ev`: its configuration, the other units and what the
host does next are as before. -/
structure FrmMoved (s t : State) (ev : List Event) : Prop where
  lzss : t.lzss = s.lzss
  crc : t.crc = s.crc
  refMode : t.refMode = s.refMode
  host : t.env.host = s.env.host
  trace : t.env.trace = s.env.trace ++ ev
  frm : t.frm = { s.frm with cs := t.frm.cs, dc := t.frm.dc, phase := t.frm.phase }

theorem FrmMoved.refl (s : State) : FrmMoved s s [] := ⟨rfl, rfl, rfl, rfl, by simp, rfl⟩

theorem FrmMoved.trans {s t u : State} {a b : List Event} (h : FrmMoved s t a) (h' : FrmMoved t u b) :
    FrmMoved s u (a ++ b) where
  lzss := h'.lzss.trans h.lzss
  crc := h'.crc.trans h.crc
  refMode := h'.refMode.trans h.refMode
  host := h'.host.trans h.host
  trace := by rw [h'.trace, h.trace, List.append_assoc]
  frm := by rw [h'.frm, h.frm]

/-- A list of events with a known effect on chip-select, then another. -/
theorem csThrough_append {cs cs' : Bool} {a : List Event} (h : csThrough cs a = some cs') (b : List Event) :
    csThrough cs (a ++ b) = csThrough cs' b := by
  induction a generalizing cs with
  | nil => simp only [csThrough, Option.some.injEq] at h; simp [h]
  | cons e a ih =>
    simp only [csThrough, List.cons_append] at h ⊢
    split at h
    · cases h
    · rename_i c hc
      simpa [hc] using ih h

/-- Transmitted bytes leave chip-select asserted. -/
theorem csThrough_tx (bs : List Byte) : csThrough true (bs.map Event.tx) = some true := by
  induction bs with
  | nil => rfl
  | cons b bs ih => simpa [csThrough, csAfter] using ih

theorem csThrough_quiet {cs : Bool} {ev : List Event} (h : ∀ e ∈ ev, onTransport e = false) :
    csThrough cs ev = some cs := by
  induction ev with
  | nil => rfl
  | cons e ev ih =>
    have he := h e (by simp)
    have ih := ih fun e he => h e (by simp [he])
    cases e <;> simp_all [csThrough, csAfter, onTransport]

@[simp] theorem lines_lines (f : Frm) (a b : Bool) : (f.lines a).lines b = f.lines b := by
  cases hd : f.hasDc <;> simp [Frm.lines, hd]

@[simp] theorem lines_cs (f : Frm) (a : Bool) : (f.lines a).cs = a := rfl

@[simp] theorem lines_phase (f : Frm) (a : Bool) : (f.lines a).phase = f.phase := rfl

/-- The head of a frame asserts chip-select. -/
theorem csThrough_head (f : Frm) (code : Half) : csThrough false (headEvents f code) = some true := by
  cases hd : f.hasDc <;> simp [headEvents, lineEvent, wordEvents, csThrough, csAfter, hd]

theorem csThrough_word (w : Half) : csThrough true (wordEvents w) = some true := rfl

theorem csThrough_words (ws : List Half) : csThrough true (ws.flatMap wordEvents) = some true := by
  induction ws with
  | nil => rfl
  | cons w ws ih => rw [List.flatMap_cons, csThrough_append (csThrough_word w), ih]

theorem done_not_mem_head (f : Frm) (code : Half) (st : Status) (res : Result) :
    Event.done st res ∉ headEvents f code := by
  cases hd : f.hasDc <;> simp [headEvents, lineEvent, wordEvents, hd]

theorem done_not_mem_word (w : Half) (st : Status) (res : Result) : Event.done st res ∉ wordEvents w := by
  simp [wordEvents]

theorem framed_moved (s : State) (cs : Bool) (dc : DcLevel) (p : FrmPhase) (ev : List Event) :
    FrmMoved s (s.framed { s.frm with cs := cs, dc := dc, phase := p } ev) ev := ⟨rfl, rfl, rfl, rfl, rfl, rfl⟩

theorem readRegister_moved (addr : Half) (s : State) : ∃ ev, FrmMoved s (readRegister addr s).2 ev ∧
    (readRegister addr s).2.frm = s.frm.lines false ∧
    (s.frm.cs = false → csThrough false ev = some false) ∧ (∀ st res, Event.done st res ∉ ev) := by
  rw [readRegister_eq]
  refine ⟨_, ⟨rfl, rfl, rfl, rfl, rfl, rfl⟩, rfl, fun _ => ?_, fun st res => ?_⟩
  · rw [List.append_assoc, csThrough_append (csThrough_head ..), csThrough_append (csThrough_word _)]
    rfl
  · simp [done_not_mem_head, done_not_mem_word]

/-- One poll (R190): the lines come to rest as they were, or as a whole frame leaves them. -/
theorem busy_moved (s : State) : ∃ ev, FrmMoved s (busy s).2 ev ∧
    ((busy s).2.frm = s.frm ∨ (busy s).2.frm = s.frm.lines false) ∧
    (s.frm.cs = false → csThrough false ev = some false) ∧ (∀ st res, Event.done st res ∉ ev) := by
  unfold busy
  split
  · obtain ⟨h, rest, k, he⟩ := sampleReady_spec s
    rw [he]
    exact ⟨[.hrdy h], ⟨rfl, rfl, rfl, rfl, rfl, rfl⟩, .inl rfl, fun _ => rfl, by simp⟩
  · obtain ⟨ev, h1, h2, h3, h4⟩ := readRegister_moved s.frm.staddr s
    exact ⟨ev, h1, .inr h2, h3, h4⟩

/-- The polls of FRM.WAIT (R189). -/
theorem pollUntilIdle_moved (t : Nat) (s : State) : ∃ ev, FrmMoved s (pollUntilIdle t s).2 ev ∧
    ((pollUntilIdle t s).2.frm = s.frm ∨ (pollUntilIdle t s).2.frm = s.frm.lines false) ∧
    (s.frm.cs = false → csThrough false ev = some false) ∧ (∀ st res, Event.done st res ∉ ev) := by
  induction t generalizing s with
  | zero => exact ⟨[], FrmMoved.refl s, .inl rfl, fun _ => rfl, by simp⟩
  | succ t ih =>
    obtain ⟨a, h1, h2, h3, h4⟩ := busy_moved s
    unfold pollUntilIdle
    split
    · rename_i s' he
      rw [he] at h1 h2
      dsimp only at h1 h2
      obtain ⟨b, k1, k2, k3, k4⟩ := ih s'
      refine ⟨a ++ b, h1.trans k1, ?_, fun hcs => ?_, fun st res hm => ?_⟩
      · rcases k2 with k2 | k2 <;> rcases h2 with h2 | h2 <;> simp [k2, h2]
      · rw [csThrough_append (h3 hcs)]
        refine k3 ?_
        rcases h2 with h2 | h2 <;> simp [h2, hcs]
      · rcases List.mem_append.1 hm with hm | hm
        · exact h4 st res hm
        · exact k4 st res hm
    · rename_i s' he
      rw [he] at h1 h2
      exact ⟨a, h1, h2, h3, h4⟩

/-! ## The units of the instructions -/

/-- The operations of the FRM unit. -/
def isFrm : Instr → Bool
  | .frmSend _ _ _ | .frmRdreg _ | .frmWrreg _ _ | .frmBbeginC _ | .frmBbeginR _ | .frmBword _ | .frmBraw _ _ | .frmBend
  | .frmWait _ => true
  | .cfgRd _ | .cfgWr _ _ | .lzssEnc | .lzssDec | .crcInit | .crcUpd _ _ | .crcChk _ | .scrIdx _ _ _ _ _ | .lit _
  | .match74 _ _ | .match104 _ _ => false

/-- The operations and tokens of the LZSS unit. -/
def isLzss : Instr → Bool
  | .lzssEnc | .lzssDec | .lit _ | .match74 _ _ | .match104 _ _ => true
  | .cfgRd _ | .cfgWr _ _ | .crcInit | .crcUpd _ _ | .crcChk _ | .scrIdx _ _ _ _ _ | .frmSend _ _ _ | .frmRdreg _
  | .frmWrreg _ _ | .frmBbeginC _ | .frmBbeginR _ | .frmBword _ | .frmBraw _ _ | .frmBend | .frmWait _ => false

/-- An LZSS operation or a token changes the LZSS unit alone. -/
theorem exec_isLzss {i : Instr} {s t : State} (hi : isLzss i = true) (h : exec i s = .next t) : LzssOnly s t := by
  cases i <;> simp only [isLzss, Bool.false_eq_true] at hi
  case lzssEnc =>
    simp only [exec, execLzssEnc] at h
    split at h <;> simp only [raise, Host.Outcome.next.injEq] at h <;> subst h
    · exact lzssOnly_emit _ rfl
    · exact (lzssOnly_withLzss s _).trans (lzssOnly_encLoop ..)
  case lzssDec =>
    simp only [exec, execLzssDec] at h
    split at h <;> simp only [raise, Host.Outcome.next.injEq] at h <;> subst h
    · exact lzssOnly_emit _ rfl
    · exact (lzssOnly_withLzss s _).trans (lzssOnly_pullSrc ..)
  all_goals
    simp only [exec, execLit, execMatch74, execMatch104, Host.Outcome.next.injEq] at h
    subst h
    exact lzssOnly_pushSnk ..

/-- What an FRM operation that answers `t` has done, having recorded `ev` before it completed. -/
structure FrmRan (s t : State) (ev : List Event) : Prop where
  moved : ∃ st res, FrmMoved s t (ev ++ [.done st res])
  undone : ∀ st res, Event.done st res ∉ ev
  dc : t.frm.dc = s.frm.dc ∨ t.frm.dc = .data
  cs : (s.frm.cs = true ↔ s.frm.phase = .burst) →
    (t.frm.cs = true ↔ t.frm.phase = .burst) ∧ csThrough s.frm.cs ev = some t.frm.cs

theorem lines_dc (f : Frm) (cs : Bool) : (f.lines cs).dc = f.dc ∨ (f.lines cs).dc = .data := by
  cases hd : f.hasDc <;> simp [Frm.lines, hd]

/-- An operation refused at once. -/
theorem frmRan_refused (s : State) (st : Status) (res : Result) : FrmRan s (complete st res s) [] :=
  ⟨⟨st, res, rfl, rfl, rfl, rfl, rfl, rfl⟩, by simp, .inl rfl, fun h => ⟨h, rfl⟩⟩

/-- An operation that ends after `ev` with the framer as `f`. -/
theorem frmRan_framed {s : State} {f : Frm} {ev : List Event} (st : Status) (res : Result)
    (hf : f = { s.frm with cs := f.cs, dc := f.dc, phase := f.phase }) (hu : ∀ st res, Event.done st res ∉ ev)
    (hd : f.dc = s.frm.dc ∨ f.dc = .data)
    (hc : (s.frm.cs = true ↔ s.frm.phase = .burst) →
      (f.cs = true ↔ f.phase = .burst) ∧ csThrough s.frm.cs ev = some f.cs) :
    FrmRan s (complete st res (s.framed f ev)) ev :=
  ⟨⟨st, res, rfl, rfl, rfl, rfl, by simp, hf⟩, hu, hd, hc⟩

theorem idle_of_bne {p : FrmPhase} (h : ¬ (p != .idle) = true) : p = .idle := by simpa using h

theorem burst_of_bne {p : FrmPhase} (h : ¬ (p != .burst) = true) : p = .burst := by simpa using h

/-- Outside a burst chip-select is deasserted. -/
theorem cs_of_idle {f : Frm} (hc : f.cs = true ↔ f.phase = .burst) (hp : f.phase = .idle) : f.cs = false := by
  cases h : f.cs
  · rfl
  · have := hc.1 h
    rw [hp] at this
    cases this

/-- An FRM operation moves the framer's lines and records transport events, then its completion. -/
theorem exec_isFrm {i : Instr} {s t : State} (hi : isFrm i = true) (h : exec i s = .next t) : ∃ ev, FrmRan s t ev := by
  cases i <;> simp only [isFrm, Bool.false_eq_true] at hi
  case frmSend cmd n p =>
    simp only [exec, execFrmSend, raise, finish] at h
    split at h
    · cases h; exact ⟨[], frmRan_refused ..⟩
    · rename_i hp
      split at h
      · cases h; exact ⟨[], frmRan_refused ..⟩
      · simp only [openFrame_eq, txHalves_eq, deselect_eq, framed_framed, framed_frm, Host.Outcome.next.injEq] at h
        subst h
        refine ⟨_, frmRan_framed _ _ rfl ?_ (lines_dc _ _) fun hc => ?_⟩
        · simp [done_not_mem_head, done_not_mem_word]
        · refine ⟨by simp [idle_of_bne hp], ?_⟩
          rw [cs_of_idle hc (idle_of_bne hp), List.append_assoc, csThrough_append (csThrough_head ..),
            csThrough_append (csThrough_words _)]
          rfl
  case frmRdreg a =>
    simp only [exec, execFrmRdreg, raise, finish] at h
    split at h
    · cases h; exact ⟨[], frmRan_refused ..⟩
    · rename_i hp
      cases h
      obtain ⟨ev, h1, h2, h3, h4⟩ := readRegister_moved a s
      refine ⟨ev, ⟨_, _, h1.trans (framed_moved _ _ _ _ _)⟩, h4, ?_, fun hc => ?_⟩
      · simpa [h2] using lines_dc s.frm false
      · simp [h2, idle_of_bne hp, cs_of_idle hc (idle_of_bne hp), h3 (cs_of_idle hc (idle_of_bne hp))]
  case frmWrreg a v =>
    simp only [exec, execFrmWrreg, raise, finish] at h
    split at h
    · cases h; exact ⟨[], frmRan_refused ..⟩
    · rename_i hp
      simp only [openFrame_eq, tx16_eq, deselect_eq, framed_framed, framed_frm, Host.Outcome.next.injEq] at h
      subst h
      refine ⟨_, frmRan_framed _ _ rfl ?_ (lines_dc _ _) fun hc => ?_⟩
      · simp [done_not_mem_head, done_not_mem_word]
      · refine ⟨by simp [idle_of_bne hp], ?_⟩
        simp only [List.append_assoc]
        rw [cs_of_idle hc (idle_of_bne hp), csThrough_append (csThrough_head ..), csThrough_append (csThrough_word _),
          csThrough_append (csThrough_word _)]
        rfl
  case frmBbeginC cmd =>
    simp only [exec, execFrmBbeginC, raise, finish] at h
    split at h
    · cases h; exact ⟨[], frmRan_refused ..⟩
    · rename_i hp
      simp only [openFrame_eq, Host.Outcome.next.injEq] at h
      subst h
      refine ⟨_, frmRan_framed _ _ rfl ?_ (lines_dc s.frm true) fun hc => ?_⟩
      · simp [done_not_mem_head]
      · exact ⟨by simp, by rw [cs_of_idle hc (idle_of_bne hp)]; exact csThrough_head ..⟩
  case frmBbeginR a =>
    simp only [exec, execFrmBbeginR, raise, finish] at h
    split at h
    · cases h; exact ⟨[], frmRan_refused ..⟩
    · rename_i hp
      simp only [openFrame_eq, tx16_eq, framed_framed, framed_frm, Host.Outcome.next.injEq] at h
      subst h
      refine ⟨_, frmRan_framed _ _ rfl ?_ (lines_dc s.frm true) fun hc => ?_⟩
      · simp [done_not_mem_head, done_not_mem_word]
      · refine ⟨by simp, ?_⟩
        rw [cs_of_idle hc (idle_of_bne hp), csThrough_append (csThrough_head ..)]
        exact csThrough_word _
  case frmBword w =>
    simp only [exec, execFrmBword, raise, finish] at h
    split at h
    · cases h; exact ⟨[], frmRan_refused ..⟩
    · rename_i hp
      simp only [tx16_eq, Host.Outcome.next.injEq] at h
      subst h
      refine ⟨_, frmRan_framed _ _ rfl ?_ (.inl rfl) fun hc => ⟨hc, ?_⟩⟩
      · simp [done_not_mem_word]
      · rw [hc.2 (burst_of_bne hp)]
        exact csThrough_word _
  case frmBraw n bytes =>
    simp only [exec, execFrmBraw, raise, finish] at h
    split at h
    · cases h; exact ⟨[], frmRan_refused ..⟩
    · rename_i hp
      simp only [txBytes_eq, Host.Outcome.next.injEq] at h
      subst h
      refine ⟨_, frmRan_framed _ _ rfl ?_ (.inl rfl) fun hc => ⟨hc, ?_⟩⟩
      · intro st res hm
        obtain ⟨b, -, hb⟩ := List.mem_map.1 hm
        cases hb
      · rw [hc.2 (burst_of_bne hp)]
        exact csThrough_tx _
  case frmBend =>
    simp only [exec, execFrmBend, raise, finish] at h
    split at h
    · cases h; exact ⟨[], frmRan_refused ..⟩
    · cases h
      exact ⟨_, frmRan_framed (f := { s.frm with cs := false, phase := .idle }) (ev := [.csDeassert]) _ _ rfl (by simp)
        (.inl rfl) fun _ => ⟨by simp, rfl⟩⟩
  case frmWait n =>
    simp only [exec, execFrmWait, raise, finish] at h
    split at h
    · cases h; exact ⟨[], frmRan_refused ..⟩
    · rename_i hp
      obtain ⟨ev, h1, h2, h3, h4⟩ := pollUntilIdle_moved n.toNat s
      have key : ∀ u st, (pollUntilIdle n.toNat s).2 = u → FrmRan s (complete st .none u) ev := by
        rintro _ st rfl
        refine ⟨⟨_, _, h1.trans (framed_moved _ _ _ _ _)⟩, h4, ?_, fun hc => ?_⟩
        · rcases h2 with h2 | h2
          · simp [h2]
          · simpa [h2] using lines_dc s.frm false
        · have hcs := cs_of_idle hc (idle_of_bne hp)
          rcases h2 with h2 | h2 <;> simp [h2, idle_of_bne hp, hcs, h3 hcs]
      split at h
      · rename_i u he
        cases h
        exact ⟨ev, key u _ (by rw [he])⟩
      · rename_i u he
        cases h
        exact ⟨ev, key u _ (by rw [he])⟩

/-- What a CFG, CRC or SCR operation leaves apart from its completion: the environment, the phases and the lines are as
before, the LZSS unit too unless it was idle, and then only its pair may have changed, to a legal one. -/
structure PlainRan (s u : State) : Prop where
  env : u.env = s.env
  refMode : u.refMode = s.refMode
  cs : u.frm.cs = s.frm.cs
  dc : u.frm.dc = s.frm.dc
  phase : u.frm.phase = s.frm.phase
  lzss : u.lzss = s.lzss ∨
    s.lzss.phase = .idle ∧ u.lzss = { s.lzss with ei := u.lzss.ei, ej := u.lzss.ej } ∧
      legalPair u.lzss.ei.toNat u.lzss.ej.toNat = true

theorem PlainRan.refl (s : State) : PlainRan s s := ⟨rfl, rfl, rfl, rfl, rfl, .inl rfl⟩

theorem plainRan_writeCsr {c : Csr} {val : Half} {s : State} (hb : csrBusy c s = false) (hl : csrLegal c val = true) :
    PlainRan s (writeCsr c val s) := by
  cases c
  case lzssCfg =>
    refine ⟨rfl, rfl, rfl, rfl, rfl, .inr ⟨?_, rfl, ?_⟩⟩
    · simpa [csrBusy] using hb
    · simp only [csrLegal, lzssCfgLegal, Bool.and_eq_true] at hl
      exact hl.2
  all_goals exact ⟨rfl, rfl, rfl, rfl, rfl, .inl rfl⟩

/-- A CFG, CRC or SCR operation completes without an event of its own. -/
theorem exec_plain {i : Instr} {s t : State} (h1 : isFrm i = false) (h2 : isLzss i = false) (h : exec i s = .next t) :
    ∃ u st res, t = u.ended st res ∧ PlainRan s u := by
  cases i <;> simp only [isFrm, isLzss, Bool.true_eq_false] at h1 h2
  case cfgRd idx =>
    simp only [exec, execCfgRd, raise, finish] at h
    split at h <;> cases h <;> exact ⟨s, _, _, rfl, PlainRan.refl s⟩
  case cfgWr idx val =>
    simp only [exec, execCfgWr, raise, finish] at h
    split at h
    · cases h; exact ⟨s, _, _, rfl, PlainRan.refl s⟩
    · split at h
      · cases h; exact ⟨s, _, _, rfl, PlainRan.refl s⟩
      · split at h
        · cases h; exact ⟨s, _, _, rfl, PlainRan.refl s⟩
        · rename_i hb
          split at h
          · rename_i hl
            cases h
            exact ⟨_, _, _, rfl, plainRan_writeCsr (by simpa using hb) hl⟩
          · cases h; exact ⟨s, _, _, rfl, PlainRan.refl s⟩
  case crcInit =>
    cases h
    exact ⟨_, _, _, rfl, rfl, rfl, rfl, rfl, rfl, .inl rfl⟩
  case crcUpd n bytes =>
    cases h
    exact ⟨_, _, _, rfl, rfl, rfl, rfl, rfl, rfl, .inl rfl⟩
  case crcChk w =>
    simp only [exec, execCrcChk, raise, finish] at h
    split at h <;> cases h <;> exact ⟨s, _, _, rfl, PlainRan.refl s⟩
  case scrIdx =>
    simp only [exec, execScrIdx, raise, finish] at h
    split at h <;> cases h <;> exact ⟨s, _, _, rfl, PlainRan.refl s⟩

end Sys2Proof.Machine
end

