-- ==== Sys2Proof/Laws/Invariant.lean ====
section
/-! SUPPORT. The shared operations of the LZSS unit keep what its rules say of its state (R21 to R27). -/

namespace Sys2Proof.Machine

/-! ## Pairs and sizes -/

theorem legalPair_iff (ei ej : Nat) :
    legalPair ei ej = true ↔ 1 ≤ ej ∧ ej < ei ∧ 7 ≤ ei + ej ∧ ei ≤ Config.eiMax := by
  have h : 10 ≤ Config.eiMax := Nat.le_add_right ..
  simp only [legalPair, withinEiMax, Bool.and_eq_true, Bool.or_eq_true, decide_eq_true_eq]
  omega

theorem Lzss.n_pos (l : Lzss) : 0 < l.n := Nat.two_pow_pos _

theorem Lzss.f_pos (l : Lzss) : 0 < l.f := Nat.succ_pos _

/-- The lookahead fits in the ring and leaves a distance to search (R21, D11). -/
theorem Lzss.f_lt_n {l : Lzss} (h : legalPair l.ei.toNat l.ej.toNat = true) : l.f < l.n := by
  obtain ⟨h1, h2, h3, -⟩ := (legalPair_iff _ _).1 h
  have a : 2 ^ (l.ej.toNat + 1) ≤ 2 ^ l.ei.toNat := Nat.pow_le_pow_right (by omega) h2
  have b : 2 ^ 1 ≤ 2 ^ l.ej.toNat := Nat.pow_le_pow_right (by omega) h1
  rw [pow_succ] at a
  change 2 ^ l.ej.toNat + 1 < 2 ^ l.ei.toNat
  generalize 2 ^ l.ej.toNat = x at *
  generalize 2 ^ l.ei.toNat = y at *
  omega

theorem Lzss.n_le {l : Lzss} (h : legalPair l.ei.toNat l.ej.toNat = true) : l.n ≤ 2 ^ Config.eiMax :=
  Nat.pow_le_pow_right (by omega) ((legalPair_iff _ _).1 h).2.2.2

/-! ## The writer's mask -/

theorem oneHot_shiftRight {m : Byte} (h : oneHot m = true) : m >>> 1 = 0 ∨ oneHot (m >>> 1) = true := by
  have : ∀ m : Byte, oneHot m = true → m >>> 1 = 0 ∨ oneHot (m >>> 1) = true := by decide
  exact this m h

theorem oneHot_ne_zero {m : Byte} (h : oneHot m = true) : m ≠ 0 := by
  rintro rfl
  revert h
  decide

/-- Placing bits touches the writer alone (R131). -/
theorem putBits_frame (bits : List Bool) (l : Lzss) :
    (putBits bits l).1 = { l with wbuf := (putBits bits l).1.wbuf, wmask := (putBits bits l).1.wmask } := by
  induction bits generalizing l with
  | nil => rfl
  | cons b bits ih =>
    unfold putBits
    split
    · rfl
    · rw [ih]
      rfl

/-- The mask after placing bits: on one place while the byte is not full, empty when it is (R131). -/
theorem putBits_wmask (bits : List Bool) {l : Lzss} (h : oneHot l.wmask = true) :
    match (putBits bits l).2 with
    | none => oneHot (putBits bits l).1.wmask = true
    | some _ => (putBits bits l).1.wmask = 0 := by
  induction bits generalizing l with
  | nil => exact h
  | cons b bits ih =>
    by_cases hm : (putBit b l).wmask = 0
    · simp [putBits, hm]
    · simp only [putBits, hm, if_false]
      exact ih ((oneHot_shiftRight h).resolve_left hm)

/-! ## The search -/

theorem matchLen_le (l : Lzss) (d k j : Nat) : matchLen l d k j ≤ j + k := by
  induction k generalizing j with
  | zero => simp [matchLen]
  | succ k ih =>
    unfold matchLen
    split
    · have := ih (j + 1)
      omega
    · omega

theorem searchFrom_len_le (l : Lzss) (k d : Nat) (best : Nat × Nat) :
    (searchFrom l k d best).2 ≤ max best.2 l.la := by
  induction k generalizing d best with
  | zero => simp [searchFrom]
  | succ k ih =>
    unfold searchFrom
    refine (ih ..).trans ?_
    split
    · have := matchLen_le l d l.la 0
      simp only
      omega
    · omega

/-- A token covers at least one byte of the lookahead and no more than it holds (R136, R137). -/
theorem chooseToken_covers (mode : RefMode) {l : Lzss} (h : l.la ≠ 0) :
    1 ≤ (chooseToken mode l (search l)).2 ∧ (chooseToken mode l (search l)).2 ≤ l.la := by
  have hle : (search l).2 ≤ max 1 l.la := searchFrom_len_le l _ _ _
  unfold chooseToken
  split
  · exact ⟨le_refl 1, by simp only; omega⟩
  · rename_i hp
    unfold Config.policy at hp
    simp only
    omega

/-! ## The invariant -/

/-- The LZSS unit without what the open transaction says. -/
structure Lzss.Sound (l : Lzss) : Prop where
  pair : legalPair l.ei.toNat l.ej.toNat = true
  dict : l.dict.wf
  dictSize : ∀ c ∈ l.dict, c.1 < 2 ^ Config.eiMax
  cursor : l.r < l.n
  lookahead : l.la ≤ l.f
  mask : l.rmask = 0 ∨ oneHot l.rmask = true

theorem Lzss.Ok.sound {l : Lzss} (h : l.Ok) (hp : l.phase ≠ .idle) : l.Sound :=
  ⟨h.pair, h.dict, h.dictSize, h.cursor hp, h.lookahead hp, h.mask⟩

theorem Lzss.Sound.ok {l : Lzss} (h : l.Sound) (hw : l.waitOk) : l.Ok :=
  ⟨h.pair, h.dict, h.dictSize, fun _ => h.cursor, fun _ => h.lookahead, h.mask, hw⟩

/-- A write stays in the ring and keeps the dictionary canonical. -/
theorem Lzss.Sound.write {l : Lzss} (h : l.Sound) (a : Nat) (v : Byte) : (l.write a v).Sound where
  pair := h.pair
  dict := memWrite_wf _ _ h.dict
  dictSize := by
    intro c hc
    rcases mem_memWrite hc with rfl | hc
    · exact (Nat.mod_lt _ l.n_pos).trans_le (Lzss.n_le h.pair)
    · exact h.dictSize c hc
  cursor := h.cursor
  lookahead := h.lookahead
  mask := h.mask

theorem Lzss.Sound.storeByte {l : Lzss} (h : l.Sound) (c : Byte) : (storeByte c l).Sound :=
  let w := h.write l.r c
  ⟨w.pair, w.dict, w.dictSize, Nat.mod_lt _ l.n_pos, w.lookahead, w.mask⟩

/-- The start of an operation (R130). -/
theorem lzssStart_sound {l : Lzss} (h : l.Ok) : (lzssStart l).Sound where
  pair := h.pair
  dict := memFill_wf _ h.dict
  dictSize := fun c hc => h.dictSize c (mem_memFill hc)
  cursor := Nat.sub_lt l.n_pos l.f_pos
  lookahead := Nat.zero_le _
  mask := .inl rfl

theorem Lzss.Sound.putBits {l : Lzss} (h : l.Sound) (bits : List Bool) : (putBits bits l).1.Sound := by
  rw [putBits_frame]
  exact ⟨h.pair, h.dict, h.dictSize, h.cursor, h.lookahead, h.mask⟩

theorem Lzss.Sound.encAdvance {l : Lzss} (h : l.Sound) (y : Nat) : (encAdvance y l).Sound :=
  ⟨h.pair, h.dict, h.dictSize, Nat.mod_lt _ l.n_pos, (Nat.sub_le _ _).trans h.lookahead, h.mask⟩

/-- The end of an operation. -/
theorem lzssEnd_ok {s : State} (h : s.lzss.Ok) (st : Status) : (lzssEnd st s).lzss.Ok :=
  ⟨h.pair, h.dict, h.dictSize, fun hp => absurd rfl hp, fun hp => absurd rfl hp, h.mask, rfl⟩

theorem encFlushBits_ok {s : State} (h : s.lzss.Sound) (hp : s.lzss.phase = .enc) (hla : s.lzss.la = 0)
    (heos : s.lzss.eosf = true) (hm : oneHot s.lzss.wmask = true) : (encFlushBits s).lzss.Ok := by
  unfold encFlushBits
  split
  · exact ⟨h.pair, h.dict, h.dictSize, fun hp => absurd rfl hp, fun hp => absurd rfl hp, h.mask, rfl⟩
  · rename_i hne
    exact Lzss.Sound.ok ⟨h.pair, h.dict, h.dictSize, h.cursor, h.lookahead, h.mask⟩ ⟨hp, hla, heos, hm, hne⟩

/-- The encoder's loop leaves the unit in order (R134). -/
theorem encLoop_ok (fuel : Nat) {s : State} (h : s.lzss.Sound) (hp : s.lzss.phase = .enc)
    (hm : oneHot s.lzss.wmask = true) (hf : s.lzss.la ≤ fuel) : (encLoop fuel s).lzss.Ok := by
  have flush : ¬ (s.lzss.la < s.lzss.f ∧ s.lzss.eosf = false) → s.lzss.la = 0 → (encFlushBits s).lzss.Ok := by
    intro h1 h2
    refine encFlushBits_ok h hp h2 ?_ hm
    have := s.lzss.f_pos
    cases he : s.lzss.eosf
    · exact absurd ⟨by omega, he⟩ h1
    · rfl
  induction fuel generalizing s with
  | zero =>
    unfold encLoop
    split
    · rename_i hc
      exact Lzss.Sound.ok ⟨h.pair, h.dict, h.dictSize, h.cursor, h.lookahead, h.mask⟩ ⟨hp, hc.1, hc.2, hm⟩
    · rename_i hc
      split <;> exact flush hc (by omega)
  | succ fuel ih =>
    unfold encLoop
    split
    · rename_i hc
      exact Lzss.Sound.ok ⟨h.pair, h.dict, h.dictSize, h.cursor, h.lookahead, h.mask⟩ ⟨hp, hc.1, hc.2, hm⟩
    · rename_i hc
      split
      · rename_i hla
        exact flush hc hla
      · rename_i hla
        obtain ⟨hy1, hy2⟩ := chooseToken_covers s.refMode hla
        generalize chooseToken s.refMode s.lzss (search s.lzss) = tok at hy1 hy2
        have hs := h.putBits (tok.1.bits s.lzss.ei.toNat s.lzss.ej.toNat)
        have hfr := putBits_frame (tok.1.bits s.lzss.ei.toNat s.lzss.ej.toNat) s.lzss
        have hw := putBits_wmask (tok.1.bits s.lzss.ei.toNat s.lzss.ej.toNat) hm
        rcases hres : putBits (tok.1.bits s.lzss.ei.toNat s.lzss.ej.toNat) s.lzss with ⟨l, o⟩
        rw [hres] at hs hfr hw
        dsimp only at hs hfr hw ⊢
        rw [hres]
        have e1 : l.phase = .enc := by rw [hfr]; exact hp
        have e2 : l.la = s.lzss.la := by rw [hfr]
        cases o with
        | some rest =>
          refine Lzss.Sound.ok ⟨hs.pair, hs.dict, hs.dictSize, hs.cursor, hs.lookahead, hs.mask⟩ ⟨e1, hy1, ?_, hw⟩
          exact e2 ▸ hy2
        | none =>
          dsimp only at hw ⊢
          have h1 : ({ s with lzss := encAdvance tok.2 l } : State).lzss.Sound := hs.encAdvance tok.2
          refine ih h1 e1 hw ?_ ?_
          · change l.la - tok.2 ≤ fuel
            omega
          · intro h1' h2'
            refine encFlushBits_ok h1 e1 h2' ?_ hw
            have := (encAdvance tok.2 l).f_pos
            cases he : (encAdvance tok.2 l).eosf
            · exact absurd ⟨by rw [h2']; exact this, he⟩ h1'
            · rfl

theorem encResume_ok {s : State} (bits : List Bool) (y : Nat) (h : s.lzss.Sound) (hp : s.lzss.phase = .enc)
    (hm : oneHot s.lzss.wmask = true) (hy1 : 1 ≤ y) (hy2 : y ≤ s.lzss.la) : (encResume bits y s).lzss.Ok := by
  unfold encResume
  have hs := h.putBits bits
  have hfr := putBits_frame bits s.lzss
  have hw := putBits_wmask bits hm
  rcases hres : putBits bits s.lzss with ⟨l, o⟩
  rw [hres] at hs hfr hw
  dsimp only at hs hfr hw ⊢
  have e1 : l.phase = .enc := by rw [hfr]; exact hp
  have e2 : l.la = s.lzss.la := by rw [hfr]
  cases o with
  | some rest =>
    exact Lzss.Sound.ok ⟨hs.pair, hs.dict, hs.dictSize, hs.cursor, hs.lookahead, hs.mask⟩ ⟨e1, hy1, e2 ▸ hy2, hw⟩
  | none =>
    exact encLoop_ok (s := { s with lzss := encAdvance y l }) _ (hs.encAdvance y) e1 hw le_rfl

/-! ## The reader -/

/-- A fetch of the decoder has left the unit in order. -/
def FetchOk : (Token × State) ⊕ State → Prop
  | .inl (_, u) => u.lzss.Sound ∧ u.lzss.phase = .dec
  | .inr u => u.lzss.Ok

/-- Reading bits leaves the unit in order: a token is complete and the unit still decodes, or the next pull is open with
no bit held and the token incomplete (R133, R140). -/
theorem decBits_ok (k : Nat) (bits : List Bool) {s : State} (h : s.lzss.Sound) (hp : s.lzss.phase = .dec)
    (hk : s.lzss.rmask.toNat < 2 ^ k) (hb : decodeToken s.lzss.ei.toNat s.lzss.ej.toNat bits = none) :
    FetchOk (decBits k bits s) := by
  induction k generalizing bits s with
  | zero =>
    have h0 : s.lzss.rmask = 0 := by
      apply BitVec.eq_of_toNat_eq
      simpa using hk
    exact Lzss.Sound.ok ⟨h.pair, h.dict, h.dictSize, h.cursor, h.lookahead, h.mask⟩ ⟨hp, h0, hb⟩
  | succ k ih =>
    by_cases h0 : s.lzss.rmask = 0
    · rw [decBits, if_pos h0]
      exact Lzss.Sound.ok ⟨h.pair, h.dict, h.dictSize, h.cursor, h.lookahead, h.mask⟩ ⟨hp, h0, hb⟩
    · have hm : ({ s.lzss with rmask := s.lzss.rmask >>> 1 } : Lzss).Sound :=
        ⟨h.pair, h.dict, h.dictSize, h.cursor, h.lookahead, oneHot_shiftRight (h.mask.resolve_left h0)⟩
      rw [decBits, if_neg h0]
      dsimp only
      cases hd : decodeToken s.lzss.ei.toNat s.lzss.ej.toNat (bits ++ [s.lzss.heldBit]) with
      | some r => exact ⟨hm, hp⟩
      | none =>
        refine ih _ hm hp ?_ hd
        simp only [BitVec.toNat_ushiftRight, Nat.shiftRight_eq_div_pow]
        rw [pow_succ] at hk
        omega

theorem pushSnk_dec_ok {s : State} (h : s.lzss.Sound) (hp : s.lzss.phase = .dec) (b c : Byte) (src left : Nat) :
    (pushSnk b (.decPush c src left) s).lzss.Ok :=
  Lzss.Sound.ok ⟨h.pair, h.dict, h.dictSize, h.cursor, h.lookahead, h.mask⟩ hp

theorem afterFetch_ok {x : (Token × State) ⊕ State} (h : FetchOk x) : (afterFetch x).lzss.Ok := by
  rcases x with ⟨token, u⟩ | u
  · obtain ⟨c, src, left, he⟩ := runToken_push token u
    rw [afterFetch, he]
    exact pushSnk_dec_ok h.1 h.2 ..
  · exact h

end Sys2Proof.Machine
end

