-- ==== Sys2Proof/Laws/PerInstr.lean ====
section
/-! SUPPORT. Statements about every instruction, one lemma per constructor. -/

namespace Sys2Proof.Laws.EncodingSize

/-- The bits of an instruction: its code and its operands at the widths of R91, its fields at those of R94. -/
def size : Instr → Nat
  | .cfgRd _ => 8 + 8
  | .cfgWr _ _ => 8 + 8 + 16
  | .lzssEnc => 8
  | .lzssDec => 8
  | .crcInit => 8
  | .crcUpd n _ => 8 + 32 + 8 * n.toNat
  | .crcChk _ => 8 + 16
  | .frmSend _ n _ => 8 + 16 + 8 + 16 * n.toNat
  | .frmRdreg _ => 8 + 16
  | .frmWrreg _ _ => 8 + 16 + 16
  | .frmBbeginC _ => 8 + 16
  | .frmBbeginR _ => 8 + 16
  | .frmBword _ => 8 + 16
  | .frmBraw n _ => 8 + 32 + 8 * n.toNat
  | .frmBend => 8
  | .frmWait _ => 8 + 32
  | .scrIdx _ _ _ _ _ => 8 + 16 + 16 + 16 + 16 + 16
  | .lit _ => 1 + 8
  | .match74 _ _ => 1 + 7 + 4
  | .match104 _ _ => 1 + 10 + 4

/-- The bits an encoding has. -/
def bits : Encoding → Nat
  | .port bytes => 8 * bytes.length
  | .stream _ _ bits => bits.length

/-- A well-formed instruction is encoded in exactly its bits: no operand is left out, none is padded (R91, R93, R94). -/
def Statement (i : Instr) : Prop := i.wellFormed = true → bits (encode i) = size i

theorem halves_length (ws : List Half) : (ws.flatMap bytes16).length = 2 * ws.length := by
  induction ws with
  | nil => rfl
  | cons w ws ih =>
    simp only [List.flatMap_cons, List.length_append, ih, bytes16, List.length_cons, List.length_nil]
    omega

theorem cfgRd (idx : Byte) : Statement (.cfgRd idx) := fun _ => rfl

theorem cfgWr (idx : Byte) (val : Half) : Statement (.cfgWr idx val) := fun _ => rfl

theorem lzssEnc : Statement .lzssEnc := fun _ => rfl

theorem lzssDec : Statement .lzssDec := fun _ => rfl

theorem crcInit : Statement .crcInit := fun _ => rfl

theorem crcUpd (n : BitVec 32) (bytes : List Byte) : Statement (.crcUpd n bytes) := by
  intro h
  have hn : bytes.length = n.toNat := by simpa [Instr.wellFormed] using h
  simp [bits, encode, encodeOperands, size, bytes32, hn]
  omega

theorem crcChk (w : Half) : Statement (.crcChk w) := fun _ => rfl

theorem frmSend (cmd : Half) (n : Byte) (p : List Half) : Statement (.frmSend cmd n p) := by
  intro h
  have hn : p.length = n.toNat := by simpa [Instr.wellFormed] using h
  simp only [bits, encode, encodeOperands, size, bytes16, List.length_cons, List.length_append, List.length_nil,
    halves_length, hn]
  omega

theorem frmRdreg (addr : Half) : Statement (.frmRdreg addr) := fun _ => rfl

theorem frmWrreg (addr : Half) (val : Half) : Statement (.frmWrreg addr val) := fun _ => rfl

theorem frmBbeginC (cmd : Half) : Statement (.frmBbeginC cmd) := fun _ => rfl

theorem frmBbeginR (addr : Half) : Statement (.frmBbeginR addr) := fun _ => rfl

theorem frmBword (w : Half) : Statement (.frmBword w) := fun _ => rfl

theorem frmBraw (n : BitVec 32) (bytes : List Byte) : Statement (.frmBraw n bytes) := by
  intro h
  have hn : bytes.length = n.toNat := by simpa [Instr.wellFormed] using h
  simp [bits, encode, encodeOperands, size, bytes32, hn]
  omega

theorem frmBend : Statement .frmBend := fun _ => rfl

theorem frmWait (t : BitVec 32) : Statement (.frmWait t) := fun _ => rfl

theorem scrIdx (mode gate source gateCount sourceCount : Half) :
    Statement (.scrIdx mode gate source gateCount sourceCount) := fun _ => rfl

theorem lit (data : Byte) : Statement (.lit data) := by
  intro _
  simp [bits, encode, size, Token.bits]

theorem match74 (ref : BitVec 7) (len : BitVec 4) : Statement (.match74 ref len) := by
  intro _
  simp [bits, encode, size, Token.bits]

theorem match104 (ref : BitVec 10) (len : BitVec 4) : Statement (.match104 ref len) := by
  intro _
  simp [bits, encode, size, Token.bits]

end Sys2Proof.Laws.EncodingSize
end

