-- ==== Sys2Proof/Laws/Reader.lean ====
section
/-! SUPPORT. The bit reader of the decoder (R133, R140): reading the bits of `RBUF` that are still held, from bit `j` on,
ends at the first token they complete, or opens the next pull. -/

namespace Sys2Proof.Machine

/-- The bits of a byte from the `j`-th on (bit 7 is the first). -/
def heldBits (b : Byte) (j : Nat) : List Bool := (natBits 8 b.toNat).drop j

theorem heldBits_length (b : Byte) (j : Nat) : (heldBits b j).length = 8 - j := by simp [heldBits]

theorem heldBits_eight (b : Byte) : heldBits b 8 = [] := by
  apply List.eq_nil_of_length_eq_zero
  simp [heldBits_length]

/-- The bit under the mask is the next one held. -/
theorem heldBits_cons (b : Byte) {j : Nat} (h : j < 8) :
    heldBits b j = ((b &&& (0x80#8 >>> j)) != 0) :: heldBits b (j + 1) := by
  have key : ∀ b : Byte, ∀ j < 8, heldBits b j = ((b &&& (0x80#8 >>> j)) != 0) :: heldBits b (j + 1) := by
    decide +kernel
  exact key b j h

theorem mask_ne_zero {j : Nat} (h : j < 8) : 0x80#8 >>> j ≠ 0 := by
  have key : ∀ j < 8, 0x80#8 >>> j ≠ 0 := by decide
  exact key j h

/-- The state with the reader's mask at the `j`-th bit, past the last at 8. -/
def State.reading (s : State) (j : Nat) : State := { s with lzss := { s.lzss with rmask := 0x80#8 >>> j } }

theorem reading_step (s : State) (j : Nat) :
    { s.reading j with lzss := { (s.reading j).lzss with rmask := (s.reading j).lzss.rmask >>> 1 } } =
      s.reading (j + 1) := by
  simp [State.reading, BitVec.shiftRight_add]

theorem heldBit_reading (s : State) {j : Nat} (h : j < 8) :
    heldBits s.lzss.rbuf j = (s.reading j).lzss.heldBit :: heldBits s.lzss.rbuf (j + 1) := heldBits_cons _ h

/-- Reading to the end of a token inside the byte. -/
theorem decBits_token {s : State} {k : Nat} {token : Token} (hk : 1 ≤ k) (j fuel : Nat) (bits : List Bool)
    (hjk : j + k ≤ 8) (hf : k ≤ fuel)
    (hd : decodeToken s.lzss.ei.toNat s.lzss.ej.toNat (bits ++ (heldBits s.lzss.rbuf j).take k) = some (token, [])) :
    decBits fuel bits (s.reading j) = .inl (token, s.reading (j + k)) := by
  induction k generalizing j fuel bits with
  | zero => omega
  | succ k ih =>
    obtain ⟨fuel, rfl⟩ : ∃ m, fuel = m + 1 := ⟨fuel - 1, by omega⟩
    have hj : j < 8 := by omega
    rw [heldBit_reading s hj, List.take_succ_cons] at hd
    rw [decBits, if_neg (show ¬ (s.reading j).lzss.rmask = 0 from mask_ne_zero hj)]
    dsimp only
    rw [reading_step]
    cases k with
    | zero =>
      simp only [List.take_zero] at hd
      rw [show (s.reading j).lzss.ei = s.lzss.ei from rfl, show (s.reading j).lzss.ej = s.lzss.ej from rfl, hd]
    | succ k =>
      have hd' : decodeToken s.lzss.ei.toNat s.lzss.ej.toNat ((bits ++ [(s.reading j).lzss.heldBit]) ++
          (heldBits s.lzss.rbuf (j + 1)).take (k + 1)) = some (token, []) := by simpa using hd
      have hne : (heldBits s.lzss.rbuf (j + 1)).take (k + 1) ≠ [] := by
        intro h0
        have := congrArg List.length h0
        simp [heldBits_length] at this
        omega
      rw [show (s.reading j).lzss.ei = s.lzss.ei from rfl, show (s.reading j).lzss.ej = s.lzss.ej from rfl,
        decodeToken_prefix_none hd' hne]
      dsimp only
      rw [ih (by omega) (j + 1) fuel _ (by omega) (by omega) hd', show j + 1 + (k + 1) = j + (k + 1 + 1) by omega]

/-- Reading the whole byte without completing a token: the next pull is open and no bit is held. -/
theorem decBits_none {s : State} (j fuel : Nat) (bits : List Bool) (hj : j ≤ 8) (hf : 8 - j ≤ fuel)
    (hd : decodeToken s.lzss.ei.toNat s.lzss.ej.toNat (bits ++ heldBits s.lzss.rbuf j) = none) :
    decBits fuel bits (s.reading j) =
      .inr (pullSrc (.decPull (bits ++ heldBits s.lzss.rbuf j)) (s.reading 8)) := by
  induction hn : 8 - j generalizing j fuel bits with
  | zero =>
    obtain rfl : j = 8 := by omega
    rw [heldBits_eight, List.append_nil]
    cases fuel with
    | zero => rfl
    | succ fuel => rw [decBits, if_pos (by simp [State.reading])]
  | succ n ih =>
    obtain ⟨fuel, rfl⟩ : ∃ m, fuel = m + 1 := ⟨fuel - 1, by omega⟩
    have hj : j < 8 := by omega
    rw [decBits, if_neg (show ¬ (s.reading j).lzss.rmask = 0 from mask_ne_zero hj)]
    dsimp only
    rw [reading_step, show (s.reading j).lzss.ei = s.lzss.ei from rfl, show (s.reading j).lzss.ej = s.lzss.ej from rfl]
    rw [heldBit_reading s hj] at hd ⊢
    have hd' : decodeToken s.lzss.ei.toNat s.lzss.ej.toNat ((bits ++ [(s.reading j).lzss.heldBit]) ++
        heldBits s.lzss.rbuf (j + 1)) = none := by simpa using hd
    have hpre : decodeToken s.lzss.ei.toNat s.lzss.ej.toNat (bits ++ [(s.reading j).lzss.heldBit]) = none := by
      cases h : decodeToken s.lzss.ei.toNat s.lzss.ej.toNat (bits ++ [(s.reading j).lzss.heldBit]) with
      | none => rfl
      | some r =>
        rw [decodeToken_append (token := r.1) (rest := r.2) h] at hd'
        cases hd'
    rw [hpre]
    dsimp only
    rw [ih (j + 1) fuel _ (by omega) (by omega) hd' (by omega)]
    simp

end Sys2Proof.Machine
end

