-- ==== Sys2Proof/Machine/Text.lean ====
section
/-! DEFINITION. The textual forms of the spec: operations (R107), event histories (R11) and completions. Nothing in
the machine reads them. -/

namespace Sys2Proof.Machine

/-- One hexadecimal digit, upper case. -/
def hexDigit (d : Nat) : Char := if d < 10 then Char.ofNat (48 + d) else Char.ofNat (55 + d)

/-- The low `k` hexadecimal digits of a number. -/
def hexDigits : Nat → Nat → List Char
  | 0, _ => []
  | k + 1, v => hexDigits k (v / 16) ++ [hexDigit (v % 16)]

/-- A byte as two digits without prefix (R11, R107). -/
def byteText (b : Byte) : String := String.ofList (hexDigits 2 b.toNat)

/-- A number as an operand, `0x` and `k` digits (R107). -/
def hexText (k v : Nat) : String := "0x" ++ String.ofList (hexDigits k v)

/-- The name of a status (R230). -/
def Status.text : Status → String
  | .ok => "OK"
  | .errOp => "ERR_OP"
  | .errState => "ERR_STATE"
  | .errParam => "ERR_PARAM"
  | .errTimeout => "ERR_TIMEOUT"
  | .errCrc => "ERR_CRC"
  | .errSrc => "ERR_SRC"
  | .errSnk => "ERR_SNK"

/-- A result (R91); none reads as 0. -/
def Result.text : Result → String
  | .none => "0"
  | .value v => hexText 4 v.toNat
  | .index p g s => "(" ++ toString p.toNat ++ ", " ++ toString g.toNat ++ ", " ++ toString s.toNat ++ ")"

/-- The name of a control register (R33, R107). -/
def Csr.text : Csr → String
  | .lzssCfg => "LZSS_CFG"
  | .lzssStat => "LZSS_STAT"
  | .crcAcc => "CRC_ACC"
  | .frmCtrl => "FRM_CTRL"
  | .frmRdop => "FRM_RDOP"
  | .frmWrop => "FRM_WROP"
  | .frmStaddr => "FRM_STADDR"
  | .frmStmask => "FRM_STMASK"
  | .frmStexp => "FRM_STEXP"
  | .frmStat => "FRM_STAT"

/-- A control-register index, by name where it has one (R107). -/
def idxText (idx : Byte) : String :=
  match Csr.ofIdx idx with
  | some c => c.text
  | none => hexText 2 idx.toNat

/-- A byte sequence in braces, hexadecimal without prefix (R107); the braces are characters 123 and 125. -/
def bytesText (bs : List Byte) : String :=
  String.singleton (Char.ofNat 123) ++ String.intercalate ", " (bs.map byteText) ++ String.singleton (Char.ofNat 125)

/-- The line of an operation (R107), counts implied; a token as its fields (R94). -/
def instrText : Instr → String
  | .cfgRd idx => "CFG.RD " ++ idxText idx
  | .cfgWr idx val => "CFG.WR " ++ idxText idx ++ ", " ++ hexText 4 val.toNat
  | .lzssEnc => "LZSS.ENC"
  | .lzssDec => "LZSS.DEC"
  | .crcInit => "CRC.INIT"
  | .crcUpd _ bytes => "CRC.UPD " ++ bytesText bytes
  | .crcChk w => "CRC.CHK " ++ hexText 4 w.toNat
  | .frmSend cmd _ p => "FRM.SEND " ++ String.intercalate ", " ((cmd :: p).map fun w => hexText 4 w.toNat)
  | .frmRdreg addr => "FRM.RDREG " ++ hexText 4 addr.toNat
  | .frmWrreg addr val => "FRM.WRREG " ++ hexText 4 addr.toNat ++ ", " ++ hexText 4 val.toNat
  | .frmBbeginC cmd => "FRM.BBEGIN.C " ++ hexText 4 cmd.toNat
  | .frmBbeginR addr => "FRM.BBEGIN.R " ++ hexText 4 addr.toNat
  | .frmBword w => "FRM.BWORD " ++ hexText 4 w.toNat
  | .frmBraw _ bytes => "FRM.BRAW " ++ bytesText bytes
  | .frmBend => "FRM.BEND"
  | .frmWait t => "FRM.WAIT " ++ toString t.toNat
  | .scrIdx mode gate source gateCount sourceCount =>
    "SCR.IDX " ++ hexText 4 mode.toNat ++ ", " ++
      String.intercalate ", " ([gate, source, gateCount, sourceCount].map fun w => toString w.toNat)
  | .lit c => "LIT " ++ byteText c
  | .match74 ref len => "MATCH REF=" ++ toString ref.toNat ++ " LEN=" ++ toString len.toNat
  | .match104 ref len => "MATCH REF=" ++ toString ref.toNat ++ " LEN=" ++ toString len.toNat

/-- An event (R11): of a pull or push the request and the answer apart, an operation as its line (R107). DESIGN CHOICE: an
illegal code presented, for which R11 and R107 give no form, is written as the code, 0x and two digits (log 16). -/
def eventText : Event → String
  | .csAssert => "CS+"
  | .csDeassert => "CS-"
  | .dcCmd => "DC=C"
  | .dcData => "DC=D"
  | .tx b => "T:" ++ byteText b
  | .rx b => "R:" ++ byteText b
  | .hrdy h => if h then "H:1" else "H:0"
  | .pull => "pull"
  | .pulled (.byte b) => "=" ++ byteText b
  | .pulled .eos => "=EOS"
  | .pulled .err => "=ERR"
  | .push b => "push(" ++ byteText b ++ ")"
  | .pushed _ .ok => "=ok"
  | .pushed _ .err => "=ERR"
  | .presented i => instrText i
  | .presentedCode op => hexText 2 op.toNat
  | .done st res => "-> (" ++ st.text ++ ", " ++ res.text ++ ")"

/-- Where the text of a trace stands (R11): outside every transaction, after a request, between two operations nested in
one, in a nested operation of which nothing but its line, or already an event, is written. -/
inductive TextPlace where
  | top | requested | between | named | running
  deriving DecidableEq, Repr

/-- The completion of a nested operation, left out where it is `(OK, 0)` as in the programs of Part 8 (log 16). -/
def nestedDone (st : Status) (res : Result) : String :=
  if st = .ok ∧ res = .none then "" else " " ++ eventText (.done st res)

/-- The entries of a trace as R11 writes it: `item` is the entry being written. An operation and its completion outside
every transaction are no part of it; inside one, operations stand in square brackets, parted by semicolons, each with its
events after a colon. An event of no operation inside a transaction is a reset's, which abandons it (R260). -/
def traceItems : TextPlace → String → List Event → List String
  | _, item, [] => if item.isEmpty then [] else [item]
  | .top, item, e :: rest =>
    match e with
    | .presented _ | .presentedCode _ | .done _ _ => traceItems .top item rest
    | .pull | .push _ => traceItems .requested (eventText e) rest
    | _ => eventText e :: traceItems .top item rest
  | .requested, item, e :: rest =>
    match e with
    | .pulled _ | .pushed _ _ => (item ++ eventText e) :: traceItems .top "" rest
    | .presented _ | .presentedCode _ => traceItems .named (item ++ "[" ++ eventText e) rest
    | _ => item :: eventText e :: traceItems .top "" rest
  | .between, item, e :: rest =>
    match e with
    | .pulled _ | .pushed _ _ => (item ++ "]" ++ eventText e) :: traceItems .top "" rest
    | .presented _ | .presentedCode _ => traceItems .named (item ++ "; " ++ eventText e) rest
    | _ => (item ++ "]") :: eventText e :: traceItems .top "" rest
  | .named, item, e :: rest =>
    match e with
    | .done st res => traceItems .between (item ++ nestedDone st res) rest
    | _ => traceItems .running (item ++ ": " ++ eventText e) rest
  | .running, item, e :: rest =>
    match e with
    | .done st res => traceItems .between (item ++ nestedDone st res) rest
    | _ => traceItems .running (item ++ " " ++ eventText e) rest

/-- An event history as R11 writes it. -/
def traceText (events : List Event) : String := String.intercalate " " (traceItems .top "" events)

end Sys2Proof.Machine
end

