-- ==== Sys2Proof/Tests/Slice0.lean ====
section
/-! SUPPORT. Tests: the well-formedness checks refuse, words written out from the spec decode, single steps on the spec's
examples, and a witness for the hypotheses of every statement. -/

namespace Sys2Proof.Tests

open Sys2Proof.Machine

/-! ## Small states -/

/-- The machine after reset, the host about to do this. -/
def hostDoes (inputs : List HostInput) : State := { State.reset with env := { State.reset.env with host := inputs } }

/-- The machine after reset, the controller about to supply these bytes. -/
def supplied (rx : List Byte) : State := { State.reset with env := { State.reset.env with rx := rx } }

/-- The framer after reset with its register codes set as in the spec's examples. -/
def coded (s : State) : State := { s with frm := { s.frm with rdop := 0x0010, wrop := 0x0011 } }

/-- A framer with a burst open. -/
def bursting : State := { State.reset with frm := { Frm.reset with cs := true, phase := .burst } }

/-- A running LZSS unit, blocked as given. -/
def blocked (p : LzssPhase) (w : LzssWait) : State :=
  { State.reset with lzss := { Lzss.reset with phase := p, wait := w, r := 111 } }

/-- What a step has recorded, `[]` when it answers no next state. -/
def traceOf : Host.Outcome State Fault Refusal → List Event
  | .next t => t.env.trace
  | .fault _ => []
  | .refused _ => []

/-! ## Well-formedness refuses -/

theorem test_wf_crcUpd_count_short : Instr.wellFormed (.crcUpd 2 [0x80]) = false := by decide

theorem test_wf_frmSend_count_long : Instr.wellFormed (.frmSend 0x1234 1 [0x00AB, 0xCDEF]) = false := by decide

theorem test_wf_frmBraw_count_short : Instr.wellFormed (.frmBraw 3 [0xAA, 0x55]) = false := by decide

/-! ## Words written out from R91 and R94 -/

theorem test_decode_cfgRd : decode (.port [0x00, 0x10]) = .ok (.cfgRd 0x10, []) := by decide

theorem test_decode_cfgWr : decode (.port [0x01, 0x00, 0x00, 0x4A]) = .ok (.cfgWr 0x00 0x004A, []) := by decide

theorem test_decode_lzssEnc : decode (.port [0x10]) = .ok (.lzssEnc, []) := by decide

theorem test_decode_lzssDec : decode (.port [0x11]) = .ok (.lzssDec, []) := by decide

theorem test_decode_crcInit : decode (.port [0x20]) = .ok (.crcInit, []) := by decide

theorem test_decode_crcUpd :
    decode (.port [0x21, 0x00, 0x00, 0x00, 0x01, 0x80]) = .ok (.crcUpd 1 [0x80], []) := by decide

theorem test_decode_crcChk : decode (.port [0x22, 0x29, 0xB1]) = .ok (.crcChk 0x29B1, []) := by decide

theorem test_decode_frmSend :
    decode (.port [0x30, 0x12, 0x34, 0x02, 0x00, 0xAB, 0xCD, 0xEF]) = .ok (.frmSend 0x1234 2 [0x00AB, 0xCDEF], []) := by
  decide

theorem test_decode_frmRdreg : decode (.port [0x31, 0x00, 0x0A]) = .ok (.frmRdreg 0x000A, []) := by decide

theorem test_decode_frmWrreg :
    decode (.port [0x32, 0x01, 0x54, 0xBE, 0xEF]) = .ok (.frmWrreg 0x0154 0xBEEF, []) := by decide

theorem test_decode_frmBbeginC : decode (.port [0x33, 0x00, 0x20]) = .ok (.frmBbeginC 0x0020, []) := by decide

theorem test_decode_frmBbeginR : decode (.port [0x34, 0x01, 0x54]) = .ok (.frmBbeginR 0x0154, []) := by decide

theorem test_decode_frmBword : decode (.port [0x35, 0xA5, 0x5A]) = .ok (.frmBword 0xA55A, []) := by decide

theorem test_decode_frmBraw :
    decode (.port [0x36, 0x00, 0x00, 0x00, 0x03, 0xAA, 0x55, 0x01]) = .ok (.frmBraw 3 [0xAA, 0x55, 0x01], []) := by
  decide

theorem test_decode_frmBend : decode (.port [0x37]) = .ok (.frmBend, []) := by decide

theorem test_decode_frmWait : decode (.port [0x38, 0x00, 0x01, 0x86, 0xA0]) = .ok (.frmWait 100000, []) := by decide

theorem test_decode_scrIdx :
    decode (.port [0x40, 0x00, 0x01, 0x00, 0x02, 0x00, 0x03, 0x00, 0x04, 0x00, 0x08]) = .ok (.scrIdx 1 2 3 4 8, []) := by
  decide

/-- Flag 1, then AA: `1 1010 1010`. -/
theorem test_decode_lit :
    decode (.stream 7 4 [true, true, false, true, false, true, false, true, false]) = .ok (.lit 0xAA, []) := by decide

/-- Flag 0, REF = 1 in seven bits, LEN = 1 in four: `0 0000001 0001`. -/
theorem test_decode_match74 :
    decode (.stream 7 4 [false, false, false, false, false, false, false, true, false, false, false, true])
      = .ok (.match74 1 1, []) := by decide

/-- Flag 0, REF = 513 in ten bits, LEN = 8 in four: `0 1000000001 1000`. -/
theorem test_decode_match104 :
    decode (.stream 10 4 [false, true, false, false, false, false, false, false, false, false, true, true, false, false,
      false]) = .ok (.match104 513 8, []) := by decide

theorem test_decode_illegal : decode (.port [0x02]) = .error (.illegalOp 0x02) := by decide

theorem test_decode_missing : decode (.port [0x22, 0x29]) = .error (.missingOperand .crcChk) := by decide

/-- Rows of spec/opcode_table.json at their `match` values: an operation, then the three tokens. -/
theorem test_decodeTableWord_rows :
    decodeTableWord 8 0x38 = some (.frmWait 0) ∧ decodeTableWord 16 0x1AA = some (.lit 0xAA) ∧
      decodeTableWord 16 0x011 = some (.match74 1 1) ∧ decodeTableWord 16 0x2018 = some (.match104 513 8) := by decide

/-! ## One step each, on the examples of the spec -/

theorem test_cfgRd_reset : traceOf (exec (.cfgRd 0x00) State.reset) = [.done .ok (.value 0x0047)] := by decide

theorem test_cfgRd_absent : traceOf (exec (.cfgRd 0x02) State.reset) = [.done .errParam (.value 0)] := by decide

/-- `0x0034` is the smallest legal pair, `0x0024` is refused (R121). -/
theorem test_cfgWr_pairs :
    traceOf (exec (.cfgWr 0x00 0x0034) State.reset) = [.done .ok .none] ∧
      traceOf (exec (.cfgWr 0x00 0x0024) State.reset) = [.done .errParam .none] := by decide

theorem test_cfgWr_burst : traceOf (exec (.cfgWr 0x21 0x0010) bursting) = [.done .errState .none] := by decide

theorem test_lzssEnc_pulls : traceOf (exec .lzssEnc State.reset) = [.pull] := by decide

theorem test_lzssDec_busy : traceOf (exec .lzssDec (blocked .enc .encPull)) = [.done .errState .none] := by decide

theorem test_crcInit : traceOf (exec .crcInit State.reset) = [.done .ok .none] := by decide

/-- The check value 0x29B1 (R174). -/
theorem test_crcUpd_check :
    crcBytes 0xFFFF [0x31, 0x32, 0x33, 0x34, 0x35, 0x36, 0x37, 0x38, 0x39] = 0x29B1 := by decide +kernel

theorem test_crcChk_wrong : traceOf (exec (.crcChk 0x29B0) State.reset) = [.done .errCrc .none] := by decide

theorem test_frmSend : traceOf (exec (.frmSend 0x1234 2 [0x00AB, 0xCDEF]) State.reset) =
    [.csAssert, .dcCmd, .tx 0x12, .tx 0x34, .dcData, .tx 0x00, .tx 0xAB, .tx 0xCD, .tx 0xEF, .csDeassert,
      .done .ok .none] := by decide

theorem test_frmSend_six : traceOf (exec (.frmSend 0x1234 6 [1, 2, 3, 4, 5, 6]) State.reset) =
    [.done .errParam .none] := by decide

theorem test_frmRdreg : traceOf (exec (.frmRdreg 0x000A) (coded (supplied [0xDE, 0xAD, 0x20, 0x00]))) =
    [.csAssert, .dcCmd, .tx 0x00, .tx 0x10, .dcData, .tx 0x00, .tx 0x0A, .rx 0xDE, .rx 0xAD, .rx 0x20, .rx 0x00,
      .csDeassert, .done .ok (.value 0x2000)] := by decide

theorem test_frmWrreg : traceOf (exec (.frmWrreg 0x0154 0xBEEF) (coded State.reset)) =
    [.csAssert, .dcCmd, .tx 0x00, .tx 0x11, .dcData, .tx 0x01, .tx 0x54, .tx 0xBE, .tx 0xEF, .csDeassert,
      .done .ok .none] := by decide

theorem test_frmBbeginC : traceOf (exec (.frmBbeginC 0x0020) State.reset) =
    [.csAssert, .dcCmd, .tx 0x00, .tx 0x20, .dcData, .done .ok .none] := by decide

theorem test_frmBbeginR : traceOf (exec (.frmBbeginR 0x0154) (coded State.reset)) =
    [.csAssert, .dcCmd, .tx 0x00, .tx 0x11, .dcData, .tx 0x01, .tx 0x54, .done .ok .none] := by decide

theorem test_frmBword : traceOf (exec (.frmBword 0xA55A) bursting) = [.tx 0xA5, .tx 0x5A, .done .ok .none] := by decide

theorem test_frmBraw : traceOf (exec (.frmBraw 3 [0xAA, 0x55, 0x01]) bursting) =
    [.tx 0xAA, .tx 0x55, .tx 0x01, .done .ok .none] := by decide

theorem test_frmBend : traceOf (exec .frmBend bursting) = [.csDeassert, .done .ok .none] := by decide

theorem test_frmBend_idle : traceOf (exec .frmBend State.reset) = [.done .errState .none] := by decide

theorem test_frmWait_zero : traceOf (exec (.frmWait 0) State.reset) = [.done .errTimeout .none] := by decide

/-- Source scramble alone on (1, 2) of 4 by 8: gate 0, source 5, counts 2 and 16 (R212). -/
theorem test_scrIdx_source_scramble :
    traceOf (exec (.scrIdx 1 1 2 4 8) State.reset) = [.done .ok (.index 5 2 16)] := by decide

theorem test_scrIdx_reserved_mode :
    traceOf (exec (.scrIdx 0x200 0 0 1 1) State.reset) = [.done .errParam (.index 0 0 0)] := by decide

theorem test_lit_push : traceOf (exec (.lit 0x41) (blocked .dec (.decPull []))) = [.push 0x41] := by decide

/-- Before anything was output a MATCH reads the fill (R142). -/
theorem test_match74_fill : traceOf (exec (.match74 1 1) (blocked .dec (.decPull []))) = [.push 0x20] := by decide

theorem test_match104_fill : traceOf (exec (.match104 1 1) (blocked .dec (.decPull []))) = [.push 0x20] := by decide

theorem test_answer_unasked : step (hostDoes [.src .eos]) = .fault .answerUnasked := rfl

/-- The example of R11, an operation nested in a pull and then the answer, recorded by the machine; the decoder's next
pull is open (`bytesText` writes the braces, which no literal here may hold). -/
theorem test_trace_nested :
    (match step { blocked .dec (.decPull []) with
        env := { State.reset.env with host := [.op [0x21, 0, 0, 0, 1, 0x80], .src (.byte 0x80)], trace := [.pull] } } with
      | .next t => traceText (traceOf (step t))
      | _ => "") = "pull[CRC.UPD " ++ bytesText [0x80] ++ "]=80 pull" := by decide +kernel

/-- The forms of programs P1 and P4: events after a colon, operations parted by semicolons, completions with a result or
an error written out. -/
theorem test_trace_forms :
    traceText [.presented .lzssEnc, .push 0xB0, .presented (.cfgRd 0x01), .done .ok (.value 0x0001),
        .presented .lzssDec, .done .errState .none, .presented (.frmBword 0x0102), .tx 0x01, .tx 0x02, .done .ok .none,
        .pushed 0xB0 .ok, .pull, .pulled .eos, .done .ok .none]
      = "push(B0)[CFG.RD LZSS_STAT -> (OK, 0x0001); LZSS.DEC -> (ERR_STATE, 0); " ++
        "FRM.BWORD 0x0102: T:01 T:02]=ok pull=EOS" := by decide +kernel

/-! ## Witnesses: states and operands that meet the hypotheses of each statement -/

theorem test_witness_EncodedInstructionDecodesBack :
    Instr.wellFormed (.frmSend 0x1234 2 [0x00AB, 0xCDEF]) = true ∧ Instr.wellFormed (.crcUpd 0 []) = true := by decide

theorem test_witness_DecodedBytesAreTheEncoding : decodeOp [0x37, 0x99] = .ok (.frmBend, [0x99]) := by decide

theorem test_witness_TokenBitsDecodeBack : 127 < 2 ^ 7 ∧ 15 < 2 ^ 4 := by decide

theorem test_witness_IllegalOperationCodes :
    (0x02 : Byte).toNat ∉ [0x00, 0x01, 0x10, 0x11, 0x20, 0x21, 0x22, 0x30, 0x31, 0x32, 0x33, 0x34, 0x35, 0x36, 0x37,
      0x38, 0x40] ∧ (hostDoes [.op [0x02, 0x10]]).env.host = .op [0x02, 0x10] :: [] := by decide

theorem test_witness_StepRunsPresentedOperation :
    (hostDoes [.op [0x00, 0x10], .reset]).env.host = .op [0x00, 0x10] :: [.reset] ∧
      decodeOp [0x00, 0x10] = .ok (.cfgRd 0x10, []) := by decide

/-- A blocked decoder that has read all but the last bit of a literal, and one of the pair (4, 3), which has no row. -/
def lastBit : State :=
  { blocked .dec (.decPull [true, false, true, false, false, false, false, false]) with
    env := (hostDoes [.src (.byte 0x80)]).env }

def pair43 : State :=
  { blocked .dec (.decPull []) with
    lzss := { (blocked .dec (.decPull [])).lzss with ei := 4, ej := 3, r := 7 }
    env := (hostDoes [.src (.byte 0x0A)]).env }

theorem test_witness_StepRunsFetchedToken_row :
    decodeToken lastBit.lzss.ei.toNat lastBit.lzss.ej.toNat
        ([true, false, true, false, false, false, false, false] ++ (natBits 8 (0x80 : Byte).toNat).take 1)
      = some (.lit 0x41, []) ∧
    tokenInstr lastBit.lzss.ei.toNat lastBit.lzss.ej.toNat (.lit 0x41) = some (.lit 0x41) := by decide

theorem test_witness_StepRunsFetchedToken_no_row :
    decodeToken pair43.lzss.ei.toNat pair43.lzss.ej.toNat ([] ++ (natBits 8 (0x0A : Byte).toNat).take 8)
      = some (.pair 1 2, []) ∧
    tokenInstr pair43.lzss.ei.toNat pair43.lzss.ej.toNat (.pair 1 2) = none := by decide

theorem test_witness_WaitingChangesNothing : State.reset.env.host = [] := rfl

theorem test_witness_LegalInputsAnswered :
    decodeOp [0x37] = .ok (.frmBend, []) ∧ decodeOp [0x02] = .error (.illegalOp 0x02) ∧
    (blocked .enc .encPull).lzss.wait = .encPull ∧ (blocked .dec (.decPull [])).lzss.wait = .decPull [] ∧
    (blocked .enc .encFlush).lzss.wait = .encFlush ∧ (blocked .enc (.encPush [] 1)).lzss.wait = .encPush [] 1 ∧
    (blocked .dec (.decPush 0x41 0 0)).lzss.wait = .decPush 0x41 0 0 := by decide

theorem test_witness_ResetEventRestoresReset :
    ({ bursting with env := (hostDoes [.reset]).env } : State).env.host = .reset :: [] := rfl

theorem test_witness_WrittenValueReadsBack : ∃ t, exec (.cfgWr 0x20 0x0003) State.reset = .next t ∧
    t.env.trace = State.reset.env.trace ++ [.done .ok .none] := ⟨_, rfl, rfl⟩

theorem test_witness_CrcUpdateIsBitSerial :
    ([0x80, 0xC0] : List Byte).length = (2 : BitVec 32).toNat ∧ ([] : List Byte).length = (0 : BitVec 32).toNat := by
  decide

theorem test_witness_CrcUpdateSplits :
    ([0x80] : List Byte).length = (1 : BitVec 32).toNat ∧ ([0xC0] : List Byte).length = (1 : BitVec 32).toNat ∧
      ([0x80] ++ [0xC0] : List Byte).length = (2 : BitVec 32).toNat := by decide

theorem test_witness_CrcDetectsByteChange :
    (0x31 : Byte) ≠ 0x32 ∧ ([0x30] ++ 0x31 :: [0x33] : List Byte).length = (3 : BitVec 32).toNat := by decide

theorem test_witness_FrmSendFrame :
    ([1, 2, 3, 4, 5] : List Half).length = (5 : Byte).toNat ∧ ([1, 2, 3, 4, 5, 6] : List Half).length = (6 : Byte).toNat := by
  decide

theorem test_witness_FrmBurstMovesAndCloses : ([0xAA, 0x55] : List Byte).length = (2 : BitVec 32).toNat := by decide

theorem test_witness_BurstFrameIsSendFrame :
    State.reset.frm.phase = .idle ∧ ([1, 2, 3, 4, 5] : List Half).length = (5 : Byte).toNat ∧ (5 : Byte).toNat ≤ 5 := by
  decide

/-- A framer that polls the ready line, and one that polls a status register the controller answers idle at once. -/
def readyLine (samples : List Bool) : State :=
  { State.reset with
    frm := { Frm.reset with useHrdy := true }
    env := { State.reset.env with hrdy := samples } }

def statusPolicy (rx : List Byte) : State :=
  { supplied rx with frm := { Frm.reset with stmask := 0x2000, stexp := 0x2000 } }

theorem test_witness_BusyPoll :
    (readyLine [true]).frm.phase = .idle ∧ (readyLine [true]).frm.useHrdy = true ∧
      (readyLine [true]).env.hrdy = true :: [] ∧
      (statusPolicy []).frm.phase = .idle ∧ (statusPolicy []).frm.useHrdy = false := by decide

theorem test_witness_FrmWaitPolls_burst : bursting.frm.phase = .burst := rfl

/-- Busy, then idle: the second of three polls ends the operation, as in the example of R189. -/
theorem test_witness_FrmWaitPolls_second :
    let s := statusPolicy [0x00, 0x00, 0x00, 0x00, 0x00, 0x00, 0x20, 0x00]
    s.frm.phase = .idle ∧ 1 < (3 : BitVec 32).toNat ∧ (∀ j < 1, (busy (polled j s)).1 = true) ∧
      (busy (polled 1 s)).1 = false := by decide +kernel

theorem test_witness_FrmWaitPolls_timeout :
    let s := readyLine [false, false]
    s.frm.phase = .idle ∧ ∀ j < (2 : BitVec 32).toNat, (busy (polled j s)).1 = true := by decide +kernel

theorem test_witness_Frm_ok : State.reset.frm.Ok ∧ bursting.frm.Ok :=
  ⟨⟨by decide, rfl⟩, ⟨by decide, rfl⟩⟩

/-- The configuration after reset is one that no status word satisfies. -/
theorem test_witness_UnmatchablePolicyTimesOut :
    State.reset.frm.phase = .idle ∧ State.reset.frm.useHrdy = false ∧ State.reset.frm.stexp.getLsbD 0 = true ∧
      State.reset.frm.stmask.getLsbD 0 = false ∧ State.reset.frm.stexp.getLsbD 15 = true := by decide

/-- For ScrCountsAndRange, ScrComposesStages and ScrBijection: all nine bits set on a 4 by 8 geometry, the last pixel goes to place 3 (by hand, R212 to R219). -/
theorem test_witness_ScrCountsAndRange :
    exec (.scrIdx 0x1FF 3 7 4 8) State.reset = .next (State.reset.ended .ok (.index 3 4 8)) := rfl

/-- Both cases of the accepted inputs: the mode asks for an even source count. -/
theorem test_witness_ScrAcceptsExactly :
    (ScrMode.ofMask 0x008).srcInterleave = true ∧ 2 ∣ (8 : Half).toNat ∧ ¬ 2 ∣ (7 : Half).toNat := by decide

theorem test_witness_ScrSingleStages (mode : Half)
    (h : mode ∈ ([0x001, 0x002, 0x004, 0x008, 0x00C, 0x010, 0x020, 0x040, 0x080, 0x100] : List Half)) :
    ∃ phys g s, exec (.scrIdx mode 3 7 4 8) State.reset = .next (State.reset.ended .ok (.index phys g s)) := by
  fin_cases h <;> exact ⟨_, _, _, rfl⟩

theorem test_witness_ScrIdentityAtModeZero : (3 : Half).toNat < (4 : Half).toNat ∧ (7 : Half).toNat < (8 : Half).toNat := by
  decide

theorem test_witness_ScrScramblesCancel :
    (0x008 : Half).getLsbD 0 = false ∧ (0x008 : Half).getLsbD 1 = false ∧ 2 ∣ (4 : Half).toNat ∧
      exec (.scrIdx 0x008 3 7 4 8) State.reset = .next (State.reset.ended .ok (.index 31 4 8)) :=
  ⟨by decide, by decide, by decide, rfl⟩

theorem test_witness_LzssOperationsStart : State.reset.lzss.phase = .idle := rfl

theorem test_witness_LzssBusyRefuses : (blocked .enc .encPull).lzss.phase ≠ .idle := by decide

theorem test_witness_LzssPortErrors (w : LzssWait) (input : HostInput) :
    ({ blocked .enc w with env := (hostDoes [input]).env } : State).lzss.wait = w ∧
      ({ blocked .enc w with env := (hostDoes [input]).env } : State).env.host = input :: [] ∧
      ({ blocked .enc w with env := (hostDoes [input]).env } : State).lzss.wbuf = 0x00 := ⟨rfl, rfl, rfl⟩

theorem test_witness_DecoderEndsAtEndOfStream :
    ({ blocked .dec (.decPull [true, false]) with env := (hostDoes [.src .eos]).env } : State).env.host = .src .eos :: [] ∧
      ({ blocked .dec (.decPull [true, false]) with env := (hostDoes [.src .eos]).env } : State).lzss.wait
        = .decPull [true, false] := ⟨rfl, rfl⟩

theorem test_witness_LitPushedThenStored : (blocked .dec (.decPull [])).lzss.dict.wf := Memory.wf_nil

theorem test_witness_LookaheadFill :
    let s : State := { blocked .enc .encPull with env := (hostDoes [.src (.byte 0x41)]).env }
    s.lzss.dict.wf ∧ s.lzss.wait = .encPull ∧ s.lzss.eosf = false ∧ s.lzss.la + 1 < 2 ^ s.lzss.ej.toNat + 1 :=
  ⟨Memory.wf_nil, rfl, rfl, by decide⟩

theorem test_witness_MatchCopiesThroughRing :
    (∃ (r : BitVec 7) (l : BitVec 4), Instr.match74 127 15 = .match74 r l ∧ 127 = r.toNat ∧ 15 = l.toNat) ∧
      ∃ (r : BitVec 10) (l : BitVec 4), Instr.match104 0 0 = .match104 r l ∧ 0 = r.toNat ∧ 0 = l.toNat :=
  ⟨⟨127, 15, rfl, rfl, rfl⟩, ⟨0, 0, rfl, rfl, rfl⟩⟩

/-- For LzssDecMeansSequence, LzssEncMeansSequence and LzssRoundTrip: an idle machine, not the one of reset, in both
meanings of REF. -/
def idleMachine (mode : RefMode) : State := { State.reset with crc := { acc := 0x1D0F }, refMode := mode }

theorem test_witness_Ok_idle (mode : RefMode) :
    (idleMachine mode).Ok ∧ (idleMachine mode).lzss.phase = .idle := by
  refine ⟨⟨⟨?_, Memory.wf_nil, ?_, fun h => absurd rfl h, fun h => absurd rfl h, Or.inl rfl, rfl⟩, ⟨?_, rfl⟩⟩, rfl⟩
  · change legalPair 7 4 = true
    decide
  · intro c hc
    cases hc
  · change false = true ↔ FrmPhase.idle = .burst
    decide

/-- For the invariants: a decoder at work inside an open burst, the machine of the waveform path. -/
def decodingIntoBurst (inputs : List HostInput) : State :=
  { blocked .dec (.decPull []) with frm := bursting.frm, env := (hostDoes inputs).env }

theorem test_witness_Ok_decoding (inputs : List HostInput) : (decodingIntoBurst inputs).Ok := by
  refine ⟨⟨?_, Memory.wf_nil, ?_, ?_, ?_, Or.inl rfl, ⟨rfl, rfl, rfl⟩⟩, ⟨?_, rfl⟩⟩
  · change legalPair 7 4 = true
    decide
  · intro c hc
    cases hc
  · intro _
    change 111 < 2 ^ 7
    decide
  · intro _
    change 0 ≤ 2 ^ 4 + 1
    decide
  · change true = true ↔ FrmPhase.burst = .burst
    decide

theorem test_witness_EveryStepKeepsOk : ∃ t, step (decodingIntoBurst [.src (.byte 0xA0)]) = .next t := ⟨_, rfl⟩

theorem test_witness_ChipSelectDiscipline : ∃ t, step (decodingIntoBurst [.op [0x37]]) = .next t := ⟨_, rfl⟩

theorem test_witness_BurstPhaseTransitions :
    (∃ t, step (decodingIntoBurst [.op [0x37]]) = .next t ∧ t.frm.phase ≠ .burst) ∧
    (∃ t, step (hostDoes [.op [0x33, 0x00, 0x20]]) = .next t ∧ t.frm.phase ≠ .idle) ∧
    ∃ t, step (decodingIntoBurst [.reset]) = .next t ∧ t.frm.phase ≠ .burst :=
  ⟨⟨_, rfl, by decide⟩, ⟨_, rfl, by decide⟩, ⟨_, rfl, by decide⟩⟩

theorem test_witness_LzssPhaseTransitions :
    (∃ t, step (decodingIntoBurst [.src .eos]) = .next t ∧ t.lzss.phase ≠ .dec) ∧
    ∃ t, step { idleMachine .distance with env := (hostDoes [.op [0x10]]).env } = .next t ∧ t.lzss.phase ≠ .idle :=
  ⟨⟨_, rfl, by decide⟩, ⟨_, rfl, by decide⟩⟩

theorem test_witness_EarlyErrorsChangeNothing : ∃ t, exec (.frmBword 0) State.reset = .next t ∧
    t.env.trace = State.reset.env.trace ++ [] ++ [.done .errState .none] := ⟨_, rfl, rfl⟩

theorem test_witness_NestingLeavesLzssAlone :
    (decodingIntoBurst [.op [0x11]]).lzss.phase ≠ .idle ∧ ∃ t, step (decodingIntoBurst [.op [0x11]]) = .next t :=
  ⟨by decide, _, rfl⟩

theorem test_witness_UnitsShareNoState :
    State.reset.env = (idleMachine .distance).env ∧ State.reset.refMode = (idleMachine .distance).refMode ∧
      State.reset.lzss = (idleMachine .distance).lzss ∧ State.reset.frm = (idleMachine .distance).frm ∧
      State.reset.env = bursting.env ∧ State.reset.refMode = bursting.refMode ∧ State.reset.crc = bursting.crc := by
  decide

/-- A running LZSS unit at a transaction its next answer ends, beside a framer of any state. -/
def answered (p : LzssPhase) (w : LzssWait) (a : HostInput) (frm : Machine.Frm) : State :=
  { blocked p w with frm := frm, env := (hostDoes [a]).env }

/-- Two states that differ in the framer alone take each of the five answers (the answer clause of UnitsShareNoState). -/
theorem test_witness_UnitsShareNoState_answers : Frm.reset ≠ bursting.frm ∧ ∀ frm ∈ [Frm.reset, bursting.frm],
    (∃ t, step (answered .enc .encPull (.src .err) frm) = .next t) ∧
    (∃ t, step (answered .dec (.decPull []) (.src .eos) frm) = .next t) ∧
    (∃ t, step (answered .enc (.encPush [] 1) (.snk .err) frm) = .next t) ∧
    (∃ t, step (answered .enc .encFlush (.snk .ok) frm) = .next t) ∧
    ∃ t, step (answered .dec (.decPush 0x41 0 0) (.snk .ok) frm) = .next t :=
  ⟨by decide, fun _ _ => ⟨⟨_, rfl⟩, ⟨_, rfl⟩, ⟨_, rfl⟩, ⟨_, rfl⟩, ⟨_, rfl⟩⟩⟩

theorem test_witness_OnlyFramerTouchesTransport :
    (∃ t, step { readyLine [true] with env := { (readyLine [true]).env with host := [.op [0x38, 0, 0, 0, 1]] } } = .next t ∧
      t.env.trace = [] ++ [.presented (.frmWait 1), .hrdy true, .done .ok .none]) ∧
    ∃ t, step (decodingIntoBurst [.reset]) = .next t ∧ t.env.trace = [] ++ [.csDeassert, .dcData] :=
  ⟨⟨_, rfl, rfl⟩, ⟨_, rfl, rfl⟩⟩

theorem test_witness_SequenceRoundTrip : legalPair 7 4 = true ∧ legalPair 10 4 = true ∧ legalPair 4 3 = true := by decide

end Sys2Proof.Tests
end

/-! Proofs of the statements of 00_scope.md: what a step does with the input it takes. -/

namespace Sys2Proof.Machine

/-! ## Steps on an operation, and on no input -/

/-- A presentation that is one whole operation runs as `exec` of it, recorded in the history first (R91; log 16). -/
theorem step_op {s : State} {bytes : List Byte} {rest : List HostInput} {i : Instr}
    (h : s.env.host = .op bytes :: rest) (hd : decodeOp bytes = .ok (i, [])) :
    step s = exec i ((s.taken rest).emit (.presented i)) := by
  simp only [step, fetchNext, h, fetchOp, hd, State.taken]

/-- A host that does nothing leaves the CORE waiting (log 2). -/
theorem step_waiting {s : State} (h : s.env.host = []) : step s = .next s := by
  simp only [step, fetchNext, h]

/-- Settles O6. -/
theorem stepRunsPresentedOperation : Obligations.StepRunsPresentedOperation := by
  intro s bytes rest i hhost hdecode
  exact step_op hhost hdecode

/-! ## Every legal input is answered, input by input -/

/-- A whole operation is answered because every instruction has a meaning (`exec_next`), an illegal code because it
completes with ERR_OP (R105). -/
theorem op_answered {s : State} {bytes : List Byte} {rest : List HostInput} (h : s.env.host = .op bytes :: rest)
    (legal : (∃ i, decodeOp bytes = .ok (i, [])) ∨ ∃ op, decodeOp bytes = .error (.illegalOp op)) :
    ∃ t, step s = .next t := by
  obtain ⟨i, hd⟩ | ⟨op, hd⟩ := legal
  · rw [step_op h hd]
    exact exec_next i _
  · exact ⟨_, step_illegal h hd⟩

/-- The two transactions the source may answer (R77). -/
theorem src_answered {s : State} {a : SrcAnswer} {rest : List HostInput} (h : s.env.host = .src a :: rest)
    (isOpen : s.lzss.wait = .encPull ∨ ∃ bits, s.lzss.wait = .decPull bits) : ∃ t, step s = .next t := by
  obtain hw | ⟨bits, hw⟩ := isOpen
  · exact ⟨_, step_src_enc h hw⟩
  · exact ⟨_, step_src_dec h hw⟩

/-- The three transactions the sink may answer (R77). -/
theorem snk_answered {s : State} {a : SnkAnswer} {rest : List HostInput} (h : s.env.host = .snk a :: rest)
    (isOpen : s.lzss.wait = .encFlush ∨ (∃ bits y, s.lzss.wait = .encPush bits y) ∨
      ∃ c src left, s.lzss.wait = .decPush c src left) : ∃ t, step s = .next t := by
  obtain hw | ⟨bits, y, hw⟩ | ⟨c, src, left, hw⟩ := isOpen
  · exact ⟨_, step_snk_flush h hw⟩
  · exact ⟨_, step_snk_push h hw⟩
  · exact ⟨_, step_snk_dec h hw⟩

/-- Settles O9, by the input at the head of what the host does. -/
theorem legalInputsAnswered : Obligations.LegalInputsAnswered := by
  intro s legal
  cases hhost : s.env.host with
  | nil => exact ⟨s, step_waiting hhost⟩
  | cons input rest =>
    rw [hhost] at legal
    cases input with
    | op bytes => exact op_answered hhost legal
    | src a => exact src_answered hhost legal
    | snk a => exact snk_answered hhost legal
    | reset => exact ⟨_, step_reset hhost⟩

end Sys2Proof.Machine

/-! Proofs of the statements of 10_state.md: the invariant, the values at reset, and what a step leaves alone. -/

namespace Sys2Proof.Machine

/-! ## The invariant under an operation presented -/

/-- An instruction that is a token of the LZSS stream (R94), no operation of the port. -/
def isToken : Instr → Bool
  | .lit _ | .match74 _ _ | .match104 _ _ => true
  | .cfgRd _ | .cfgWr _ _ | .lzssEnc | .lzssDec | .crcInit | .crcUpd _ _ | .crcChk _ | .scrIdx _ _ _ _ _
  | .frmSend _ _ _ | .frmRdreg _ | .frmWrreg _ _ | .frmBbeginC _ | .frmBbeginR _ | .frmBword _ | .frmBraw _ _ | .frmBend
  | .frmWait _ => false

theorem decodeOperands_not_token {o : Op} {bs rest : List Byte} {i : Instr}
    (h : decodeOperands o bs = some (i, rest)) : isToken i = false := by
  cases o <;>
    simp only [decodeOperands, Option.bind_eq_bind, Option.bind_eq_some_iff, Prod.exists, Option.some.injEq,
      Prod.mk.injEq] at h <;>
    grind [isToken]

/-- The operation port carries no token (R91). -/
theorem decodeOp_not_token {bytes rest : List Byte} {i : Instr} (h : decodeOp bytes = .ok (i, rest)) :
    isToken i = false := by
  cases bytes with
  | nil => cases h
  | cons op bs =>
    simp only [decodeOp] at h
    split at h
    · cases h
    · split at h
      · cases h
      · rename_i r hr
        cases h
        exact decodeOperands_not_token hr

theorem Lzss.Ok.wait_none {l : Lzss} (h : l.Ok) (hp : l.phase = .idle) : l.wait = .none := by
  have hw := h.wait
  unfold Lzss.waitOk at hw
  split at hw <;> simp_all

/-- A legal pair written to an idle unit leaves it in order: what is said of the cursor and the lookahead is said of a
running one. -/
theorem Lzss.Ok.setPair {l : Lzss} {ei ej : BitVec 4} (h : l.Ok) (hp : l.phase = .idle)
    (hl : legalPair ei.toNat ej.toNat = true) : ({ l with ei := ei, ej := ej } : Lzss).Ok where
  pair := hl
  dict := h.dict
  dictSize := h.dictSize
  cursor := fun hn => absurd hp hn
  lookahead := fun hn => absurd hp hn
  mask := h.mask
  wait := by simpa [Lzss.waitOk, h.wait_none hp] using hp

/-- Where only the LZSS unit has moved, the framer is in order as before. -/
theorem LzssOnly.ok {s t : State} (h : LzssOnly s t) (hf : s.frm.Ok) (hl : t.lzss.Ok) : t.Ok := by
  obtain ⟨l, ev, rfl, -⟩ := h
  exact ⟨hl, hf⟩

theorem FrmRan.ok {s t : State} {ev : List Event} (h : FrmRan s t ev) (hs : s.Ok) : t.Ok := by
  obtain ⟨st, res, hm⟩ := h.moved
  refine ⟨hm.lzss ▸ hs.lzss, (h.cs hs.frm.cs).1, ?_⟩
  rcases h.dc with hdc | hdc
  · exact hdc.trans hs.frm.dc
  · exact hdc

theorem PlainRan.ok {s u : State} (h : PlainRan s u) (hs : s.Ok) : u.Ok := by
  refine ⟨?_, ?_, h.dc.trans hs.frm.dc⟩
  · rcases h.lzss with hl | ⟨hp, hl, hpair⟩
    · exact hl ▸ hs.lzss
    · exact hl ▸ hs.lzss.setPair hp hpair
  · rw [h.cs, h.phase]
    exact hs.frm.cs

/-- A mask on the first place, as an operation, a pushed byte and a pulled byte set it (R130, R131, R133). -/
theorem oneHot_first : oneHot 0x80 = true := by decide

/-- LZSS.ENC started on a unit in order (R130, R134): no byte is in the lookahead and the mask is on the first place. -/
theorem execLzssEnc_ok {s t : State} (hs : s.Ok) (h : exec .lzssEnc s = .next t) : t.lzss.Ok := by
  simp only [exec, execLzssEnc, raise_eq] at h
  split at h <;> cases h
  · exact hs.lzss
  · have start := lzssStart_sound hs.lzss
    exact encLoop_ok (s := { s with lzss := { lzssStart s.lzss with phase := .enc } }) _
      { start with } rfl oneHot_first le_rfl

/-- LZSS.DEC started on a unit in order (R130, R140): no bit is held and the empty string is no token. -/
theorem execLzssDec_ok {s t : State} (hs : s.Ok) (h : exec .lzssDec s = .next t) : t.lzss.Ok := by
  simp only [exec, execLzssDec, raise_eq] at h
  split at h <;> cases h
  · exact hs.lzss
  · have start := lzssStart_sound hs.lzss
    exact Lzss.Sound.ok { start with } ⟨rfl, rfl, rfl⟩

/-- Every operation of the port keeps the invariant, unit by unit. -/
theorem exec_keeps_ok {i : Instr} {s t : State} (hi : isToken i = false) (hs : s.Ok) (h : exec i s = .next t) :
    t.Ok := by
  by_cases hf : isFrm i = true
  · obtain ⟨ev, ran⟩ := exec_isFrm hf h
    exact ran.ok hs
  by_cases hl : isLzss i = true
  · refine (exec_isLzss hl h).ok hs.frm ?_
    cases i <;> simp only [isToken, isLzss, Bool.true_eq_false, Bool.false_eq_true] at hi hl
    case lzssEnc => exact execLzssEnc_ok hs h
    case lzssDec => exact execLzssDec_ok hs h
  · obtain ⟨u, st, res, rfl, ran⟩ := exec_plain (by simpa using hf) (by simpa using hl) h
    exact ⟨(ran.ok hs).lzss, (ran.ok hs).frm⟩

/-! ## The invariant under an answer -/

/-- The source answers the encoder (R135): a byte goes into the ring and fills one place of the lookahead. -/
theorem encOnSrc_ok {s : State} (a : SrcAnswer) (h : s.lzss.Ok) (hw : s.lzss.wait = .encPull) :
    (encOnSrc a s).lzss.Ok := by
  obtain ⟨hp, hla, -, hm⟩ : s.lzss.phase = .enc ∧ s.lzss.la < s.lzss.f ∧ s.lzss.eosf = false ∧
      oneHot s.lzss.wmask = true := by simpa [Lzss.waitOk, hw] using h.wait
  have sound : s.lzss.Sound := h.sound (by simp [hp])
  cases a with
  | byte b =>
    have stored := sound.write (s.lzss.r + s.lzss.la) b
    exact encLoop_ok _ { stored with lookahead := hla } hp hm le_rfl
  | eos =>
    exact encLoop_ok _ { sound with } hp hm le_rfl
  | err => exact lzssEnd_ok h _

/-- The sink answers the encoder inside a token (R131): the mask returns to the first place. -/
theorem encOnPush_ok {s : State} {bits : List Bool} {y : Nat} (a : SnkAnswer) (h : s.lzss.Ok)
    (hw : s.lzss.wait = .encPush bits y) : (encOnPush bits y a s).lzss.Ok := by
  obtain ⟨hp, hy1, hy2, -⟩ : s.lzss.phase = .enc ∧ 1 ≤ y ∧ y ≤ s.lzss.la ∧ s.lzss.wmask = 0 := by
    simpa [Lzss.waitOk, hw] using h.wait
  have sound : s.lzss.Sound := h.sound (by simp [hp])
  cases a with
  | ok =>
    exact encResume_ok (s := { s with lzss := { s.lzss with wbuf := 0x00, wmask := 0x80 } }) bits y
      { sound with } hp oneHot_first hy1 hy2
  | err => exact lzssEnd_ok h _

theorem encOnFlush_ok {s : State} (a : SnkAnswer) (h : s.lzss.Ok) : (encOnFlush a s).lzss.Ok := by
  cases a <;> exact lzssEnd_ok h _

/-- The source answers the decoder (R133): a byte gives it eight bits to read. -/
theorem decOnSrc_ok {s : State} {bits : List Bool} (a : SrcAnswer) (h : s.lzss.Ok)
    (hw : s.lzss.wait = .decPull bits) : FetchOk (decOnSrc bits a s) := by
  obtain ⟨hp, -, hbits⟩ : s.lzss.phase = .dec ∧ s.lzss.rmask = 0 ∧
      decodeToken s.lzss.ei.toNat s.lzss.ej.toNat bits = none := by simpa [Lzss.waitOk, hw] using h.wait
  have sound : s.lzss.Sound := h.sound (by simp [hp])
  cases a with
  | byte b =>
    exact decBits_ok (s := { s with lzss := { s.lzss with rbuf := b, rmask := 0x80 } }) 8 bits
      { sound with mask := .inr oneHot_first } hp (BitVec.isLt _) hbits
  | eos | err => exact lzssEnd_ok h _

/-- The sink answers the decoder (R140, R142): the byte is stored, then the next is copied or a token is read. -/
theorem decOnPush_ok {s : State} {c : Byte} {src left : Nat} (a : SnkAnswer) (h : s.lzss.Ok)
    (hw : s.lzss.wait = .decPush c src left) : FetchOk (decOnPush c src left a s) := by
  have hp : s.lzss.phase = .dec := by simpa [Lzss.waitOk, hw] using h.wait
  have stored : (storeByte c s.lzss).Sound := (h.sound (by simp [hp])).storeByte c
  cases a with
  | ok =>
    cases left with
    | zero =>
      exact decBits_ok (s := { s with lzss := storeByte c s.lzss }) 8 [] stored hp (BitVec.isLt _) rfl
    | succ left => exact pushSnk_dec_ok (s := { s with lzss := storeByte c s.lzss }) stored hp ..
  | err => exact lzssEnd_ok h _

/-! ## The invariant at reset and under every step -/

theorem lzssReset_ok : Lzss.reset.Ok where
  pair := by decide
  dict := Memory.wf_nil
  dictSize := fun c hc => by cases hc
  cursor := fun hp => absurd rfl hp
  lookahead := fun hp => absurd rfl hp
  mask := .inl rfl
  wait := rfl

theorem frmReset_ok : Frm.reset.Ok := ⟨by decide, rfl⟩

/-- Settles O50. -/
theorem resetIsOk : Obligations.ResetIsOk := ⟨lzssReset_ok, frmReset_ok⟩

theorem resetEvent_ok (s : State) : (resetEvent s).Ok :=
  ⟨by simpa using lzssReset_ok, by simpa using frmReset_ok⟩

/-- Settles O49, by what a step can have done (`step_cases`). -/
theorem everyStepKeepsOk : Obligations.EveryStepKeepsOk := by
  intro s t hs h
  rcases step_cases h with ⟨-, rfl⟩ | ⟨bytes, rest, i, -, hd, he⟩ | ⟨bytes, rest, op, -, -, rfl⟩ |
    ⟨a, rest, -, hw, rfl⟩ | ⟨bits, a, rest, -, hw, rfl⟩ | ⟨bits, y, a, rest, -, hw, rfl⟩ | ⟨a, rest, -, hw, rfl⟩ |
    ⟨c, src, left, a, rest, -, hw, rfl⟩ | ⟨rest, -, rfl⟩
  · exact hs
  · exact exec_keeps_ok (s := (s.taken rest).emit (.presented i)) (decodeOp_not_token hd) ⟨hs.lzss, hs.frm⟩ he
  · exact ⟨hs.lzss, hs.frm⟩
  · exact (lzssOnly_encOnSrc ..).ok hs.frm (encOnSrc_ok a hs.lzss hw)
  · exact (lzssOnly_afterFetch (lzssOnly_decOnSrc ..)).ok hs.frm (afterFetch_ok (decOnSrc_ok a hs.lzss hw))
  · exact (lzssOnly_encOnPush ..).ok hs.frm (encOnPush_ok a hs.lzss hw)
  · exact (lzssOnly_encOnFlush ..).ok hs.frm (encOnFlush_ok a hs.lzss)
  · exact (lzssOnly_afterFetch (lzssOnly_decOnPush ..)).ok hs.frm (afterFetch_ok (decOnPush_ok a hs.lzss hw))
  · exact resetEvent_ok _

/-! ## The values at reset (R51) -/

/-- Settles O10: the state after reset is a closed term, and its fields and registers evaluate to the table of R51. -/
theorem resetValues : Obligations.ResetValues := by
  unfold Obligations.ResetValues
  decide

/-- Of the environment a reset changes the history alone (R261). -/
theorem resetEvent_env (s : State) : (resetEvent s).env =
    { s.env with trace := s.env.trace ++ ([.csDeassert] ++ lineEvent s.frm .dcData) } := by
  cases hd : s.frm.hasDc <;> simp [resetEvent, lineEvent, hd, State.emit]

/-- Settles O11: a step on a reset is `resetEvent`, whose fields and trace are laws of the state. -/
theorem resetEventRestoresReset : Obligations.ResetEventRestoresReset := by
  intro s rest hhost
  refine ⟨_, step_reset hhost, ?_, ?_, ?_, ?_, ?_, resetEvent_frm _, resetEvent_refMode _, resetEvent_env _⟩
  all_goals simp [Lzss.reset, Crc.reset]

/-! ## A control register written, then read (R34 to R42) -/

/-- The fields of a value without reserved bits, put together again, are the value (R34). -/
theorem cfgFields_append {val : Half} (h : val.extractLsb' 8 8 = 0#8) :
    (0#8 ++ cfgEj val ++ cfgEi val : BitVec 16) = val := by
  rw [← h, cfgEj, cfgEi, BitVec.extractLsb'_append_extractLsb'_eq_extractLsb' (by rfl),
    BitVec.extractLsb'_append_extractLsb'_eq_extractLsb' (by rfl)]
  exact BitVec.extractLsb'_eq_self

theorem ofBool_getLsbD (val : Half) (k : Nat) : BitVec.ofBool (val.getLsbD k) = val.extractLsb' k 1 := by
  ext j hj
  obtain rfl : j = 0 := by omega
  simp

/-- The two flags of a value without reserved bits, put together again, are the value (R37). -/
theorem ctrlFlags_append {val : Half} (h : val.extractLsb' 2 14 = 0#14) :
    (0#14 ++ BitVec.ofBool (val.getLsbD 1) ++ BitVec.ofBool (val.getLsbD 0) : BitVec 16) = val := by
  rw [← h, ofBool_getLsbD, ofBool_getLsbD, BitVec.extractLsb'_append_extractLsb'_eq_extractLsb' (by rfl),
    BitVec.extractLsb'_append_extractLsb'_eq_extractLsb' (by rfl)]
  exact BitVec.extractLsb'_eq_self

/-- A register reads the legal value it was written with. -/
theorem readCsr_writeCsr {c : Csr} {val : Half} (h : csrLegal c val = true) (s : State) :
    readCsr (writeCsr c val s) c = val := by
  cases c with
  | lzssCfg =>
    simp only [csrLegal, lzssCfgLegal, Bool.and_eq_true, beq_iff_eq] at h
    exact cfgFields_append h.1
  | frmCtrl =>
    simp only [csrLegal, frmCtrlLegal, beq_iff_eq] at h
    exact ctrlFlags_append h
  | frmRdop | frmWrop | frmStaddr | frmStmask | frmStexp => rfl
  | lzssStat | crcAcc | frmStat => cases h

/-- CFG.WR that completes with OK has written a legal value to a register that exists (R121). -/
theorem cfgWr_ok {s t : State} {idx : Byte} {val : Half} (h : exec (.cfgWr idx val) s = .next t)
    (hok : t.env.trace = s.env.trace ++ [.done .ok .none]) :
    ∃ c, Csr.ofIdx idx = some c ∧ csrLegal c val = true ∧ t = complete .ok .none (writeCsr c val s) := by
  simp only [exec, execCfgWr, raise_eq, finish_eq] at h
  split at h
  · cases h; simp at hok
  · rename_i c hc
    split_ifs at h with hro hbusy hlegal
    · cases h; simp at hok
    · cases h; simp at hok
    · cases h; exact ⟨c, hc, hlegal, rfl⟩
    · cases h; simp at hok

/-- Settles O14. -/
theorem writtenValueReadsBack : Obligations.WrittenValueReadsBack := by
  intro s t idx val h hok
  obtain ⟨c, hc, hlegal, rfl⟩ := cfgWr_ok h hok
  have hread : readCsr (complete .ok .none (writeCsr c val s)) c = val := readCsr_writeCsr hlegal s
  simp only [exec, execCfgRd, hc, hread, finish_eq]
  rfl

/-! ## Polling a status register that cannot match (R42, R190) -/

/-- A masked value never has a bit outside the mask, so it differs from an expected value that has one. -/
theorem statusBusy_of_unmatchable {f : Frm} {j : Nat} (hexp : f.stexp.getLsbD j = true)
    (hmask : f.stmask.getLsbD j = false) (v : Half) : statusBusy f v = true := by
  simp only [statusBusy, bne_iff_ne]
  intro heq
  have hbit := congrArg (fun w : Half => w.getLsbD j) heq
  simp [hexp, hmask] at hbit

/-- Between operations and outside a burst the lines are where a whole frame leaves them. -/
theorem Frm.Ok.lines_false {f : Frm} (h : f.Ok) (hp : f.phase = .idle) : f.lines false = f := by
  have hcs := cs_of_idle h.cs hp
  rcases f with ⟨cs, dc, p, hd, uh, r, w, sa, sm, se⟩
  obtain rfl : dc = .data := h.dc
  obtain rfl : cs = false := hcs
  simp [Frm.lines]

/-- A register read between operations, outside a burst: four bytes drawn, the framer as before. -/
theorem readRegister_restores {s : State} (hf : s.frm.Ok) (hp : s.frm.phase = .idle) (addr : Half) :
    ∃ v ev, readRegister addr s = (v, { s with env := s.env.afterRx 4 ev }) := by
  have hread := readRegister_eq addr s
  rw [hf.lines_false hp] at hread
  exact ⟨_, _, hread⟩

/-- One poll that finds the controller busy, whatever it answers. -/
theorem busy_unmatchable {s : State} {j : Nat} (hf : s.frm.Ok) (hp : s.frm.phase = .idle)
    (hpolicy : s.frm.useHrdy = false) (hexp : s.frm.stexp.getLsbD j = true) (hmask : s.frm.stmask.getLsbD j = false) :
    ∃ ev, busy s = (true, { s with env := s.env.afterRx 4 ev }) := by
  obtain ⟨v, ev, hread⟩ := readRegister_restores hf hp s.frm.staddr
  refine ⟨ev, ?_⟩
  simp only [busy, hpolicy, Bool.false_eq_true, if_false, hread, statusBusy_of_unmatchable hexp hmask]

/-- So many polls, each busy. -/
theorem pollUntilIdle_unmatchable (t : Nat) {s : State} {j : Nat} (hf : s.frm.Ok) (hp : s.frm.phase = .idle)
    (hpolicy : s.frm.useHrdy = false) (hexp : s.frm.stexp.getLsbD j = true) (hmask : s.frm.stmask.getLsbD j = false) :
    ∃ ev, pollUntilIdle t s = (false, { s with env := s.env.afterRx (4 * t) ev }) := by
  induction t generalizing s with
  | zero => exact ⟨[], by simp [pollUntilIdle, Env.afterRx]⟩
  | succ t ih =>
    obtain ⟨a, hbusy⟩ := busy_unmatchable hf hp hpolicy hexp hmask
    obtain ⟨b, hrest⟩ := ih (s := { s with env := s.env.afterRx 4 a }) hf hp hpolicy hexp hmask
    refine ⟨a ++ b, ?_⟩
    rw [pollUntilIdle, hbusy]
    simp only [hrest, afterRx_afterRx, Nat.mul_succ, Nat.add_comm 4]

/-- Settles O29. -/
theorem unmatchablePolicyTimesOut : Obligations.UnmatchablePolicyTimesOut := by
  intro s t j hf hp hpolicy hexp hmask
  obtain ⟨ev, hpolls⟩ := pollUntilIdle_unmatchable t.toNat hf hp hpolicy hexp hmask
  refine ⟨{ s with env := s.env.afterRx (4 * t.toNat) ev }, ?_, rfl, rfl, rfl, rfl, rfl⟩
  simp only [exec, execFrmWait, hp, bne_self_eq_false, Bool.false_eq_true, if_false, hpolls, raise_eq]
  rfl

/-! ## What an operation records -/

/-- From `s` to `t` events were added to the history, none of the kind `p`. -/
def RecordsNo (p : Event → Bool) (s t : State) : Prop :=
  ∃ ev, t.env.trace = s.env.trace ++ ev ∧ ∀ e ∈ ev, p e = false

/-- A sample of the ready line (R190). -/
def isSample : Event → Bool
  | .hrdy _ => true
  | .csAssert | .csDeassert | .dcCmd | .dcData | .tx _ | .rx _ | .pull | .pulled _ | .push _ | .pushed _ _
  | .presented _ | .presentedCode _ | .done _ _ => false

section
variable {p : Event → Bool} {s t u : State}

theorem RecordsNo.refl (p : Event → Bool) (s : State) : RecordsNo p s s := ⟨[], by simp, by simp⟩

theorem RecordsNo.trans (h : RecordsNo p s t) (h' : RecordsNo p t u) : RecordsNo p s u := by
  obtain ⟨a, ha, pa⟩ := h
  obtain ⟨b, hb, pb⟩ := h'
  refine ⟨a ++ b, by rw [hb, ha, List.append_assoc], fun e he => ?_⟩
  rcases List.mem_append.1 he with he | he
  · exact pa e he
  · exact pb e he

theorem RecordsNo.emit (h : RecordsNo p s t) {e : Event} (he : p e = false) : RecordsNo p s (t.emit e) :=
  h.trans ⟨[e], rfl, by simpa using he⟩

/-- The history decides the events added: none of them is of the kind. -/
theorem RecordsNo.of_mem (h : RecordsNo p s t) {ev : List Event} {e : Event}
    (htrace : t.env.trace = s.env.trace ++ ev) (hmem : e ∈ ev) : p e = false := by
  obtain ⟨ev', htrace', hp⟩ := h
  obtain rfl : ev = ev' := List.append_cancel_left (htrace.symm.trans htrace')
  exact hp e hmem

theorem recordsNo_framed {f : Frm} {ev : List Event} (h : ∀ e ∈ ev, p e = false) : RecordsNo p s (s.framed f ev) :=
  ⟨ev, rfl, h⟩

end

/-! ## Only FRM.WAIT samples the ready line (R192) -/

theorem head_unsampled (f : Frm) (code : Half) : ∀ e ∈ headEvents f code, isSample e = false := by
  cases hd : f.hasDc <;> simp [headEvents, lineEvent, wordEvents, hd, isSample]

theorem word_unsampled (w : Half) : ∀ e ∈ wordEvents w, isSample e = false := by
  simp [wordEvents, isSample]

theorem openFrame_unsampled (code : Half) (s : State) : RecordsNo isSample s (openFrame code s) := by
  rw [openFrame_eq]
  exact recordsNo_framed (head_unsampled _ _)

theorem tx16_unsampled (w : Half) (s : State) : RecordsNo isSample s (tx16 w s) := by
  rw [tx16_eq]
  exact recordsNo_framed (word_unsampled w)

theorem txHalves_unsampled (ws : List Half) (s : State) : RecordsNo isSample s (txHalves ws s) := by
  rw [txHalves_eq]
  refine recordsNo_framed fun e he => ?_
  obtain ⟨w, -, hw⟩ := List.mem_flatMap.1 he
  exact word_unsampled w e hw

theorem txBytes_unsampled (bs : List Byte) (s : State) : RecordsNo isSample s (txBytes bs s) := by
  rw [txBytes_eq]
  refine recordsNo_framed fun e he => ?_
  obtain ⟨b, -, rfl⟩ := List.mem_map.1 he
  rfl

theorem deselect_unsampled (s : State) : RecordsNo isSample s (deselect s) := ⟨[.csDeassert], rfl, by simp [isSample]⟩

theorem readRegister_unsampled (addr : Half) (s : State) : RecordsNo isSample s (readRegister addr s).2 := by
  rw [readRegister_eq]
  refine ⟨_, rfl, ?_⟩
  simp only [List.forall_mem_append]
  exact ⟨⟨head_unsampled _ _, word_unsampled _⟩, by simp [isSample]⟩

/-- An operation that is refused at once, or goes on as `a` does. -/
theorem recordsNo_unless_refused {p : Event → Bool} {s t : State} {c : Prop} [Decidable c] {st : Status} {res : Result}
    {a : Answer} (hp : p (.done st res) = false) (h : (if c then raise st res s else a) = .next t)
    (ha : a = .next t → RecordsNo p s t) : RecordsNo p s t := by
  split at h
  · cases h
    exact (RecordsNo.refl p s).emit hp
  · exact ha h

/-- An operation that finishes in `u`. -/
theorem RecordsNo.finish {p : Event → Bool} {s t u : State} {res : Result} (hu : RecordsNo p s u)
    (hp : p (.done .ok res) = false) (h : finish res u = .next t) : RecordsNo p s t := by
  cases h
  exact hu.emit hp

/-- Every FRM operation but FRM.WAIT leaves the ready line alone. -/
theorem exec_isFrm_unsampled {i : Instr} {s t : State} (hi : isFrm i = true) (hw : ∀ n, i ≠ .frmWait n)
    (h : exec i s = .next t) : RecordsNo isSample s t := by
  cases i <;> simp only [isFrm, Bool.false_eq_true] at hi
  case frmWait n => exact absurd rfl (hw n)
  case frmSend cmd n p =>
    refine recordsNo_unless_refused rfl h fun h => recordsNo_unless_refused rfl h (RecordsNo.finish ?_ rfl)
    exact ((openFrame_unsampled cmd s).trans (txHalves_unsampled ..)).trans (deselect_unsampled _)
  case frmRdreg addr =>
    exact recordsNo_unless_refused rfl h ((readRegister_unsampled addr s).finish rfl)
  case frmWrreg addr val =>
    refine recordsNo_unless_refused rfl h (RecordsNo.finish ?_ rfl)
    exact (((openFrame_unsampled _ s).trans (tx16_unsampled addr _)).trans (tx16_unsampled val _)).trans
      (deselect_unsampled _)
  case frmBbeginC cmd =>
    exact recordsNo_unless_refused rfl h (RecordsNo.finish (openFrame_unsampled cmd s) rfl)
  case frmBbeginR addr =>
    exact recordsNo_unless_refused rfl h
      (RecordsNo.finish ((openFrame_unsampled _ s).trans (tx16_unsampled addr _)) rfl)
  case frmBword w => exact recordsNo_unless_refused rfl h ((tx16_unsampled w s).finish rfl)
  case frmBraw n bytes => exact recordsNo_unless_refused rfl h ((txBytes_unsampled _ s).finish rfl)
  case frmBend => exact recordsNo_unless_refused rfl h (RecordsNo.finish (deselect_unsampled s) rfl)

/-! ## Only the framer and a reset move the transport (R49, R121) -/

theorem LzssOnly.recordsNo {s t : State} (h : LzssOnly s t) : RecordsNo onTransport s t := by
  obtain ⟨l, ev, rfl, hq⟩ := h
  exact ⟨ev, rfl, hq⟩

/-- An operation of another unit leaves the transport alone. -/
theorem exec_recordsNo_transport {i : Instr} {s t : State} (hi : isFrm i = false) (h : exec i s = .next t) :
    RecordsNo onTransport s t := by
  by_cases hl : isLzss i = true
  · exact (exec_isLzss hl h).recordsNo
  · obtain ⟨u, st, res, rfl, ran⟩ := exec_plain hi (by simpa using hl) h
    exact ⟨[.done st res], by rw [← ran.env]; rfl, by simp [onTransport]⟩

/-- A step on an operation presented: it is whole and runs, or its code is illegal. -/
theorem step_op_cases {s t : State} {bytes : List Byte} {rest : List HostInput} (hhost : s.env.host = .op bytes :: rest)
    (h : step s = .next t) :
    (∃ i, decodeOp bytes = .ok (i, []) ∧ exec i ((s.taken rest).emit (.presented i)) = .next t) ∨
      ∃ op, t = complete .errOp .none ((s.taken rest).emit (.presentedCode op)) := by
  rcases step_cases h with ⟨h1, -⟩ | ⟨b, r, i, h1, hd, he⟩ | ⟨b, r, op, h1, -, he⟩ | ⟨a, r, h1, -⟩ | ⟨b, a, r, h1, -⟩ |
    ⟨b, y, a, r, h1, -⟩ | ⟨a, r, h1, -⟩ | ⟨c, src, l, a, r, h1, -⟩ | ⟨r, h1, -⟩ <;> rw [hhost] at h1 <;> cases h1
  · exact .inl ⟨i, hd, he⟩
  · exact .inr ⟨op, he⟩

theorem resetEvent_unsampled (s : State) : RecordsNo isSample s (resetEvent s) := by
  refine ⟨_, congrArg Env.trace (resetEvent_env s), ?_⟩
  cases hd : s.frm.hasDc <;> simp [lineEvent, hd, isSample]

theorem isSample_iff {e : Event} : isSample e = true ↔ ∃ h, e = .hrdy h := by
  cases e <;> simp [isSample]

/-- Settles O57, by the input the step takes. -/
theorem onlyFramerTouchesTransport : Obligations.OnlyFramerTouchesTransport := by
  intro s t ev e h htrace hmem hon
  have moved : ¬ RecordsNo onTransport s t := by
    intro hq
    rw [hq.of_mem htrace hmem] at hon
    cases hon
  have unsampled : RecordsNo isSample s t → ¬ ∃ h, e = .hrdy h := by
    intro hq hs
    have := hq.of_mem htrace hmem
    rw [isSample_iff.2 hs] at this
    cases this
  cases hhost : s.env.host with
  | nil =>
    rw [step_waiting hhost] at h
    cases h
    exact absurd (RecordsNo.refl _ s) moved
  | cons input rest =>
    cases input with
    | op bytes =>
      obtain ⟨i, hd, he⟩ | ⟨op, rfl⟩ := step_op_cases hhost h
      · have taken : ∀ p, p (.presented i) = false → RecordsNo p s ((s.taken rest).emit (.presented i)) :=
          fun p hp => ⟨[.presented i], rfl, by simpa using hp⟩
        cases hf : isFrm i with
        | false => exact absurd ((taken _ rfl).trans (exec_recordsNo_transport hf he)) moved
        | true =>
          refine ⟨.inr ⟨bytes, rest, i, rfl, hd, ?_⟩, fun hs => ?_⟩
          · cases i <;> trivial
          · by_contra hnone
            refine unsampled ((taken _ rfl).trans (exec_isFrm_unsampled hf ?_ he)) hs
            rintro n rfl
            exact hnone ⟨bytes, rest, n, rfl, hd⟩
      · exact absurd ⟨[.presentedCode op, .done .errOp .none], by simp [State.taken], by simp [onTransport]⟩ moved
    | src a =>
      exact absurd (step_answer_lzssOnly h hhost (by simp) (by simp)).recordsNo moved
    | snk a =>
      exact absurd (step_answer_lzssOnly h hhost (by simp) (by simp)).recordsNo moved
    | reset =>
      rw [step_reset hhost] at h
      cases h
      exact ⟨.inl ⟨rest, rfl⟩, fun hs => absurd hs (unsampled (resetEvent_unsampled (s.taken rest)))⟩

/-! ## The units beside another (R20)

What an operation of one unit does is stated as a commutation: the operation run with the other units replaced is the
operation run, then the other units replaced. -/

/-- The state with the CRC and FRM units replaced, those beside LZSS. -/
@[reducible] def State.withCrcFrm (s : State) (c : Crc) (f : Frm) : State := { s with crc := c, frm := f }

/-- The state with the LZSS and CRC units replaced, those beside FRM. -/
@[reducible] def State.withLzssCrc (s : State) (l : Lzss) (c : Crc) : State := { s with lzss := l, crc := c }

/-- The state with the LZSS and FRM units replaced, those beside CRC. -/
@[reducible] def State.withLzssFrm (s : State) (l : Lzss) (f : Frm) : State := { s with lzss := l, frm := f }


theorem eq_withCrcFrm {s s' : State} (he : s.env = s'.env) (hr : s.refMode = s'.refMode) (hl : s.lzss = s'.lzss) :
    s' = s.withCrcFrm s'.crc s'.frm := by
  cases s'
  simp_all

theorem eq_withLzssCrc {s s' : State} (he : s.env = s'.env) (hr : s.refMode = s'.refMode) (hf : s.frm = s'.frm) :
    s' = s.withLzssCrc s'.lzss s'.crc := by
  cases s'
  simp_all

theorem eq_withLzssFrm {s s' : State} (he : s.env = s'.env) (hr : s.refMode = s'.refMode) (hc : s.crc = s'.crc) :
    s' = s.withLzssFrm s'.lzss s'.frm := by
  cases s'
  simp_all

/-! ### The LZSS unit -/

section
variable (c : Crc) (f : Frm)

theorem withCrcFrm_encFlushBits (s : State) : (encFlushBits s).withCrcFrm c f = encFlushBits (s.withCrcFrm c f) := by
  unfold encFlushBits
  split <;> rfl

theorem withCrcFrm_encLoop (fuel : Nat) (s : State) :
    (encLoop fuel s).withCrcFrm c f = encLoop fuel (s.withCrcFrm c f) := by
  induction fuel generalizing s with
  | zero =>
    unfold encLoop
    split_ifs
    · rfl
    · exact withCrcFrm_encFlushBits ..
    · exact withCrcFrm_encFlushBits ..
  | succ fuel ih =>
    unfold encLoop
    split_ifs
    · rfl
    · exact withCrcFrm_encFlushBits ..
    · dsimp only
      split
      · rfl
      · exact ih _

theorem withCrcFrm_encResume (rest : List Bool) (y : Nat) (s : State) :
    (encResume rest y s).withCrcFrm c f = encResume rest y (s.withCrcFrm c f) := by
  unfold encResume
  dsimp only
  split
  · rfl
  · exact withCrcFrm_encLoop ..

theorem withCrcFrm_encOnSrc (a : SrcAnswer) (s : State) :
    (encOnSrc a s).withCrcFrm c f = encOnSrc a (s.withCrcFrm c f) := by
  cases a with
  | byte | eos => exact withCrcFrm_encLoop ..
  | err => rfl

theorem withCrcFrm_encOnPush (rest : List Bool) (y : Nat) (a : SnkAnswer) (s : State) :
    (encOnPush rest y a s).withCrcFrm c f = encOnPush rest y a (s.withCrcFrm c f) := by
  cases a with
  | ok => exact withCrcFrm_encResume ..
  | err => rfl

theorem withCrcFrm_encOnFlush (a : SnkAnswer) (s : State) :
    (encOnFlush a s).withCrcFrm c f = encOnFlush a (s.withCrcFrm c f) := by
  cases a <;> rfl

theorem withCrcFrm_runToken (token : Token) (s : State) :
    (runToken token s).withCrcFrm c f = runToken token (s.withCrcFrm c f) := by
  unfold runToken
  dsimp only
  split <;> rfl

theorem withCrcFrm_decBits (k : Nat) (bits : List Bool) (s : State) :
    (afterFetch (decBits k bits s)).withCrcFrm c f = afterFetch (decBits k bits (s.withCrcFrm c f)) := by
  induction k generalizing bits s with
  | zero => rfl
  | succ k ih =>
    unfold decBits
    split_ifs
    · rfl
    · dsimp only
      split
      · exact withCrcFrm_runToken ..
      · exact ih ..

theorem withCrcFrm_decOnSrc (bits : List Bool) (a : SrcAnswer) (s : State) :
    (afterFetch (decOnSrc bits a s)).withCrcFrm c f = afterFetch (decOnSrc bits a (s.withCrcFrm c f)) := by
  cases a with
  | byte => exact withCrcFrm_decBits ..
  | eos | err => rfl

theorem withCrcFrm_decOnPush (b : Byte) (src left : Nat) (a : SnkAnswer) (s : State) :
    (afterFetch (decOnPush b src left a s)).withCrcFrm c f = afterFetch (decOnPush b src left a (s.withCrcFrm c f)) := by
  cases a with
  | ok =>
    cases left with
    | zero => exact withCrcFrm_decBits ..
    | succ => rfl
  | err => rfl

/-- An operation or a token of the LZSS unit does the same beside any other units. -/
theorem exec_isLzss_withCrcFrm {i : Instr} {s t : State} (hi : isLzss i = true) (h : exec i s = .next t) :
    exec i (s.withCrcFrm c f) = .next (t.withCrcFrm c f) := by
  cases i <;> simp only [isLzss, Bool.false_eq_true] at hi
  case lzssEnc =>
    simp only [exec, execLzssEnc, raise_eq] at h ⊢
    split_ifs at h ⊢ <;> cases h
    · rfl
    · rw [withCrcFrm_encLoop]
  case lzssDec =>
    simp only [exec, execLzssDec, raise_eq] at h ⊢
    split_ifs at h ⊢ <;> cases h <;> rfl
  case lit | match74 | match104 => cases h; rfl

end

/-- The answer the LZSS unit waits for (R77). -/
def answers (input : HostInput) (w : LzssWait) : Prop :=
  match input, w with
  | .src _, .encPull | .src _, .decPull _ => True
  | .snk _, .encPush _ _ | .snk _, .encFlush | .snk _, .decPush _ _ _ => True
  | _, _ => False

/-- An answer takes the LZSS unit on in the same way beside any other units. -/
theorem step_answer_withCrcFrm (c : Crc) (f : Frm) {s : State} {input : HostInput} {rest : List HostInput}
    (hhost : s.env.host = input :: rest) (hopen : answers input s.lzss.wait) :
    ∃ t, step s = .next t ∧ step (s.withCrcFrm c f) = .next (t.withCrcFrm c f) := by
  cases input with
  | op | reset => exact hopen.elim
  | src a =>
    cases hw : s.lzss.wait with
    | encPull =>
      refine ⟨_, step_src_enc hhost hw, (step_src_enc (s := s.withCrcFrm c f) hhost hw).trans ?_⟩
      rw [withCrcFrm_encOnSrc]; rfl
    | decPull bits =>
      refine ⟨_, step_src_dec hhost hw, (step_src_dec (s := s.withCrcFrm c f) hhost hw).trans ?_⟩
      rw [withCrcFrm_decOnSrc]; rfl
    | none | encPush | encFlush | decPush => rw [hw] at hopen; exact hopen.elim
  | snk a =>
    cases hw : s.lzss.wait with
    | encPush bits y =>
      refine ⟨_, step_snk_push hhost hw, (step_snk_push (s := s.withCrcFrm c f) hhost hw).trans ?_⟩
      rw [withCrcFrm_encOnPush]; rfl
    | encFlush =>
      refine ⟨_, step_snk_flush hhost hw, (step_snk_flush (s := s.withCrcFrm c f) hhost hw).trans ?_⟩
      rw [withCrcFrm_encOnFlush]; rfl
    | decPush b src left =>
      refine ⟨_, step_snk_dec hhost hw, (step_snk_dec (s := s.withCrcFrm c f) hhost hw).trans ?_⟩
      rw [withCrcFrm_decOnPush]; rfl
    | none | encPull | decPull => rw [hw] at hopen; exact hopen.elim

/-! ### The FRM unit -/

section
variable (l : Lzss) (c : Crc)

theorem readRegister_withLzssCrc (addr : Half) (s : State) :
    readRegister addr (s.withLzssCrc l c) = ((readRegister addr s).1, (readRegister addr s).2.withLzssCrc l c) := by
  simp only [readRegister_eq]

theorem sampleReady_withLzssCrc (s : State) :
    sampleReady (s.withLzssCrc l c) = ((sampleReady s).1, (sampleReady s).2.withLzssCrc l c) := by
  unfold sampleReady
  dsimp only
  split <;> rfl

theorem busy_withLzssCrc (s : State) : busy (s.withLzssCrc l c) = ((busy s).1, (busy s).2.withLzssCrc l c) := by
  unfold busy
  simp only [sampleReady_withLzssCrc, readRegister_withLzssCrc]
  split <;> rfl

theorem pollUntilIdle_withLzssCrc (t : Nat) (s : State) :
    pollUntilIdle t (s.withLzssCrc l c) = ((pollUntilIdle t s).1, (pollUntilIdle t s).2.withLzssCrc l c) := by
  induction t generalizing s with
  | zero => rfl
  | succ t ih =>
    rcases hb : busy s with ⟨_ | _, u⟩
    · simp only [pollUntilIdle, busy_withLzssCrc, hb]
    · simp only [pollUntilIdle, busy_withLzssCrc, hb, ih]

/-- An operation of the FRM unit does the same beside any other units. -/
theorem exec_isFrm_withLzssCrc {i : Instr} {s t : State} (hi : isFrm i = true) (h : exec i s = .next t) :
    exec i (s.withLzssCrc l c) = .next (t.withLzssCrc l c) := by
  cases i <;> simp only [isFrm, Bool.false_eq_true] at hi
  case frmRdreg addr =>
    simp only [exec, execFrmRdreg, raise_eq, finish_eq, readRegister_withLzssCrc] at h ⊢
    split_ifs at h ⊢ <;> cases h <;> rfl
  case frmWait n =>
    simp only [exec, execFrmWait, raise_eq, finish_eq, pollUntilIdle_withLzssCrc] at h ⊢
    split_ifs at h ⊢
    · cases h
      rfl
    · rcases hpolls : pollUntilIdle n.toNat s with ⟨_ | _, u⟩ <;> rw [hpolls] at h <;> cases h <;> rfl
  all_goals
    simp only [exec, execFrmSend, execFrmWrreg, execFrmBbeginC, execFrmBbeginR, execFrmBword, execFrmBraw, execFrmBend,
      raise_eq, finish_eq, openFrame_eq, txHalves_eq, txBytes_eq] at h ⊢
    split_ifs at h ⊢ <;> cases h <;> rfl

end

/-! ### The CRC and SCR units -/

/-- The operations of the CRC unit. -/
def isCrc : Instr → Bool
  | .crcInit | .crcUpd _ _ | .crcChk _ => true
  | .cfgRd _ | .cfgWr _ _ | .lzssEnc | .lzssDec | .scrIdx _ _ _ _ _ | .lit _ | .match74 _ _ | .match104 _ _
  | .frmSend _ _ _ | .frmRdreg _ | .frmWrreg _ _ | .frmBbeginC _ | .frmBbeginR _ | .frmBword _ | .frmBraw _ _ | .frmBend
  | .frmWait _ => false

/-- An operation of the CRC unit sets the accumulator and ends, by what the accumulator was. -/
theorem exec_isCrc {i : Instr} (hi : isCrc i = true) (acc : Half) :
    ∃ acc' st, ∀ s : State, s.crc.acc = acc → exec i s = .next (complete st .none (s.setAcc acc')) := by
  cases i <;> simp only [isCrc, Bool.false_eq_true] at hi
  case crcInit => exact ⟨_, _, fun s _ => rfl⟩
  case crcUpd n bytes => exact ⟨crcBytes acc (bytes.take n.toNat), .ok, by rintro s rfl; rfl⟩
  case crcChk w =>
    refine ⟨acc, if acc = w then .ok else .errCrc, ?_⟩
    rintro s rfl
    by_cases hw : s.crc.acc = w
    · simp only [exec, execCrcChk, crcMatches, beq_iff_eq, if_pos hw]
      rfl
    · simp only [exec, execCrcChk, crcMatches, beq_iff_eq, if_neg hw]
      rfl

/-- SCR.IDX ends, by its operands alone (R32). -/
theorem exec_scrIdx (mode gate source gateCount sourceCount : Half) :
    ∃ st res, ∀ s : State, exec (.scrIdx mode gate source gateCount sourceCount) s = .next (complete st res s) := by
  rcases hp : scrPort mode gate source gateCount sourceCount with ⟨_ | _, phys, g, n⟩ <;>
    simp only [exec, execScrIdx, hp, raise_eq, finish_eq] <;> exact ⟨_, _, fun _ => rfl⟩

/-! ### Each unit alone -/

theorem complete_env_congr {s s' : State} (h : s.env = s'.env) {st : Status} {res : Result} :
    (complete st res s).env = (complete st res s').env := by
  simp only [complete, State.emit, h]

section
variable {s s' : State} (he : s.env = s'.env) (hr : s.refMode = s'.refMode)
include he hr

/-- An operation or a token of the LZSS unit sees the LZSS unit alone. -/
theorem exec_isLzss_alone {i : Instr} (hi : isLzss i = true) (hl : s.lzss = s'.lzss) :
    ∃ t t', exec i s = .next t ∧ exec i s' = .next t' ∧ t.lzss = t'.lzss ∧ t.env = t'.env ∧
      t.crc = s.crc ∧ t.frm = s.frm := by
  obtain ⟨t, ht⟩ := exec_next i s
  have ht' := exec_isLzss_withCrcFrm s'.crc s'.frm hi ht
  rw [← eq_withCrcFrm he hr hl] at ht'
  obtain ⟨l, ev, rfl, -⟩ := exec_isLzss hi ht
  exact ⟨_, _, ht, ht', rfl, rfl, rfl, rfl⟩

/-- An answer takes on the LZSS unit alone. -/
theorem step_answer_alone {input : HostInput} {rest : List HostInput} (hl : s.lzss = s'.lzss)
    (hhost : s.env.host = input :: rest) (hopen : answers input s.lzss.wait) :
    ∃ t t', step s = .next t ∧ step s' = .next t' ∧ t.lzss = t'.lzss ∧ t.env = t'.env ∧
      t.crc = s.crc ∧ t.frm = s.frm := by
  obtain ⟨t, ht, ht'⟩ := step_answer_withCrcFrm s'.crc s'.frm hhost hopen
  rw [← eq_withCrcFrm he hr hl] at ht'
  obtain ⟨l, ev, rfl, -⟩ := step_answer_lzssOnly ht hhost
    (by rintro bytes rfl; exact hopen.elim) (by rintro rfl; exact hopen.elim)
  exact ⟨_, _, ht, ht', rfl, rfl, rfl, rfl⟩

omit hr in
/-- An operation of the CRC unit sees the CRC unit alone. -/
theorem exec_isCrc_alone {i : Instr} (hi : isCrc i = true) (hc : s.crc = s'.crc) :
    ∃ t t', exec i s = .next t ∧ exec i s' = .next t' ∧ t.crc = t'.crc ∧ t.env = t'.env ∧
      t.lzss = s.lzss ∧ t.frm = s.frm := by
  obtain ⟨acc, st, h⟩ := exec_isCrc hi s.crc.acc
  exact ⟨_, _, h s rfl, h s' (congrArg Crc.acc hc.symm), rfl, complete_env_congr he, rfl, rfl⟩

/-- An operation of the FRM unit sees the FRM unit alone. -/
theorem exec_isFrm_alone {i : Instr} (hi : isFrm i = true) (hf : s.frm = s'.frm) :
    ∃ t t', exec i s = .next t ∧ exec i s' = .next t' ∧ t.frm = t'.frm ∧ t.env = t'.env ∧
      t.lzss = s.lzss ∧ t.crc = s.crc := by
  obtain ⟨t, ht⟩ := exec_next i s
  have ht' := exec_isFrm_withLzssCrc s'.lzss s'.crc hi ht
  rw [← eq_withLzssCrc he hr hf] at ht'
  obtain ⟨ev, ran⟩ := exec_isFrm hi ht
  obtain ⟨st, res, moved⟩ := ran.moved
  exact ⟨_, _, ht, ht', rfl, rfl, moved.lzss, moved.crc⟩

end

/-- Settles O56, unit by unit. -/
theorem unitsShareNoState : Obligations.UnitsShareNoState := by
  intro s s' he hr
  refine ⟨fun i c ref7 ref10 len hi hl => ?_, fun input rest hl hhost hopen => ?_, fun i n bytes w hi hc => ?_,
    fun i n k bytes p a w hi hf => ?_, fun mode gate source gateCount sourceCount => ?_⟩
  · exact exec_isLzss_alone he hr (by revert i; simp [isLzss]) hl
  · exact step_answer_alone he hr hl hhost hopen
  · exact exec_isCrc_alone he (by revert i; simp [isCrc]) hc
  · exact exec_isFrm_alone he hr (by revert i; simp [isFrm]) hf
  · obtain ⟨st, res, h⟩ := exec_scrIdx mode gate source gateCount sourceCount
    exact ⟨_, _, h s, h s', complete_env_congr he, rfl, rfl, rfl⟩

end Sys2Proof.Machine

/-! Proofs of the statements of 20_memory.md: the LZSS unit under an operation presented while it runs. -/

namespace Sys2Proof.Machine

/-- A running LZSS unit refuses both of its operations with ERR_STATE (R134, R140). -/
theorem exec_lzss_running {i : Instr} {s : State} (hi : i = .lzssEnc ∨ i = .lzssDec) (hp : s.lzss.phase ≠ .idle) :
    exec i s = .next (complete .errState .none s) := by
  obtain rfl | rfl := hi
  · simp [exec, execLzssEnc, raise, hp]
  · simp [exec, execLzssDec, raise, hp]

/-- Of the LZSS unit's instructions the port carries only the two operations: tokens come with the stream (R94). -/
theorem isLzss_not_token {i : Instr} (hl : isLzss i = true) (ht : isToken i = false) : i = .lzssEnc ∨ i = .lzssDec := by
  cases i <;> simp only [isLzss, isToken, Bool.false_eq_true, Bool.true_eq_false] at hl ht
  case lzssEnc => exact .inl rfl
  case lzssDec => exact .inr rfl

/-- A CFG, CRC or SCR operation leaves a running LZSS unit alone: only an idle one takes a new pair (R121). -/
theorem PlainRan.lzss_running {s u : State} (h : PlainRan s u) (hp : s.lzss.phase ≠ .idle) : u.lzss = s.lzss :=
  h.lzss.resolve_right fun ⟨idle, _⟩ => hp idle

/-- No operation of the port changes a running LZSS unit: it belongs to another unit, or it is refused. -/
theorem exec_lzss_unchanged {i : Instr} {s t : State} (hi : isToken i = false) (hp : s.lzss.phase ≠ .idle)
    (h : exec i s = .next t) : t.lzss = s.lzss := by
  by_cases hf : isFrm i = true
  · obtain ⟨ev, ran⟩ := exec_isFrm hf h
    obtain ⟨st, res, moved⟩ := ran.moved
    exact moved.lzss
  by_cases hl : isLzss i = true
  · rw [exec_lzss_running (isLzss_not_token hl hi) hp] at h
    cases h
    rfl
  · obtain ⟨u, st, res, rfl, ran⟩ := exec_plain (by simpa using hf) (by simpa using hl) h
    exact ran.lzss_running hp

/-- Settles O55: the operation presented is whole and runs beside the unit, or its code is illegal and does nothing. -/
theorem nestingLeavesLzssAlone : Obligations.NestingLeavesLzssAlone := by
  intro s t bytes rest hp hhost h
  obtain ⟨i, hd, he⟩ | ⟨op, rfl⟩ := step_op_cases hhost h
  · exact exec_lzss_unchanged (s := (s.taken rest).emit (.presented i)) (decodeOp_not_token hd) hp he
  · rfl

end Sys2Proof.Machine

/-! Proofs of the statements of 30_encoding.md: the encodings of operations and tokens, the steps that fetch them, and
the burst as a frame held open. -/

namespace Sys2Proof

/-! ## The operation port -/

/-- The operation of R91 that an instruction is; a token of the stream is none. -/
def Instr.operation : Instr → Option Op
  | .cfgRd _ => some .cfgRd
  | .cfgWr _ _ => some .cfgWr
  | .lzssEnc => some .lzssEnc
  | .lzssDec => some .lzssDec
  | .crcInit => some .crcInit
  | .crcUpd _ _ => some .crcUpd
  | .crcChk _ => some .crcChk
  | .frmSend _ _ _ => some .frmSend
  | .frmRdreg _ => some .frmRdreg
  | .frmWrreg _ _ => some .frmWrreg
  | .frmBbeginC _ => some .frmBbeginC
  | .frmBbeginR _ => some .frmBbeginR
  | .frmBword _ => some .frmBword
  | .frmBraw _ _ => some .frmBraw
  | .frmBend => some .frmBend
  | .frmWait _ => some .frmWait
  | .scrIdx _ _ _ _ _ => some .scrIdx
  | .lit _ | .match74 _ _ | .match104 _ _ => none

/-- An operation is presented as its code, then its operands (R90, R91). -/
theorem encode_of_operation {i : Instr} {o : Op} (h : i.operation = some o) :
    encode i = .port (o.code :: encodeOperands i) := by
  cases i <;> cases h <;> rfl

/-- The bytes that decode as an operation begin with its code, and the rest are its operands and what follows (R90). -/
theorem decodeOp_eq_ok_iff {bytes : List Byte} {r : Instr × List Byte} :
    decodeOp bytes = .ok r ↔ ∃ o bs, bytes = o.code :: bs ∧ decodeOperands o bs = some r := by
  constructor
  · intro h
    cases bytes with
    | nil => cases h
    | cons op bs =>
      simp only [decodeOp] at h
      split at h
      · cases h
      · rename_i o ho
        split at h
        · cases h
        · rename_i hr
          cases h
          exact ⟨o, bs, by rw [code_of_ofCode ho], hr⟩
  · rintro ⟨o, bs, rfl, hr⟩
    simp [decodeOp, hr]

/-- The operands of a well-formed operation read back, whatever follows them (R91, R93). -/
theorem decodeOperands_encodeOperands {i : Instr} {o : Op} (ho : i.operation = some o) (hw : i.wellFormed = true)
    (rest : List Byte) : decodeOperands o (encodeOperands i ++ rest) = some (i, rest) := by
  cases i <;> cases ho
  case crcUpd n bytes | frmBraw n bytes =>
    have hn : bytes.length = n.toNat := by simpa [Instr.wellFormed] using hw
    simp [decodeOperands, encodeOperands, takeU32_bytes32, ← hn, takeBytes_append]
  case frmSend cmd n p =>
    have hn : p.length = n.toNat := by simpa [Instr.wellFormed] using hw
    simp [decodeOperands, encodeOperands, takeU16_bytes16, takeU8_cons, ← hn, takeHalves_append]
  all_goals simp [decodeOperands, encodeOperands, takeU8_cons, takeU16_bytes16, takeU32_bytes32]

/-- Bytes read as operands are the operands' encoding and what follows: no second spelling (R91, R93). -/
theorem eq_encodeOperands_of_decodeOperands {o : Op} {bs rest : List Byte} {i : Instr}
    (h : decodeOperands o bs = some (i, rest)) :
    i.operation = some o ∧ i.wellFormed = true ∧ bs = encodeOperands i ++ rest := by
  cases o <;>
    simp only [decodeOperands, Option.bind_eq_bind, Option.bind_eq_some_iff, Prod.exists, Option.some.injEq,
      Prod.mk.injEq] at h
  case lzssEnc | lzssDec | crcInit | frmBend =>
    obtain ⟨rfl, rfl⟩ := h
    exact ⟨rfl, rfl, rfl⟩
  case cfgRd =>
    obtain ⟨idx, bs, h1, rfl, rfl⟩ := h
    exact ⟨rfl, rfl, takeU8_some h1⟩
  case cfgWr =>
    obtain ⟨idx, bs, h1, val, bs', h2, rfl, rfl⟩ := h
    exact ⟨rfl, rfl, by rw [takeU8_some h1, takeU16_some h2]; rfl⟩
  case crcUpd | frmBraw =>
    obtain ⟨n, bs, h1, bytes, bs', h2, rfl, rfl⟩ := h
    obtain ⟨hn, h2⟩ := takeBytes_some h2
    exact ⟨rfl, by simp [Instr.wellFormed, hn], by simp [encodeOperands, takeU32_some h1, h2]⟩
  case frmSend =>
    obtain ⟨cmd, bs, h1, n, bs', h2, p, bs'', h3, rfl, rfl⟩ := h
    obtain ⟨hn, h3⟩ := takeHalves_some h3
    exact ⟨rfl, by simp [Instr.wellFormed, hn], by simp [encodeOperands, takeU16_some h1, takeU8_some h2, h3]⟩
  case crcChk | frmRdreg | frmBbeginC | frmBbeginR | frmBword =>
    obtain ⟨w, bs, h1, rfl, rfl⟩ := h
    exact ⟨rfl, rfl, takeU16_some h1⟩
  case frmWait =>
    obtain ⟨t, bs, h1, rfl, rfl⟩ := h
    exact ⟨rfl, rfl, takeU32_some h1⟩
  case frmWrreg =>
    obtain ⟨addr, bs, h1, val, bs', h2, rfl, rfl⟩ := h
    exact ⟨rfl, rfl, by simp [encodeOperands, takeU16_some h1, takeU16_some h2]⟩
  case scrIdx =>
    obtain ⟨m, _, h1, g, _, h2, s, _, h3, gc, _, h4, sc, _, h5, rfl, rfl⟩ := h
    refine ⟨rfl, rfl, ?_⟩
    rw [takeU16_some h1, takeU16_some h2, takeU16_some h3, takeU16_some h4, takeU16_some h5]
    simp [encodeOperands]

/-! ## Tokens -/

/-- The fields of a token fit the widths its pair gives them (R94). -/
def Token.fits (ei ej : Nat) : Token → Prop
  | .lit _ => True
  | .pair ref len => ref < 2 ^ ei ∧ len < 2 ^ ej

/-- A field written in its width reads back. -/
theorem bitsNat_natBits_of_lt {w v : Nat} (h : v < 2 ^ w) : bitsNat (natBits w v) = v := by
  rw [bitsNat_natBits, Nat.mod_eq_of_lt h]

theorem take_natBits (w v : Nat) : (natBits w v).take w = natBits w v :=
  List.take_of_length_le (natBits_length w v).le

/-- A token's bits, alone, read as the token (R94, R95). -/
theorem decodeToken_bits {ei ej : Nat} {token : Token} (h : token.fits ei ej) :
    decodeToken ei ej (token.bits ei ej) = some (token, []) := by
  cases token with
  | lit c => simp [Token.bits, decodeToken, take_natBits, bitsNat_natBits_of_lt (w := 8) c.isLt]
  | pair ref len => simp [Token.bits, decodeToken, take_natBits, bitsNat_natBits_of_lt h.1, bitsNat_natBits_of_lt h.2]

/-- Cut short anywhere, a token's bits are incomplete (R99). -/
theorem decodeToken_take_bits {ei ej : Nat} {token : Token} (h : token.fits ei ej) {k : Nat}
    (hk : k < (token.bits ei ej).length) : decodeToken ei ej ((token.bits ei ej).take k) = none := by
  have whole : decodeToken ei ej ((token.bits ei ej).take k ++ (token.bits ei ej).drop k) = some (token, []) := by
    rw [List.take_append_drop, decodeToken_bits h]
  exact decodeToken_prefix_none whole (by simpa using hk)

/-- Settles O3. -/
theorem tokenBitsDecodeBack : Obligations.TokenBitsDecodeBack := by
  intro ei ej token fields
  have h : token.fits ei ej := by cases token <;> exact fields
  exact ⟨fun rest => decodeToken_append (decodeToken_bits h) rest, fun k hk => decodeToken_take_bits h hk⟩

/-- The bits of a token that has a row decode to the row's instruction (R94, R99). -/
theorem decode_stream_bits {ei ej : Nat} {token : Token} {i : Instr} (h : token.fits ei ej)
    (row : tokenInstr ei ej token = some i) : decode (.stream ei ej (token.bits ei ej)) = .ok (i, []) := by
  simp [decode, decodeToken_bits h, row]

/-! ## Decode and encode agree -/

/-- Settles O1: an operation's code selects it and its operands read back; a token's bits read as the token of its
row. -/
theorem encodedInstructionDecodesBack : Obligations.EncodedInstructionDecodesBack := by
  intro i hw
  cases ho : i.operation with
  | some o =>
    rw [encode_of_operation ho]
    intro rest
    exact decodeOp_eq_ok_iff.2 ⟨o, _, rfl, decodeOperands_encodeOperands ho hw rest⟩
  | none =>
    cases i <;> simp only [Instr.operation, reduceCtorEq] at ho
    case lit c => exact decode_stream_bits (token := .lit c) trivial rfl
    case match74 ref len =>
      exact decode_stream_bits (token := .pair ref.toNat len.toNat) ⟨ref.isLt, len.isLt⟩ (by simp [tokenInstr])
    case match104 ref len =>
      exact decode_stream_bits (token := .pair ref.toNat len.toNat) ⟨ref.isLt, len.isLt⟩ (by simp [tokenInstr])

/-- Settles O2: the code read is the operation's own, and so are the operand bytes. -/
theorem decodedBytesAreTheEncoding : Obligations.DecodedBytesAreTheEncoding := by
  intro bytes i rest h
  obtain ⟨o, bs, rfl, hr⟩ := decodeOp_eq_ok_iff.1 h
  obtain ⟨ho, hw, rfl⟩ := eq_encodeOperands_of_decodeOperands hr
  exact ⟨hw, o.code :: encodeOperands i, encode_of_operation ho, rfl⟩

/-- Settles O4, by decoding the nine words. -/
theorem specWordsDecode : Obligations.SpecWordsDecode := by
  refine ⟨?_, ?_, ?_, ?_, ?_, ?_, ?_, ?_, ?_⟩ <;> decide

end Sys2Proof

namespace Sys2Proof.Machine

/-! ## Illegal operation codes -/

/-- A code that is not one of the seventeen selects no operation (R90, R105). -/
theorem ofCode_eq_none {op : Byte}
    (h : op.toNat ∉ [0x00, 0x01, 0x10, 0x11, 0x20, 0x21, 0x22, 0x30, 0x31, 0x32, 0x33, 0x34, 0x35, 0x36, 0x37, 0x38,
      0x40]) : Op.ofCode op = none := by
  cases ho : Op.ofCode op with
  | none => rfl
  | some o =>
    obtain rfl := code_of_ofCode ho
    exact absurd (by cases o <;> decide) h

/-- Settles O5: the presentation of an illegal code is answered by its completion, whatever follows the code; the codes
are counted by trying all 256. -/
theorem illegalOperationCodes : Obligations.IllegalOperationCodes := by
  refine ⟨fun s op operands rest hop hhost => ?_, by decide +kernel⟩
  have illegal : decodeOp (op :: operands) = .error (.illegalOp op) := by simp only [decodeOp, ofCode_eq_none hop]
  rw [step_illegal hhost illegal]
  simp [complete, State.emit, State.taken]

/-! ## The token a source completes -/

/-- A token with a row in the opcode table runs as the row's instruction. -/
theorem exec_of_row {token : Token} {s : State} {i : Instr}
    (row : tokenInstr s.lzss.ei.toNat s.lzss.ej.toNat token = some i) : exec i s = .next (runToken token s) := by
  rw [← fetchToken_inl]
  simp [fetchToken, row, Fetched.answer]

/-- A MATCH of a pair without a row runs by the shared operation (log 14). -/
theorem runToken_of_no_row {ref len : Nat} {s : State}
    (row : tokenInstr s.lzss.ei.toNat s.lzss.ej.toNat (.pair ref len) = none) :
    runToken (.pair ref len) s = runMatch ref len s := by
  simp [runToken, row]

/-- A byte whose `k`-th bit completes a token: the token is read, and the byte is held from its next bit on (R133). -/
theorem decOnSrc_token {s : State} {bits : List Bool} {b : Byte} {k : Nat} {token : Token} (hk : 1 ≤ k) (hk8 : k ≤ 8)
    (hd : decodeToken s.lzss.ei.toNat s.lzss.ej.toNat (bits ++ (natBits 8 b.toNat).take k) = some (token, [])) :
    decOnSrc bits (.byte b) s = .inl (token, { s with lzss := { s.lzss with rbuf := b, rmask := 0x80#8 >>> k } }) := by
  have read := decBits_token (s := { s with lzss := { s.lzss with rbuf := b } }) hk 0 8 bits (by omega) hk8 hd
  rw [Nat.zero_add] at read
  exact read

/-- Settles O7. -/
theorem stepRunsFetchedToken : Obligations.StepRunsFetchedToken := by
  intro s bits b rest k token hhost hwait hk8 hk hd t
  have run : step s = .next (runToken token t) := by
    rw [step_src_dec hhost hwait, decOnSrc_token (s := (s.taken rest).emit (.pulled (.byte b))) hk hk8 hd]
    rfl
  refine ⟨fun i row => ?_, fun ref len hpair row => ?_⟩
  · rw [run, exec_of_row (s := t) row]
  · subst hpair
    rw [run, runToken_of_no_row (s := t) row]

/-! ## A burst and the frame of FRM.SEND -/

/-- An instruction that answers, then the others. -/
theorem execAll_cons {i : Instr} {s t : State} (h : exec i s = .next t) (rest : List Instr) :
    execAll (i :: rest) s = execAll rest t := by
  simp only [execAll, h]

/-- FRM.SEND between bursts, with at most five parameters (R181). -/
theorem exec_frmSend_idle {s : State} {n : Byte} {p : List Half} (hs : s.frm.phase = .idle) (hp : p.length = n.toNat)
    (hn : n.toNat ≤ 5) (cmd : Half) :
    exec (.frmSend cmd n p) s = .next (s.framed (s.frm.lines false)
      (headEvents s.frm cmd ++ p.flatMap wordEvents ++ [.csDeassert, .done .ok .none])) := by
  have few : ¬ Config.sendMaxParams < n.toNat := Nat.not_lt.2 hn
  have whole : p.take n.toNat = p := List.take_of_length_le hp.le
  simp [exec, execFrmSend, hs, few, whole, openFrame_eq, txHalves_eq, deselect_eq, complete_eq, Frm.lines]

/-- FRM.BBEGIN.C between bursts (R184). -/
theorem exec_frmBbeginC_idle {s : State} (hs : s.frm.phase = .idle) (cmd : Half) :
    exec (.frmBbeginC cmd) s = .next (s.framed { s.frm.lines true with phase := .burst }
      (headEvents s.frm cmd ++ [.done .ok .none])) := by
  simp [exec, execFrmBbeginC, hs, openFrame_eq, complete_eq, State.setFrmPhase, State.framed]

/-- What FRM.BWORD records when no error stops it: its word and its completion (R186). -/
def bwordEvents (w : Half) : List Event := wordEvents w ++ [.done .ok .none]

/-- FRM.BWORD in a burst (R186). -/
theorem exec_frmBword_burst {s : State} (hs : s.frm.phase = .burst) (w : Half) :
    exec (.frmBword w) s = .next (s.framed s.frm (bwordEvents w)) := by
  simp [exec, execFrmBword, hs, tx16_eq, complete_eq, bwordEvents]

/-- FRM.BEND in a burst (R188). -/
theorem exec_frmBend_burst {s : State} (hs : s.frm.phase = .burst) :
    exec .frmBend s = .next (s.framed { s.frm with cs := false, phase := .idle } [.csDeassert, .done .ok .none]) := by
  simp [exec, execFrmBend, hs, deselect_eq, complete_eq, State.setFrmPhase, State.framed]

/-- The words of a burst, one FRM.BWORD each, before what follows them (R186). -/
theorem execAll_frmBwords {s : State} (hs : s.frm.phase = .burst) (p : List Half) (rest : List Instr) :
    execAll (p.map Instr.frmBword ++ rest) s = execAll rest (s.framed s.frm (p.flatMap bwordEvents)) := by
  induction p generalizing s with
  | nil => simp
  | cons w p ih =>
    rw [List.map_cons, List.cons_append, execAll_cons (exec_frmBword_burst hs w),
      ih (s := s.framed s.frm _) hs]
    simp

/-- The whole burst (R103): the events of its operations, each with its completion, and the lines as a frame leaves
them. -/
theorem execAll_burst {s : State} (hs : s.frm.phase = .idle) (cmd : Half) (p : List Half) :
    execAll ([.frmBbeginC cmd] ++ p.map Instr.frmBword ++ [.frmBend]) s =
      .next (s.framed (s.frm.lines false)
        (headEvents s.frm cmd ++ [.done .ok .none] ++ p.flatMap bwordEvents ++ [.csDeassert, .done .ok .none])) := by
  rw [List.singleton_append, List.cons_append, execAll_cons (exec_frmBbeginC_idle hs cmd), execAll_frmBwords rfl,
    execAll_cons (exec_frmBend_burst rfl)]
  simp [execAll, Frm.lines, hs]

/-- On the transport the completions between the words do not show. -/
theorem filter_burst_words (p : List Half) :
    (p.flatMap bwordEvents).filter onTransport = (p.flatMap wordEvents).filter onTransport := by
  induction p with
  | nil => rfl
  | cons w p ih => simp [ih, bwordEvents, onTransport]

/-- Settles O26: the two histories differ by the completions of the burst's operations alone. -/
theorem burstFrameIsSendFrame : Obligations.BurstFrameIsSendFrame := by
  intro s cmd n p hs hp hn
  refine ⟨_, _, _, _, execAll_burst hs cmd p, exec_frmSend_idle hs hp hn cmd, rfl, rfl, ?_, rfl⟩
  simp [List.filter_cons, filter_burst_words, onTransport]

end Sys2Proof.Machine

/-! Proofs of the statements of 40_config_ops.md: what CFG.RD and CFG.WR answer and what they write. -/

namespace Sys2Proof.Machine

/-! ## Registers by index (R33) -/

/-- The index of a register selects it. -/
@[simp] theorem ofIdx_idx (c : Csr) : Csr.ofIdx c.idx = some c := by cases c <;> rfl

/-- An index selects only the register whose index it is. -/
theorem idx_of_ofIdx {i : Byte} {c : Csr} (h : Csr.ofIdx i = some c) : c.idx = i := by
  simpa using List.find?_some h

/-- An index that selects no register is outside the map. -/
theorem not_mem_of_ofIdx_none {i : Byte} (h : Csr.ofIdx i = none) :
    i.toNat ∉ [0x00, 0x01, 0x10, 0x20, 0x21, 0x22, 0x23, 0x24, 0x25, 0x26] := by
  change i.toNat ∉ Csr.all.map fun c => c.idx.toNat
  simpa [Csr.ofIdx, BitVec.toNat_inj] using h

/-- Looking a number up in a table of registers by index is finding the register. -/
theorem lookup_map_idx (l : List Csr) (f : Csr → Nat) (i : Byte) :
    (l.map fun c => (c.idx.toNat, f c)).lookup i.toNat = (l.find? fun c => c.idx == i).map f := by
  induction l with
  | nil => rfl
  | cons c l ih =>
    by_cases h : c.idx = i
    · simp [h]
    · have hne : (i.toNat == c.idx.toNat) = false := by simpa [BitVec.toNat_inj] using Ne.symm h
      simp [List.lookup_cons, hne, h, ih]

/-! ## The number a register's fields spell (R34, R35, R37, R43) -/

/-- Fields side by side: the upper one counts in units of the lower one's range. -/
theorem append_toNat {m n : Nat} (x : BitVec m) (y : BitVec n) : (x ++ y).toNat = 2 ^ n * x.toNat + y.toNat := by
  rw [BitVec.toNat_append, ← Nat.shiftLeft_add_eq_or_of_lt y.isLt, Nat.shiftLeft_eq, Nat.mul_comm]

theorem readCsr_lzssCfg_toNat (s : State) :
    (readCsr s .lzssCfg).toNat = s.lzss.ei.toNat + 16 * s.lzss.ej.toNat := by
  simp only [readCsr, append_toNat, BitVec.toNat_ofNat]
  omega

theorem readCsr_lzssStat_toNat (s : State) :
    (readCsr s .lzssStat).toNat = match s.lzss.phase with | .idle => 0 | .enc => 1 | .dec => 2 := by
  rw [readCsr]
  cases s.lzss.phase <;> rfl

theorem readCsr_frmCtrl_toNat (s : State) :
    (readCsr s .frmCtrl).toNat = s.frm.hasDc.toNat + 2 * s.frm.useHrdy.toNat := by
  simp only [readCsr, append_toNat, BitVec.toNat_ofNat, BitVec.toNat_ofBool]
  omega

theorem readCsr_frmStat_toNat (s : State) :
    (readCsr s .frmStat).toNat = (match s.frm.phase with | .idle => 0 | .burst => 1) + 2 * s.frm.cs.toNat
      + 4 * (match s.frm.dc with | .cmd => 0 | .data => 1) := by
  rw [readCsr]
  cases s.frm.phase <;> cases s.frm.cs <;> cases s.frm.dc <;> rfl

/-- The table lists each register's index with the number CFG.RD assembles. -/
theorem csrTable_eq (s : State) : csrTable s = Csr.all.map fun c => (c.idx.toNat, (readCsr s c).toNat) := by
  simp only [csrTable, Csr.all, List.map_cons, List.map_nil, readCsr_lzssCfg_toNat, readCsr_lzssStat_toNat,
    readCsr_frmCtrl_toNat, readCsr_frmStat_toNat]
  rfl

theorem lookup_csrTable (s : State) (i : Byte) :
    (csrTable s).lookup i.toNat = (Csr.ofIdx i).map fun c => (readCsr s c).toNat := by
  rw [csrTable_eq, lookup_map_idx, Csr.ofIdx]

/-! ## CFG.RD -/

/-- CFG.RD of an index that names no register (R120). -/
theorem exec_cfgRd_absent {idx : Byte} (h : Csr.ofIdx idx = none) (s : State) :
    exec (.cfgRd idx) s = .next (s.ended .errParam (.value 0)) := by
  simp only [exec, execCfgRd, h]
  rfl

/-- CFG.RD of a register (R120). -/
theorem exec_cfgRd_idx (c : Csr) (s : State) :
    exec (.cfgRd c.idx) s = .next (s.ended .ok (.value (readCsr s c))) := by
  simp only [exec, execCfgRd, ofIdx_idx]
  rfl

/-- Settles O12: an index names a register in the table exactly when it selects one. -/
theorem controlRegisterRead : Obligations.ControlRegisterRead := by
  intro s idx
  rw [lookup_csrTable]
  cases hc : Csr.ofIdx idx with
  | none => exact exec_cfgRd_absent hc s
  | some c =>
    obtain rfl := idx_of_ofIdx hc
    simp [exec_cfgRd_idx]

/-! ## Fields and legality of a value written (R34, R37) -/

theorem writeCsr_lzssCfg (val : Half) (s : State) :
    writeCsr .lzssCfg val s = { s with lzss := { s.lzss with
      ei := BitVec.ofNat 4 (val.toNat % 16), ej := BitVec.ofNat 4 (val.toNat / 16 % 16) } } := by
  have ei : cfgEi val = BitVec.ofNat 4 (val.toNat % 16) := BitVec.eq_of_toNat_eq (by simp [cfgEi])
  have ej : cfgEj val = BitVec.ofNat 4 (val.toNat / 16 % 16) :=
    BitVec.eq_of_toNat_eq (by simp [cfgEj, Nat.shiftRight_eq_div_pow])
  rw [writeCsr, ei, ej]

theorem getLsbD_eq_div_mod (val : Half) (k : Nat) : val.getLsbD k = decide (val.toNat / 2 ^ k % 2 = 1) := by
  rw [← BitVec.testBit_toNat, Nat.testBit_eq_decide_div_mod_eq]

theorem writeCsr_frmCtrl (val : Half) (s : State) :
    writeCsr .frmCtrl val s = { s with frm := { s.frm with
      hasDc := decide (val.toNat % 2 = 1), useHrdy := decide (val.toNat / 2 % 2 = 1) } } := by
  rw [writeCsr, getLsbD_eq_div_mod, getLsbD_eq_div_mod, pow_zero, Nat.div_one, pow_one]

/-- Bits from the `k`-th to the top are 0 when the value is below `2 ^ k`. -/
theorem extractLsb'_eq_zero_iff {val : Half} {k n : Nat} (h : k + n = 16) :
    val.extractLsb' k n = 0#n ↔ val.toNat / 2 ^ k = 0 := by
  have small : val.toNat / 2 ^ k < 2 ^ n := by
    rw [Nat.div_lt_iff_lt_mul (Nat.two_pow_pos k), ← Nat.pow_add, Nat.add_comm, h]
    exact val.isLt
  rw [← BitVec.toNat_inj, BitVec.extractLsb'_toNat, Nat.shiftRight_eq_div_pow, Nat.mod_eq_of_lt small,
    BitVec.toNat_ofNat, Nat.zero_mod]

/-- LZSS_CFG accepts what R121 does not refuse. -/
theorem lzssCfgLegal_iff (val : Half) :
    lzssCfgLegal val = true ↔
      ¬ (val.toNat / 256 ≠ 0 ∨ val.toNat / 16 % 16 < 1 ∨ val.toNat % 16 ≤ val.toNat / 16 % 16 ∨
        Config.eiMax < val.toNat % 16 ∨ val.toNat % 16 + val.toNat / 16 % 16 < 7) := by
  have ei : (cfgEi val).toNat = val.toNat % 16 := by simp [cfgEi]
  have ej : (cfgEj val).toNat = val.toNat / 16 % 16 := by simp [cfgEj, Nat.shiftRight_eq_div_pow]
  rw [lzssCfgLegal, Bool.and_eq_true, beq_iff_eq, extractLsb'_eq_zero_iff rfl, legalPair_iff, ei, ej]
  omega

/-- FRM_CTRL accepts what R121 does not refuse. -/
theorem frmCtrlLegal_iff (val : Half) : frmCtrlLegal val = true ↔ ¬ val.toNat / 4 ≠ 0 := by
  rw [frmCtrlLegal, beq_iff_eq, not_not]
  exact extractLsb'_eq_zero_iff rfl

/-! ## CFG.WR -/

/-- CFG.WR of an index that names no register (R121). -/
theorem exec_cfgWr_absent {idx : Byte} (h : Csr.ofIdx idx = none) (val : Half) (s : State) :
    exec (.cfgWr idx val) s = .next (s.ended .errParam .none) := by
  simp only [exec, execCfgWr, h]
  rfl

/-- CFG.WR of a register, by its checks in their order (R121). -/
theorem exec_cfgWr_idx (c : Csr) (val : Half) (s : State) :
    exec (.cfgWr c.idx val) s = .next
      (if c.readOnly then s.ended .errParam .none
       else if csrBusy c s then s.ended .errState .none
       else if csrLegal c val then (writeCsr c val s).ended .ok .none
       else s.ended .errParam .none) := by
  simp only [exec, execCfgWr, ofIdx_idx, apply_ite Host.Outcome.next]
  rfl

/-- Settles O13: an index outside the map, a read-only register, or a register with its own owner, legal values and
fields. -/
theorem controlRegisterWrite : Obligations.ControlRegisterWrite := by
  intro s idx val
  cases hc : Csr.ofIdx idx with
  | none => rw [exec_cfgWr_absent hc, if_pos (not_mem_of_ofIdx_none hc)]
  | some c =>
    obtain rfl := idx_of_ofIdx hc
    rw [exec_cfgWr_idx]
    cases c with
    | lzssStat | crcAcc | frmStat => rfl
    | lzssCfg =>
      simp only [csrLegal, lzssCfgLegal_iff, ite_not, writeCsr_lzssCfg]
      simp [Csr.idx, Csr.readOnly, csrBusy]
    | frmCtrl =>
      simp only [csrLegal, frmCtrlLegal_iff, ite_not, writeCsr_frmCtrl]
      simp [Csr.idx, Csr.readOnly, csrBusy]
    | frmRdop | frmWrop | frmStaddr | frmStmask | frmStexp =>
      simp [Csr.idx, Csr.readOnly, csrBusy, csrLegal, writeCsr]

end Sys2Proof.Machine

/-! Proofs of the statements of 41_lzss.md: the LZSS operations from one transaction to the next, and the search. -/

namespace Sys2Proof.Machine

/-! ## One transaction: starting, filling the lookahead, ending -/

/-- With a place free and the source not at its end, the loop opens a pull (R135). -/
theorem encLoop_pull {s : State} (fuel : Nat) (hla : s.lzss.la < s.lzss.f) (he : s.lzss.eosf = false) :
    encLoop fuel s = pullSrc .encPull s := by
  cases fuel <;> simp [encLoop, hla, he]

/-- Settles O37: both operations begin with `lzssStart`, and with no byte in the lookahead and no bit held each opens a
pull. -/
theorem lzssOperationsStart : Obligations.LzssOperationsStart := by
  intro s idle
  refine ⟨memFill s.lzss.dict s.lzss.n, memRead_memFill _ _, ?_, ?_⟩
  · have start := encLoop_pull (s := { s with lzss := { lzssStart s.lzss with phase := .enc } }) 0
      (Lzss.f_pos _) rfl
    simp only [exec, execLzssEnc, idle, bne_self_eq_false, Bool.false_eq_true, if_false]
    exact congrArg _ start
  · simp only [exec, execLzssDec, idle, bne_self_eq_false, Bool.false_eq_true, if_false]
    rfl

/-- Settles O39: in every wait the answer ERR ends the operation at once (`lzssEnd`). -/
theorem lzssPortErrors : Obligations.LzssPortErrors := by
  intro s rest
  refine ⟨fun hhost isOpen => ?_, fun b hhost isOpen => ?_⟩
  · obtain hw | ⟨bits, hw⟩ := isOpen
    · rw [step_src_enc hhost hw]
      simp [encOnSrc, lzssEnd_eq, State.lzssAs, State.taken, State.emit]
    · rw [step_src_dec hhost hw]
      simp [decOnSrc, afterFetch, lzssEnd_eq, State.lzssAs, State.taken, State.emit]
  · obtain ⟨rfl, hw | ⟨bits, y, hw⟩⟩ | ⟨src, left, hw⟩ := isOpen
    · rw [step_snk_flush hhost hw]
      simp [encOnFlush, lzssEnd_eq, State.lzssAs, State.taken, State.emit]
    · rw [step_snk_push hhost hw]
      simp [encOnPush, lzssEnd_eq, State.lzssAs, State.taken, State.emit]
    · rw [step_snk_dec hhost hw]
      simp [decOnPush, afterFetch, lzssEnd_eq, State.lzssAs, State.taken, State.emit]

/-- Settles O40: the decoder's answer to EOS does not look at the bits of the token. -/
theorem decoderEndsAtEndOfStream : Obligations.DecoderEndsAtEndOfStream := by
  intro s bits rest hhost hw
  rw [step_src_dec hhost hw]
  simp [decOnSrc, afterFetch, lzssEnd_eq, State.lzssAs, State.taken, State.emit]

/-- Settles O41: the byte is written behind the lookahead, and with a place still free the loop pulls again. -/
theorem lookaheadFill : Obligations.LookaheadFill := by
  intro s b rest hwf hhost hw heos free
  refine ⟨memWrite s.lzss.dict ((s.lzss.r + s.lzss.la) % s.lzss.n) b, memRead_memWrite hwf _ _, ?_⟩
  rw [step_src_enc hhost hw, encOnSrc, encLoop_pull _ (by exact free) (by exact heos)]
  simp [pullSrc_eq, Lzss.write, State.lzssAs, State.taken, State.emit, hw]

/-! ## The events of a run -/

@[simp] theorem sunk_append (a b : List Event) : sunk (a ++ b) = sunk a ++ sunk b := List.filterMap_append ..

@[simp] theorem pulls_append (a b : List Event) : pulls (a ++ b) = pulls a + pulls b := List.countP_append ..

/-- The events of a run of pushes that the sink takes. -/
def pushEvents (bs : List Byte) : List Event := bs.flatMap fun b => [.push b, .pushed b .ok]

theorem pushEvents_cons (b : Byte) (bs : List Byte) :
    pushEvents (b :: bs) = [.push b, .pushed b .ok] ++ pushEvents bs := rfl

@[simp] theorem sunk_pushEvents (bs : List Byte) : sunk (pushEvents bs) = bs := by
  induction bs with
  | nil => rfl
  | cons b bs ih => rw [pushEvents_cons, sunk_append, ih]; rfl

@[simp] theorem pulls_pushEvents (bs : List Byte) : pulls (pushEvents bs) = 0 := by
  induction bs with
  | nil => rfl
  | cons b bs ih => rw [pushEvents_cons, pulls_append, ih]; rfl

/-! ## The decoder's pushes -/

/-- Where the reader goes on does not depend on the transaction just closed. -/
theorem afterFetch_decBits_wait (k : Nat) (bits : List Bool) (s : State) (l : Lzss) (w : LzssWait) (ev : List Event) :
    afterFetch (decBits k bits (s.lzssAs { l with wait := w } ev)) = afterFetch (decBits k bits (s.lzssAs l ev)) := by
  induction k generalizing bits l with
  | zero => rfl
  | succ k ih =>
    by_cases hm : l.rmask = 0
    · rw [decBits, decBits, if_pos (by exact hm), if_pos (by exact hm)]
      rfl
    · rw [decBits, decBits, if_neg (by exact hm), if_neg (by exact hm)]
      dsimp only [lzssAs_lzss, Lzss.heldBit]
      cases decodeToken l.ei.toNat l.ej.toNat (bits ++ [(l.rbuf &&& l.rmask) != 0]) with
      | some r => rfl
      | none => exact ih _ { l with rmask := l.rmask >>> 1 }

/-- Reading on moves the reader's mask and opens a transaction; the sink takes nothing meanwhile (R133, R140). -/
theorem afterFetch_decBits (k : Nat) (bits : List Bool) (s : State) :
    ∃ m w ev, afterFetch (decBits k bits s) = s.lzssAs { s.lzss with rmask := m, wait := w } ev ∧ sunk ev = [] := by
  induction k generalizing bits s with
  | zero => exact ⟨s.lzss.rmask, .decPull bits, [.pull], rfl, rfl⟩
  | succ k ih =>
    by_cases hm : s.lzss.rmask = 0
    · rw [decBits, if_pos hm]
      exact ⟨s.lzss.rmask, .decPull bits, [.pull], rfl, rfl⟩
    · rw [decBits, if_neg hm]
      dsimp only
      cases decodeToken s.lzss.ei.toNat s.lzss.ej.toNat (bits ++ [s.lzss.heldBit]) with
      | some r =>
        obtain ⟨c, src, left, push⟩ := runToken_push r.1 { s with lzss := { s.lzss with rmask := s.lzss.rmask >>> 1 } }
        exact ⟨_, _, [.push c], push, rfl⟩
      | none =>
        exact ih _ { s with lzss := { s.lzss with rmask := s.lzss.rmask >>> 1 } }

/-! ## An environment that answers -/

/-- A served step: the answer the environment gives, then the rest of the run. -/
theorem serve_succ {z z' : List Byte} {s t : State} {input : HostInput} (k : Nat)
    (answer : answerFor z s.lzss.wait = some (input, z')) (h : step (s.withInput input) = .next t) :
    serve (k + 1) z s = serve k z' t := by
  simp only [serve, answer, h]

/-- The sink answers the decoder's push. -/
theorem step_decPush {s : State} {c : Byte} {src left : Nat} (hw : s.lzss.wait = .decPush c src left) (a : SnkAnswer) :
    step (s.withInput (.snk a)) = .next (afterFetch (decOnPush c src left a (s.emit (.pushed c a)))) :=
  step_snk_dec (s := s.withInput (.snk a)) rfl hw

/-- The sink takes a byte inside a copy: it is stored, and the next is read and pushed (R140, R142). -/
theorem step_outByte_next (c : Byte) (src left : Nat) (s : State) :
    step ((outByte c src (left + 1) s).withInput (.snk .ok)) =
      .next (outByte ((storeByte c s.lzss).read src) (src + 1) left (s.lzssAs (storeByte c s.lzss) (pushEvents [c]))) := by
  rw [step_decPush rfl]
  simp [afterFetch, decOnPush, outByte, pushSnk, State.emit, State.lzssAs, pushEvents, storeByte, Lzss.write, Lzss.read,
    Lzss.n]

/-- The sink takes the last byte of a token: it is stored, and the next token is read (R140). -/
theorem step_outByte_last (c : Byte) (src : Nat) (s : State) :
    step ((outByte c src 0 s).withInput (.snk .ok)) =
      .next (afterFetch (decBits 8 [] (s.lzssAs (storeByte c s.lzss) (pushEvents [c])))) := by
  rw [step_decPush rfl, ← afterFetch_decBits_wait (w := .decPush c src 0)]
  simp [decOnPush, outByte, pushSnk, State.emit, State.lzssAs, pushEvents, storeByte, Lzss.write, Lzss.n]

/-- A sink that takes every byte sees the bytes of the ring one after the other, and then a token is read (R142); so
does the sink of an environment that serves, which leaves its source alone meanwhile. -/
theorem outByte_run (left : Nat) (c : Byte) (src : Nat) (s : State) :
    let copied := ringCopy left src (storeByte c s.lzss)
    let t := afterFetch (decBits 8 [] (s.lzssAs copied.2 (pushEvents (c :: copied.1))))
    sinkOk (left + 1) (outByte c src left s) = .next t ∧
      ∀ k z, serve (k + (left + 1)) z (outByte c src left s) = serve k z t := by
  induction left generalizing c src s with
  | zero =>
    have last := step_outByte_last c src s
    exact ⟨by simp only [sinkOk, last, ringCopy], fun k z => serve_succ k rfl last⟩
  | succ left ih =>
    have next := step_outByte_next c src left s
    obtain ⟨ihSink, ihServe⟩ := ih ((storeByte c s.lzss).read src) (src + 1)
      (s.lzssAs (storeByte c s.lzss) (pushEvents [c]))
    simp only [lzssAs_lzss, lzssAs_lzssAs] at ihSink ihServe
    refine ⟨?_, fun k z => ?_⟩
    · rw [sinkOk, next]
      exact ihSink
    · rw [← Nat.add_assoc, serve_succ _ rfl next]
      exact ihServe k z

/-- Settles O43: LIT is a push of one byte, with nothing to copy after it. -/
theorem litPushedThenStored : Obligations.LitPushedThenStored := by
  intro s c hwf
  refine ⟨.decPush c 0 0, rfl, ?_⟩
  obtain ⟨m, w, ev, read, -⟩ := afterFetch_decBits 8 [] (s.lzssAs (storeByte c s.lzss) (pushEvents [c]))
  rw [lzssAs_lzssAs] at read
  refine ⟨_, ev, (step_outByte_last c 0 s).trans (congrArg _ read), rfl, memRead_memWrite hwf _ c, ?_⟩
  refine (step_decPush (s := outByte c 0 0 s) rfl .err).trans ?_
  simp [afterFetch, decOnPush, lzssEnd_eq, emit_eq_lzssAs, outByte, pushSnk_eq]

/-- A copy moves the dictionary and the cursor alone. -/
theorem ringCopy_frame (k src : Nat) (l : Lzss) :
    (ringCopy k src l).2 = { l with dict := (ringCopy k src l).2.dict, r := (ringCopy k src l).2.r } := by
  induction k generalizing src l with
  | zero => rfl
  | succ k ih =>
    rw [ringCopy, ih]
    rfl

/-- A MATCH is served as one copy of `len + 2` bytes from its start on (R142). -/
theorem runMatch_run (ref len : Nat) (s : State) :
    let copied := ringCopy (len + 2) (copyStart s.refMode s.lzss ref) s.lzss
    let t := afterFetch (decBits 8 [] (s.lzssAs copied.2 (pushEvents copied.1)))
    sinkOk (len + 2) (runMatch ref len s) = .next t ∧
      ∀ k z, serve (k + (len + 2)) z (runMatch ref len s) = serve k z t :=
  outByte_run (len + 1) (s.lzss.read (copyStart s.refMode s.lzss ref)) (copyStart s.refMode s.lzss ref + 1) s

/-- Settles O44: both rows run the shared operation, and after its copy a token is read. -/
theorem matchCopiesThroughRing : Obligations.MatchCopiesThroughRing := by
  intro s i ref len row n start copied
  have run : exec i s = .next (runMatch ref len s) := by
    obtain ⟨r, l, rfl, rfl, rfl⟩ | ⟨r, l, rfl, rfl, rfl⟩ := row <;> rfl
  obtain ⟨m, w, ev, read, quiet⟩ := afterFetch_decBits 8 [] (s.lzssAs copied.2 (pushEvents copied.1))
  rw [lzssAs_lzssAs, lzssAs_lzss] at read
  refine ⟨_, run, _, pushEvents copied.1 ++ ev, (runMatch_run ref len s).1.trans (congrArg _ read), ?_, ?_⟩
  · exact congrArg (fun l : Lzss => s.lzssAs { l with rmask := m, wait := w } _) (ringCopy_frame _ _ _)
  · rw [sunk_append, sunk_pushEvents, quiet, List.append_nil]

/-! ## The search -/

theorem agree_zero (l : Lzss) (d : Nat) : agree l d 0 := fun _ hk => absurd hk (Nat.not_lt_zero _)

theorem agree_succ {l : Lzss} {d j : Nat} (h : agree l d j) (hj : l.read (l.back d + j) = l.read (l.r + j)) :
    agree l d (j + 1) := by
  intro k hk
  rcases Nat.lt_succ_iff_lt_or_eq.1 hk with hk | rfl
  · exact h k hk
  · exact hj

/-- How far a match reaches from a place up to which it holds. -/
theorem le_matchLen_iff {l : Lzss} {d j : Nat} (k i : Nat) (h : agree l d i) :
    j ≤ matchLen l d k i ↔ j ≤ i + k ∧ agree l d j := by
  induction k generalizing i with
  | zero => exact ⟨fun hj => ⟨hj, fun k hk => h k (hk.trans_le hj)⟩, fun hj => hj.1⟩
  | succ k ih =>
    rw [matchLen]
    split
    · rename_i hi
      rw [ih (i + 1) (agree_succ h hi), Nat.add_right_comm, Nat.add_assoc]
    · rename_i hi
      refine ⟨fun hj => ⟨by omega, fun k hk => h k (hk.trans_le hj)⟩, fun hj => ?_⟩
      exact Nat.le_of_not_lt fun hlt => hi (hj.2 i hlt)

/-- The length of the match at a distance, within the lookahead (R136). -/
def reach (l : Lzss) (d : Nat) : Nat := matchLen l d l.la 0

theorem le_reach_iff {l : Lzss} {d j : Nat} : j ≤ reach l d ↔ j ≤ l.la ∧ agree l d j := by
  rw [reach, le_matchLen_iff _ _ (agree_zero l d), Nat.zero_add]

/-- `best` is the longest match among the distances from 1 up to below `b`, the nearest of them; `(0, 1)` while none
reaches 2 (R136). -/
structure Longest (l : Lzss) (b : Nat) (best : Nat × Nat) : Prop where
  pos : 1 ≤ best.2
  longest : ∀ d, 1 ≤ d → d < b → reach l d ≤ best.2
  unfound : best.2 = 1 → best.1 = 0
  found : 1 < best.2 → 1 ≤ best.1 ∧ best.1 < b ∧ reach l best.1 = best.2
  nearest : ∀ d, 1 ≤ d → d < best.1 → reach l d < best.2

/-- One candidate more: it replaces the best only when it is strictly longer. -/
theorem Longest.next {l : Lzss} {b : Nat} {best : Nat × Nat} (h : Longest l b best) (hb : 1 ≤ b) :
    Longest l (b + 1) (if best.2 < reach l b then (b, reach l b) else best) := by
  split
  · rename_i longer
    refine ⟨by have := h.pos; omega, fun d h1 h2 => ?_, fun h1 => ?_, fun _ => ⟨hb, by omega, rfl⟩, fun d h1 h2 => ?_⟩
    · rcases Nat.lt_succ_iff_lt_or_eq.1 h2 with h2 | rfl
      · exact (h.longest d h1 h2).trans longer.le
      · exact le_rfl
    · have := h.pos
      simp only at h1
      omega
    · exact (h.longest d h1 h2).trans_lt longer
  · rename_i shorter
    refine ⟨h.pos, fun d h1 h2 => ?_, h.unfound, fun hl => ?_, h.nearest⟩
    · rcases Nat.lt_succ_iff_lt_or_eq.1 h2 with h2 | rfl
      · exact h.longest d h1 h2
      · exact Nat.le_of_not_lt shorter
    · obtain ⟨h1, h2, h3⟩ := h.found hl
      exact ⟨h1, h2.trans (Nat.lt_succ_self b), h3⟩

theorem searchFrom_longest {l : Lzss} (k : Nat) {b : Nat} {best : Nat × Nat} (h : Longest l b best) (hb : 1 ≤ b) :
    Longest l (b + k) (searchFrom l k b best) := by
  induction k generalizing b best with
  | zero => exact h
  | succ k ih =>
    rw [show b + (k + 1) = b + 1 + k by omega]
    exact ih (h.next hb) (by omega)

/-- The search finds the longest match of the range, the nearest of them (R136). -/
theorem search_longest (l : Lzss) : Longest l (1 + (l.n - l.f)) (search l) :=
  searchFrom_longest _ ⟨le_rfl, fun _ h1 h2 => absurd h1 (Nat.not_le.2 h2), fun _ => rfl,
    fun h => absurd h (lt_irrefl 1), fun _ _ h2 => absurd h2 (Nat.not_lt_zero _)⟩ le_rfl

/-- Settles O42: `reach` turned into `agree` by `le_reach_iff`. -/
theorem searchFindsLongestNearest : Obligations.SearchFindsLongestNearest := by
  intro l
  have best := search_longest l
  refine ⟨(search l).1, (search l).2, rfl, best.pos, best.unfound, fun hl => ?_, fun hl d h1 h2 hd => ?_⟩
  · obtain ⟨h1, h2, h3⟩ := best.found hl
    obtain ⟨hla, hag⟩ := le_reach_iff.1 h3.ge
    refine ⟨h1, by omega, hla, hag, fun d h1 h2 hd => ?_⟩
    exact absurd (le_reach_iff.2 ⟨hla, hd⟩) (Nat.not_le.2 (best.nearest d h1 h2))
  · exact absurd (le_reach_iff.2 ⟨hl, hd⟩) (Nat.not_le.2 (Nat.lt_succ_of_le (best.longest d h1 (by omega))))

end Sys2Proof.Machine

/-! Proofs of the statements of 41_lzss.md: the sequence-level encoding and decoding (R144), and their round trip. -/

namespace Sys2Proof.Machine

/-! ## Bits packed into bytes -/

/-- Bit strings of one length that spell the same number are the same. -/
theorem bitsNat_inj {a b : List Bool} (hlen : a.length = b.length) (h : bitsNat a = bitsNat b) : a = b := by
  induction a generalizing b with
  | nil => exact (List.eq_nil_of_length_eq_zero hlen.symm).symm
  | cons x a ih =>
    cases b with
    | nil => cases hlen
    | cons y b =>
      have hl : a.length = b.length := Nat.succ.inj hlen
      have ha := bitsNat_lt a
      have hb := bitsNat_lt b
      rw [bitsNat_cons, bitsNat_cons, hl] at h
      rw [hl] at ha
      cases x <;> cases y <;> simp only [Bool.toNat_false, Bool.toNat_true, Nat.zero_mul, Nat.zero_add, Nat.one_mul] at h
      · rw [ih hl h]
      · omega
      · omega
      · rw [ih hl (Nat.add_left_cancel h)]

/-- The bits of the number a bit string spells are the string (R95). -/
theorem natBits_bitsNat (bits : List Bool) : natBits bits.length (bitsNat bits) = bits :=
  bitsNat_inj (natBits_length ..) (bitsNat_natBits_of_lt (bitsNat_lt bits))

/-- Bits filled up with 0 bits to eight places (R98). -/
def padded (bits : List Bool) : List Bool := bits ++ List.replicate (8 - bits.length) false

theorem padded_length {bits : List Bool} (h : bits.length ≤ 8) : (padded bits).length = 8 := by
  simp [padded]; omega

/-- The byte that so many bits fill from its start, the other places 0 (R95, R98). -/
def packByte (bits : List Bool) : Byte := BitVec.ofNat 8 (bitsNat (padded bits))

theorem natBits_packByte {bits : List Bool} (h : bits.length ≤ 8) : natBits 8 (packByte bits).toNat = padded bits := by
  have lt := bitsNat_lt (padded bits)
  rw [padded_length h] at lt
  rw [packByte, BitVec.toNat_ofNat, Nat.mod_eq_of_lt lt]
  simpa [padded_length h] using natBits_bitsNat (padded bits)

/-- The places of one byte, read off the string with 0 past its end. -/
theorem map_getD_eq_padded {bits : List Bool} (h : bits.length ≤ 8) :
    (List.range 8).map (fun j => bits.getD j false) = padded bits := by
  refine List.ext_getElem (by simp [padded_length h]) fun j h1 _ => ?_
  simp only [List.length_map, List.length_range] at h1
  simp only [List.getElem_map, List.getElem_range, padded, List.getElem_append, List.getElem_replicate]
  split
  · rename_i hj
    exact List.getD_eq_getElem _ _ hj
  · rename_i hj
    exact List.getD_eq_default _ _ (Nat.le_of_not_lt hj)

/-- Eight bits and more: the first byte, then the packing of the rest. -/
theorem packBits_append {byte : List Bool} (h : byte.length = 8) (rest : List Bool) :
    packBits (byte ++ rest) = packByte byte :: packBits rest := by
  have count : ((byte ++ rest).length + 7) / 8 = (rest.length + 7) / 8 + 1 := by
    rw [List.length_append]
    omega
  rw [packBits, count, List.range_succ_eq_map (n := (rest.length + 7) / 8), List.map_cons, List.map_map]
  congr 1
  · rw [packByte, ← map_getD_eq_padded h.le]
    congr 2
    refine List.map_congr_left fun j hj => ?_
    rw [List.mem_range] at hj
    rw [Nat.mul_zero, Nat.zero_add, List.getD_append _ _ _ _ (by omega)]
  · refine List.map_congr_left fun i _ => ?_
    simp only [Function.comp_apply]
    congr 2
    refine List.map_congr_left fun j _ => ?_
    rw [List.getD_append_right _ _ _ _ (by omega), h]
    congr 1
    omega

/-- Up to eight bits fill one byte. -/
theorem packBits_short {bits : List Bool} (h0 : bits ≠ []) (h8 : bits.length ≤ 8) : packBits bits = [packByte bits] := by
  have pos := List.length_pos_iff.2 h0
  have count : (bits.length + 7) / 8 = 1 := by omega
  simp [packBits, count, packByte, ← map_getD_eq_padded h8]

/-- The stream of packed bits is the bits and fewer than eight 0 bits after them (R98). -/
theorem streamBits_packBits (bits : List Bool) :
    ∃ k < 8, streamBits (packBits bits) = bits ++ List.replicate k false := by
  induction hn : bits.length using Nat.strong_induction_on generalizing bits with
  | _ n ih =>
    subst hn
    rcases Nat.lt_or_ge bits.length 8 with hlt | hge
    · cases bits with
      | nil => exact ⟨0, by omega, rfl⟩
      | cons b bs =>
        refine ⟨8 - (b :: bs).length, Nat.sub_lt (by omega) (Nat.succ_pos _), ?_⟩
        rw [packBits_short (List.cons_ne_nil b bs) hlt.le]
        simpa [streamBits, padded] using natBits_packByte hlt.le
    · have len : (bits.take 8).length = 8 := by simp [hge]
      obtain ⟨k, hk, rest⟩ := ih (bits.drop 8).length (by rw [List.length_drop]; omega) (bits.drop 8) rfl
      refine ⟨k, hk, ?_⟩
      conv_lhs => rw [← List.take_append_drop 8 bits, packBits_append len]
      have first : natBits 8 (packByte (bits.take 8)).toNat = bits.take 8 := by
        rw [natBits_packByte len.le, padded, len]
        simp
      rw [streamBits, List.flatMap_cons, first, ← streamBits, rest, ← List.append_assoc, List.take_append_drop]

/-! ## Decoding token after token -/

/-- A token takes at least its flag bit. -/
theorem decodeToken_length {ei ej : Nat} {bits rest : List Bool} {token : Token}
    (h : decodeToken ei ej bits = some (token, rest)) : rest.length < bits.length := by
  match bits with
  | [] => cases h
  | true :: bs | false :: bs =>
    simp only [decodeToken] at h
    split at h
    · cases h
    · simp only [Option.some.injEq, Prod.mk.injEq] at h
      rw [← h.2, List.length_drop, List.length_cons]
      omega

/-- Decode all of a bit string behind the output `out` (R140 to R143). -/
def decodeRest (mode : RefMode) (ei ej : Nat) (bits : List Bool) (out : List Byte) : List Byte :=
  seqDecodeBits mode ei ej bits.length bits out

/-- A bound of the number of tokens that is large enough does not matter. -/
theorem seqDecodeBits_eq (mode : RefMode) (ei ej : Nat) {fuel fuel' : Nat} {bits : List Bool} (h : bits.length ≤ fuel)
    (h' : bits.length ≤ fuel') (out : List Byte) :
    seqDecodeBits mode ei ej fuel bits out = seqDecodeBits mode ei ej fuel' bits out := by
  induction fuel generalizing fuel' bits out with
  | zero =>
    obtain rfl := List.eq_nil_of_length_eq_zero (Nat.le_zero.1 h)
    cases fuel' <;> rfl
  | succ fuel ih =>
    cases fuel' with
    | zero =>
      obtain rfl := List.eq_nil_of_length_eq_zero (Nat.le_zero.1 h')
      rfl
    | succ fuel' =>
      rw [seqDecodeBits, seqDecodeBits]
      cases hd : decodeToken ei ej bits with
      | none => rfl
      | some r =>
        have := decodeToken_length (token := r.1) (rest := r.2) hd
        exact ih (by omega) (by omega) _

/-- An incomplete token at the end is dropped (R143). -/
theorem decodeRest_none {ei ej : Nat} {bits : List Bool} (h : decodeToken ei ej bits = none) (mode : RefMode)
    (out : List Byte) : decodeRest mode ei ej bits out = out := by
  rw [decodeRest]
  cases bits.length with
  | zero => rfl
  | succ n => rw [seqDecodeBits, h]

theorem decodeRest_token {ei ej : Nat} {bits rest : List Bool} {token : Token}
    (h : decodeToken ei ej bits = some (token, rest)) (mode : RefMode) (out : List Byte) :
    decodeRest mode ei ej bits out = decodeRest mode ei ej rest (seqApply mode ei ej out token) := by
  have shorter := decodeToken_length h
  obtain ⟨n, hn⟩ : ∃ n, bits.length = n + 1 := ⟨bits.length - 1, by omega⟩
  rw [decodeRest, hn, seqDecodeBits, h]
  exact seqDecodeBits_eq mode ei ej (by omega) le_rfl _

/-! ## The encoder's token list -/

/-- The token list from a position to the end of the input (R144). -/
def tokensFrom (mode : RefMode) (ei ej : Nat) (x : List Byte) (p : Nat) : List Token :=
  seqTokens mode ei ej x (x.length - p) p

/-- A token covers a byte or more. -/
theorem seqToken_pos (mode : RefMode) (ei ej : Nat) (x : List Byte) (p : Nat) : 1 ≤ (seqToken mode ei ej x p).2 := by
  unfold seqToken
  dsimp only
  split
  · exact le_rfl
  · dsimp only
    omega

theorem seqTokens_eq (mode : RefMode) (ei ej : Nat) (x : List Byte) {fuel fuel' p : Nat} (h : x.length - p ≤ fuel)
    (h' : x.length - p ≤ fuel') : seqTokens mode ei ej x fuel p = seqTokens mode ei ej x fuel' p := by
  induction fuel generalizing fuel' p with
  | zero =>
    cases fuel' with
    | zero => rfl
    | succ fuel' => rw [seqTokens, seqTokens, if_neg (by omega)]
  | succ fuel ih =>
    cases fuel' with
    | zero => rw [seqTokens, seqTokens, if_neg (by omega)]
    | succ fuel' =>
      have := seqToken_pos mode ei ej x p
      rw [seqTokens, seqTokens]
      split
      · rw [ih (fuel' := fuel') (by omega) (by omega)]
      · rfl

theorem tokensFrom_end (mode : RefMode) (ei ej : Nat) {x : List Byte} {p : Nat} (h : x.length ≤ p) :
    tokensFrom mode ei ej x p = [] := by
  rw [tokensFrom, Nat.sub_eq_zero_of_le h, seqTokens]

theorem tokensFrom_cons (mode : RefMode) (ei ej : Nat) {x : List Byte} {p : Nat} (h : p < x.length) :
    tokensFrom mode ei ej x p =
      (seqToken mode ei ej x p).1 :: tokensFrom mode ei ej x (p + (seqToken mode ei ej x p).2) := by
  have := seqToken_pos mode ei ej x p
  obtain ⟨n, hn⟩ : ∃ n, x.length - p = n + 1 := ⟨x.length - p - 1, by omega⟩
  rw [tokensFrom, hn, seqTokens, if_pos h]
  congr 1
  exact seqTokens_eq mode ei ej x (by omega) le_rfl

/-! ## The longest match on sequences -/

/-- How many elements of a list pass a test before one fails. -/
theorem le_length_takeWhile {α : Type} {q : α → Bool} {l : List α} {j : Nat} :
    j ≤ (l.takeWhile q).length ↔ j ≤ l.length ∧ ∀ a ∈ l.take j, q a = true := by
  induction l generalizing j with
  | nil => simp
  | cons b l ih =>
    cases j with
    | zero => simp
    | succ j =>
      by_cases hb : q b = true
      · simp [hb, ih]
      · simp [hb]

theorem le_seqLen_iff {range p m d j : Nat} {x : List Byte} :
    j ≤ seqLen range x p m d ↔
      j ≤ m ∧ ∀ k < j, seqHistory range x (range + p - d + k) = seqHistory range x (range + p + k) := by
  rw [seqLen, le_length_takeWhile, List.length_range]
  refine and_congr_right fun hj => ?_
  simp only [List.take_range, Nat.min_eq_left hj, List.mem_range, beq_iff_eq]

/-- No distance of the range has a longer match (R144). -/
theorem seqLen_le_seqBestLen {range p m d : Nat} (x : List Byte) (h1 : 1 ≤ d) (h2 : d ≤ range) :
    seqLen range x p m d ≤ seqBestLen range x p m := by
  have mem : seqLen range x p m d ∈ (List.range' 1 range).map (seqLen range x p m) :=
    List.mem_map_of_mem (List.mem_range'_1.2 ⟨h1, by omega⟩)
  rw [seqBestLen, List.foldl_max]
  cases hmax : ((List.range' 1 range).map (seqLen range x p m)).max? with
  | none => rw [List.max?_eq_none_iff.1 hmax] at mem; cases mem
  | some best => exact ((List.max?_eq_some_iff.1 hmax).2 _ mem).trans (le_max_right ..)

/-- The best length is a length of the range, where it is not 0 (R144). -/
theorem seqBestLen_attained {range p m : Nat} {x : List Byte} (h : 0 < seqBestLen range x p m) :
    ∃ d, 1 ≤ d ∧ d ≤ range ∧ seqLen range x p m d = seqBestLen range x p m := by
  rw [seqBestLen, List.foldl_max] at h ⊢
  cases hmax : ((List.range' 1 range).map (seqLen range x p m)).max? with
  | none => rw [hmax] at h; cases h
  | some best =>
    obtain ⟨d, hd, rfl⟩ := List.mem_map.1 (List.max?_eq_some_iff.1 hmax).1
    obtain ⟨h1, h2⟩ := List.mem_range'_1.1 hd
    exact ⟨d, h1, by omega, by simp⟩

/-- What makes a distance the one of R144: it has the best length, and no smaller one has. -/
theorem seqBestDist_eq {range p m d : Nat} {x : List Byte} (h1 : 1 ≤ d) (h2 : d ≤ range)
    (best : seqLen range x p m d = seqBestLen range x p m)
    (nearest : ∀ d', 1 ≤ d' → d' < d → seqLen range x p m d' ≠ seqBestLen range x p m) :
    seqBestDist range x p m = d := by
  have : (List.range' 1 range).find? (fun d => seqLen range x p m d == seqBestLen range x p m) = some d := by
    rw [List.find?_range'_eq_some]
    exact ⟨by simpa using best, List.mem_range'_1.2 ⟨h1, by omega⟩, fun j hj hjd => by simpa using nearest j hj hjd⟩
  rw [seqBestDist, this, Option.getD_some]

/-- The distance of R144 is one of the range and has the best length. -/
theorem seqBestDist_spec {range p m : Nat} {x : List Byte} (h : 0 < seqBestLen range x p m) :
    1 ≤ seqBestDist range x p m ∧ seqBestDist range x p m ≤ range ∧
      seqLen range x p m (seqBestDist range x p m) = seqBestLen range x p m := by
  have hex : ∃ d, 1 ≤ d ∧ d ≤ range ∧ seqLen range x p m d = seqBestLen range x p m := seqBestLen_attained h
  obtain ⟨h1, h2, h3⟩ := Nat.find_spec hex
  rw [seqBestDist_eq h1 h2 h3 fun d' h1' hlt he => Nat.find_min hex hlt ⟨h1', by omega, he⟩]
  exact ⟨h1, h2, h3⟩

/-- The best length stays within the lookahead. -/
theorem seqBestLen_le (range p m : Nat) (x : List Byte) : seqBestLen range x p m ≤ m := by
  rcases Nat.eq_zero_or_pos (seqBestLen range x p m) with h | h
  · exact h.trans_le (Nat.zero_le m)
  · obtain ⟨d, -, -, hd⟩ := seqBestLen_attained h
    rw [← hd]
    exact (le_seqLen_iff.1 le_rfl).1

/-! ## One token, written and read -/

/-- The search range of a legal pair holds a distance and lies inside the ring (R21). -/
theorem seqRange_legal {ei ej : Nat} (h : legalPair ei ej = true) : seqRange ei ej + (2 ^ ej + 1) = 2 ^ ei := by
  obtain ⟨h1, h2, -, -⟩ := (legalPair_iff ei ej).1 h
  have a : 2 ^ (ej + 1) ≤ 2 ^ ei := Nat.pow_le_pow_right (by omega) h2
  have b : 0 < 2 ^ ej := Nat.two_pow_pos ej
  rw [pow_succ] at a
  unfold seqRange Config.policy
  omega

theorem seqRange_lt {ei ej : Nat} (h : legalPair ei ej = true) : seqRange ei ej < 2 ^ ei :=
  Nat.lt_of_lt_of_eq (Nat.lt_add_of_pos_right (Nat.succ_pos _)) (seqRange_legal h)

/-- The byte a copy takes: the history at its distance, `FILL` before the first output byte (R142). -/
theorem copied_eq_seqHistory {d base : Nat} (out : List Byte) (h : d ≤ base) :
    (if d ≤ out.length then out.getD (out.length - d) 0 else Config.fill) =
      seqHistory base out (base + out.length - d) := by
  unfold seqHistory
  by_cases hd : d ≤ out.length
  · rw [if_pos hd, if_neg (by omega)]
    congr 1
    omega
  · rw [if_neg hd, if_pos (by omega)]

/-- What is in the history up to a position does not depend on what follows. -/
theorem seqHistory_take {range p q : Nat} (x : List Byte) (h : q < range + p) :
    seqHistory range (x.take p) q = seqHistory range x q := by
  unfold seqHistory
  split
  · rfl
  · simp only [List.getD_eq_getElem?_getD]
    rw [List.getElem?_take_of_lt (by omega)]

/-- The history at a position behind the start is the input there. -/
theorem take_append_seqHistory {range p : Nat} {x : List Byte} (h : p < x.length) :
    x.take p ++ [seqHistory range x (range + p)] = x.take (p + 1) := by
  rw [seqHistory, if_neg (by omega), Nat.add_sub_cancel_left, List.getD_eq_getElem _ _ h, List.take_concat_get']

/-- A copy from a distance at which the input repeats itself gives the input (R142, R144). -/
theorem seqCopy_take {range d : Nat} {x : List Byte} (hd : d ≤ range) (k p : Nat) (hp : p + k ≤ x.length)
    (h : ∀ i < k, seqHistory range x (range + p - d + i) = seqHistory range x (range + p + i)) (h1 : 1 ≤ d) :
    seqCopy d k (x.take p) = x.take (p + k) := by
  induction k generalizing p with
  | zero => rfl
  | succ k ih =>
    have len : (x.take p).length = p := by simp; omega
    rw [seqCopy, copied_eq_seqHistory _ hd, len, seqHistory_take x (by omega)]
    have first := h 0 (Nat.succ_pos k)
    rw [Nat.add_zero, Nat.add_zero] at first
    rw [first, take_append_seqHistory (by omega), ih (p + 1) (by omega), show p + 1 + k = p + (k + 1) by omega]
    intro i hi
    have := h (i + 1) (by omega)
    rwa [show range + p - d + (i + 1) = range + (p + 1) - d + i by omega,
      show range + p + (i + 1) = range + (p + 1) + i by omega] at this

/-- Subtracting a distance in the ring and taking the difference gives the distance back. -/
theorem mod_sub_back {a n d : Nat} (h1 : d ≤ a) (h2 : d < n) : (a + n - (a - d) % n) % n = d := by
  have lt : (a - d) % n < n := Nat.mod_lt _ (by omega)
  have split := Nat.div_add_mod (a - d) n
  have : a + n - (a - d) % n = d + n * ((a - d) / n + 1) := by
    rw [Nat.mul_add, Nat.mul_one]
    omega
  rw [this, Nat.add_mul_mod_self_left, Nat.mod_eq_of_lt h2]

/-- The number written for a distance fits its field. -/
theorem seqRef_lt {ei ej p d : Nat} (mode : RefMode) (h : legalPair ei ej = true) (hd : d ≤ seqRange ei ej) :
    seqRef mode ei ej p d < 2 ^ ei := by
  have range := seqRange_lt h
  cases mode with
  | distance =>
    change d < 2 ^ ei
    omega
  | position => exact Nat.mod_lt _ (Nat.two_pow_pos ei)

theorem seqDistance_distance (ei ej pos ref : Nat) :
    seqDistance .distance ei ej pos ref = if ref % 2 ^ ei = 0 then 2 ^ ei else ref % 2 ^ ei := rfl

theorem seqDistance_position (ei ej pos ref : Nat) :
    seqDistance .position ei ej pos ref =
      if (seqRange ei ej + pos + 2 ^ ei - ref % 2 ^ ei) % 2 ^ ei = 0 then 2 ^ ei
      else (seqRange ei ej + pos + 2 ^ ei - ref % 2 ^ ei) % 2 ^ ei := rfl

/-- The distance written is the distance read (R96). -/
theorem seqDistance_seqRef {ei ej p d : Nat} (mode : RefMode) (h : legalPair ei ej = true) (h1 : 1 ≤ d)
    (hd : d ≤ seqRange ei ej) : seqDistance mode ei ej p (seqRef mode ei ej p d) = d := by
  have range := seqRange_lt h
  have fits := Nat.mod_eq_of_lt (seqRef_lt (p := p) mode h hd)
  cases mode with
  | distance =>
    rw [seqDistance_distance, fits]
    exact if_neg (Nat.ne_of_gt h1)
  | position =>
    rw [seqDistance_position, fits, seqRef, mod_sub_back (by omega) (by omega), if_neg (by omega)]

/-- A token of R144 has fields of their widths. -/
theorem seqToken_fits {ei ej : Nat} (mode : RefMode) (h : legalPair ei ej = true) (x : List Byte) (p : Nat) :
    (seqToken mode ei ej x p).1.fits ei ej := by
  unfold seqToken
  dsimp only
  split
  · trivial
  · rename_i long
    have le := seqBestLen_le (seqRange ei ej) p (min (2 ^ ej + Config.policy) (x.length - p)) x
    obtain ⟨-, hd, -⟩ := seqBestDist_spec (Nat.zero_lt_of_lt (Nat.lt_of_not_le long))
    refine ⟨seqRef_lt mode h hd, ?_⟩
    have room : seqBestLen (seqRange ei ej) x p (min (2 ^ ej + Config.policy) (x.length - p)) ≤ 2 ^ ej + 1 :=
      le.trans (min_le_left ..)
    omega

/-- A token covers no more than the input has left. -/
theorem seqToken_le (mode : RefMode) (ei ej : Nat) {x : List Byte} {p : Nat} (hp : p < x.length) :
    p + (seqToken mode ei ej x p).2 ≤ x.length := by
  unfold seqToken
  dsimp only
  split
  · exact hp
  · have := (seqBestLen_le (seqRange ei ej) p (min (2 ^ ej + Config.policy) (x.length - p)) x).trans (min_le_right ..)
    dsimp only
    omega

/-- Behind the output so far, a token of R144 means the input it covers. -/
theorem seqApply_seqToken {ei ej : Nat} (mode : RefMode) (h : legalPair ei ej = true) {x : List Byte} {p : Nat}
    (hp : p < x.length) :
    seqApply mode ei ej (x.take p) (seqToken mode ei ej x p).1 = x.take (p + (seqToken mode ei ej x p).2) := by
  have le := seqToken_le mode ei ej hp
  unfold seqToken at le ⊢
  dsimp only at le ⊢
  split
  · rw [seqApply, List.getD_eq_getElem _ _ hp, List.take_concat_get']
  · rename_i long
    rw [if_neg long] at le
    dsimp only at le ⊢
    obtain ⟨h1, hd, hbest⟩ := seqBestDist_spec (Nat.zero_lt_of_lt (Nat.lt_of_not_le long))
    rw [seqApply, List.length_take, Nat.min_eq_left hp.le, seqDistance_seqRef mode h h1 hd,
      show ∀ n, ¬ n ≤ 1 → n - 2 + 2 = n from fun n hn => by omega]
    · exact seqCopy_take hd _ p le (le_seqLen_iff.1 hbest.ge).2 h1
    · exact long

/-! ## The round trip on sequences -/

/-- Fewer than eight 0 bits are no token: a MATCH has eight bits or more (R21, R98). -/
theorem decodeToken_padding {ei ej k : Nat} (h : legalPair ei ej = true) (hk : k < 8) :
    decodeToken ei ej (List.replicate k false) = none := by
  obtain ⟨-, -, h7, -⟩ := (legalPair_iff ei ej).1 h
  cases k with
  | zero => rfl
  | succ k =>
    rw [List.replicate_succ, decodeToken, if_pos]
    rw [List.length_replicate]
    omega

/-- From any position on, the token list decodes to the rest of the input. -/
theorem decodeRest_tokensFrom {ei ej k : Nat} (mode : RefMode) (h : legalPair ei ej = true) (hk : k < 8)
    (x : List Byte) (p : Nat) :
    decodeRest mode ei ej ((tokensFrom mode ei ej x p).flatMap (Token.bits ei ej) ++ List.replicate k false)
      (x.take p) = x := by
  induction hn : x.length - p using Nat.strong_induction_on generalizing p with
  | _ n ih =>
    subst hn
    rcases Nat.lt_or_ge p x.length with hp | hp
    · have pos := seqToken_pos mode ei ej x p
      rw [tokensFrom_cons mode ei ej hp, List.flatMap_cons, List.append_assoc,
        decodeRest_token (decodeToken_append (decodeToken_bits (seqToken_fits mode h x p)) _), List.nil_append,
        seqApply_seqToken mode h hp]
      exact ih _ (by omega) _ rfl
    · rw [tokensFrom_end mode ei ej hp, List.flatMap_nil, List.nil_append, decodeRest_none (decodeToken_padding h hk),
        List.take_of_length_le hp]

/-- Settles O47, token by token: the padding is no token, and each token decodes to the input it covers. -/
theorem sequenceRoundTrip : Obligations.SequenceRoundTrip := by
  intro mode ei ej x legal
  obtain ⟨k, hk, stream⟩ := streamBits_packBits ((tokensFrom mode ei ej x 0).flatMap (Token.bits ei ej))
  change decodeRest mode ei ej (streamBits (packBits ((tokensFrom mode ei ej x 0).flatMap (Token.bits ei ej)))) [] = x
  rw [stream]
  exact decodeRest_tokensFrom mode legal hk x 0

end Sys2Proof.Machine

/-! Proofs of the statements of 41_lzss.md: LZSS.DEC computes the sequence-level decoding. -/

namespace Sys2Proof.Machine

/-! ## The ring as a window of the history -/

/-- The ring holds the history `h` from `lo` up to below `hi`, each place at its index modulo `N` (R22, R144). -/
def Lzss.Holds (l : Lzss) (h : Nat → Byte) (lo hi : Nat) : Prop := ∀ q, lo ≤ q → q < hi → l.read q = h q

theorem Lzss.read_write {l : Lzss} (hwf : l.dict.wf) (a : Nat) (v : Byte) (q : Nat) :
    (l.write a v).read q = if q % l.n = a % l.n then v else l.read q := memRead_memWrite hwf _ _ _

theorem Lzss.read_congr {l : Lzss} {a b : Nat} (h : a ≡ b [MOD l.n]) : l.read a = l.read b :=
  congrArg (memRead l.dict) h

/-- Writing the next place of the history moves the window on, as long as it stays within `N` places. -/
theorem Lzss.Holds.write {l : Lzss} {h h' : Nat → Byte} {lo lo' hi a : Nat} (held : l.Holds h lo hi) (hwf : l.dict.wf)
    (place : a ≡ hi [MOD l.n]) (same : ∀ q < hi, h' q = h q) (hlo : lo ≤ lo') (window : hi < lo' + l.n) :
    (l.write a (h' hi)).Holds h' lo' (hi + 1) := by
  intro q h1 h2
  rw [Lzss.read_write hwf]
  rcases Nat.lt_succ_iff_lt_or_eq.1 h2 with h2 | rfl
  · rw [if_neg, held q (hlo.trans h1) h2, same q h2]
    intro hq
    have := Nat.le_of_dvd (by omega) ((Nat.modEq_iff_dvd' h2.le).1 (hq.trans place))
    omega
  · rw [if_pos (show q % l.n = a % l.n from place.symm)]

/-- Filling the ring makes every place read `FILL` (R130). -/
theorem lzssStart_read (l : Lzss) (q : Nat) : (lzssStart l).read q = Config.fill := by
  have := memRead_memFill l.dict l.n (q % l.n)
  rwa [if_pos (Nat.mod_lt _ l.n_pos)] at this

/-! ## The decoder's ring -/

/-- The output a decoder has pushed stands in its ring, behind it `FILL`, the cursor after it (R140). -/
structure Lzss.Follows (l : Lzss) (out : List Byte) : Prop where
  legal : legalPair l.ei.toNat l.ej.toNat = true
  wf : l.dict.wf
  cursor : l.r = (seqRange l.ei.toNat l.ej.toNat + out.length) % l.n
  holds : l.Holds (seqHistory (l.n + seqRange l.ei.toNat l.ej.toNat) out) (seqRange l.ei.toNat l.ej.toNat + out.length)
    (l.n + seqRange l.ei.toNat l.ej.toNat + out.length)

/-- At the start of an operation nothing has been pushed (R130). -/
theorem lzssStart_follows {l : Lzss} (h : l.Ok) : (lzssStart l).Follows [] where
  legal := h.pair
  wf := memFill_wf _ h.dict
  cursor := (Nat.mod_eq_of_lt (seqRange_lt h.pair)).symm
  holds := by
    intro q _ hq
    rw [lzssStart_read, seqHistory, if_pos]
    exact hq

/-- Storing the byte just pushed (R140). -/
theorem Lzss.Follows.storeByte {l : Lzss} {out : List Byte} (h : l.Follows out) (c : Byte) :
    (storeByte c l).Follows (out ++ [c]) where
  legal := h.legal
  wf := memWrite_wf _ _ h.wf
  cursor := by
    change (l.r + 1) % l.n = (seqRange l.ei.toNat l.ej.toNat + (out ++ [c]).length) % l.n
    rw [h.cursor, Nat.mod_add_mod, List.length_append, ← Nat.add_assoc]
    rfl
  holds := by
    have place : l.r ≡ l.n + seqRange l.ei.toNat l.ej.toNat + out.length [MOD l.n] := by
      rw [h.cursor, Nat.add_assoc]
      exact (Nat.mod_modEq _ _).trans (Nat.add_modEq_left).symm
    have last : seqHistory (l.n + seqRange l.ei.toNat l.ej.toNat) (out ++ [c])
        (l.n + seqRange l.ei.toNat l.ej.toNat + out.length) = c := by
      simp [seqHistory]
    have := h.holds.write (h' := seqHistory (l.n + seqRange l.ei.toNat l.ej.toNat) (out ++ [c]))
      (lo' := seqRange l.ei.toNat l.ej.toNat + out.length + 1) h.wf place
      (fun q hq => by simpa using (seqHistory_take (out ++ [c]) hq).symm) (Nat.le_succ _) (by omega)
    rw [last] at this
    rw [List.length_append]
    exact this

/-- The ring a distance back holds the byte R142 copies from there. -/
theorem Lzss.Follows.read_back {l : Lzss} {out : List Byte} {d src : Nat} (h : l.Follows out) (h1 : 1 ≤ d)
    (hn : d ≤ l.n) (hsrc : src + d ≡ l.r [MOD l.n]) :
    l.read src = if d ≤ out.length then out.getD (out.length - d) 0 else Config.fill := by
  rw [copied_eq_seqHistory (base := l.n + seqRange l.ei.toNat l.ej.toNat) out (by omega),
    ← h.holds _ (by omega) (by omega)]
  refine Lzss.read_congr (Nat.ModEq.add_right_cancel' d (hsrc.trans ?_))
  rw [Nat.sub_add_cancel (by omega), h.cursor, Nat.add_assoc]
  exact (Nat.mod_modEq _ _).trans (Nat.add_modEq_left).symm

/-- Copying through the ring is copying on the output (R142). -/
theorem Lzss.Follows.ringCopy {l : Lzss} {out : List Byte} {d : Nat} (k : Nat) {src : Nat} (h : l.Follows out)
    (h1 : 1 ≤ d) (hn : d ≤ l.n) (hsrc : src + d ≡ l.r [MOD l.n]) :
    out ++ (ringCopy k src l).1 = seqCopy d k out ∧ (ringCopy k src l).2.Follows (seqCopy d k out) := by
  induction k generalizing src l out with
  | zero => exact ⟨List.append_nil out, h⟩
  | succ k ih =>
    have next : src + 1 + d ≡ (Machine.storeByte (l.read src) l).r [MOD l.n] := by
      rw [Nat.add_right_comm]
      exact (hsrc.add_right 1).trans (Nat.mod_modEq _ _).symm
    obtain ⟨bytes, follows⟩ := ih (h.storeByte (l.read src)) hn next
    rw [seqCopy, ← h.read_back h1 hn hsrc, ← bytes]
    rw [← bytes] at follows
    exact ⟨List.append_cons .., follows⟩

/-- A distance of 0 stands for `N`, the byte a whole ring back. -/
theorem ringDistance_spec {n : Nat} (hn : 0 < n) (x : Nat) :
    1 ≤ (if x % n = 0 then n else x % n) ∧ (if x % n = 0 then n else x % n) ≤ n ∧
      (if x % n = 0 then n else x % n) ≡ x [MOD n] := by
  have lt := Nat.mod_lt x hn
  split
  · rename_i h0
    exact ⟨hn, le_rfl, by rw [Nat.ModEq, Nat.mod_self, h0]⟩
  · exact ⟨by omega, lt.le, Nat.mod_modEq x n⟩

/-- Where a MATCH starts to copy lies its distance behind the cursor (R96, R142). -/
theorem Lzss.Follows.copyStart {l : Lzss} {out : List Byte} {ref : Nat} (h : l.Follows out) (mode : RefMode)
    (href : ref < l.n) :
    1 ≤ seqDistance mode l.ei.toNat l.ej.toNat out.length ref ∧
      seqDistance mode l.ei.toNat l.ej.toNat out.length ref ≤ l.n ∧
      copyStart mode l ref + seqDistance mode l.ei.toNat l.ej.toNat out.length ref ≡ l.r [MOD l.n] := by
  cases mode with
  | distance =>
    obtain ⟨h1, h2, h3⟩ := ringDistance_spec l.n_pos ref
    refine ⟨h1, h2, ?_⟩
    calc (l.r + l.n - ref) % l.n + (if ref % l.n = 0 then l.n else ref % l.n)
        ≡ (l.r + l.n - ref) + ref [MOD l.n] := (Nat.mod_modEq _ _).add h3
      _ = l.r + l.n := Nat.sub_add_cancel (by omega)
      _ ≡ l.r [MOD l.n] := Nat.add_modEq_right
  | position =>
    obtain ⟨h1, h2, h3⟩ := ringDistance_spec l.n_pos (seqRange l.ei.toNat l.ej.toNat + out.length + l.n - ref)
    rw [seqDistance_position, Nat.mod_eq_of_lt (show ref < 2 ^ l.ei.toNat from href)]
    refine ⟨h1, h2, (h3.add_left ref).trans ?_⟩
    rw [Nat.add_sub_of_le (by omega), h.cursor]
    exact Nat.add_modEq_right.trans (Nat.mod_modEq _ _).symm

/-! ## One token of the stream -/

/-- The fields of a token read have their widths (R94). -/
theorem decodeToken_fits {ei ej : Nat} {bits rest : List Bool} {token : Token}
    (h : decodeToken ei ej bits = some (token, rest)) : token.fits ei ej := by
  match bits with
  | [] => cases h
  | true :: bs =>
    simp only [decodeToken] at h
    split at h <;> cases h
    trivial
  | false :: bs =>
    simp only [decodeToken] at h
    split at h <;> cases h
    rename_i hlen
    have ref := bitsNat_lt (bs.take ei)
    have len := bitsNat_lt ((bs.drop ei).take ej)
    rw [List.length_take, Nat.min_eq_left (by omega)] at ref
    rw [List.length_take, List.length_drop, Nat.min_eq_left (by omega)] at len
    exact ⟨ref, len⟩

/-- A token read takes the front of the string and leaves the rest. -/
theorem decodeToken_split {ei ej : Nat} {bits rest : List Bool} {token : Token}
    (h : decodeToken ei ej bits = some (token, rest)) :
    ∃ used, bits = used ++ rest ∧ decodeToken ei ej used = some (token, []) := by
  match bits with
  | [] => cases h
  | true :: bs =>
    simp only [decodeToken] at h
    split at h <;> cases h
    rename_i hlen
    refine ⟨true :: bs.take 8, by simp, ?_⟩
    simp [decodeToken, List.take_take, hlen]
  | false :: bs =>
    simp only [decodeToken] at h
    split at h <;> cases h
    rename_i hlen
    refine ⟨false :: bs.take (ei + ej), by simp, ?_⟩
    simp [decodeToken, List.take_take, List.drop_take, hlen]

/-- The reader's mask stands where `State.reading` puts it. -/
theorem reading_self {s : State} {j : Nat} (h : s.lzss.rmask = 0x80#8 >>> j) : s.reading j = s := by
  rw [State.reading, ← h]

/-- Reading the bits held completes a token and stops behind it, or runs out and opens a pull (R133, R140). -/
theorem decBits_cases {s : State} {j : Nat} {bits : List Bool} (hj : j ≤ 8) (hmask : s.lzss.rmask = 0x80#8 >>> j)
    (hbits : decodeToken s.lzss.ei.toNat s.lzss.ej.toNat bits = none) :
    (∃ token j', j < j' ∧ j' ≤ 8 ∧ decBits 8 bits s = .inl (token, s.reading j') ∧
      decodeToken s.lzss.ei.toNat s.lzss.ej.toNat (bits ++ heldBits s.lzss.rbuf j) =
        some (token, heldBits s.lzss.rbuf j')) ∨
    decodeToken s.lzss.ei.toNat s.lzss.ej.toNat (bits ++ heldBits s.lzss.rbuf j) = none ∧
      decBits 8 bits s = .inr (pullSrc (.decPull (bits ++ heldBits s.lzss.rbuf j)) (s.reading 8)) := by
  cases hd : decodeToken s.lzss.ei.toNat s.lzss.ej.toNat (bits ++ heldBits s.lzss.rbuf j) with
  | none =>
    have read := decBits_none j 8 bits hj (Nat.sub_le ..) hd
    rw [reading_self hmask] at read
    exact .inr ⟨rfl, read⟩
  | some r =>
    obtain ⟨token, rest⟩ := r
    obtain ⟨used, split, whole⟩ := decodeToken_split hd
    rcases List.append_eq_append_iff.1 split with ⟨more, rfl, held⟩ | ⟨more, rfl, -⟩
    · have ne : more ≠ [] := by
        rintro rfl
        rw [List.append_nil, hbits] at whole
        cases whole
      have pos := List.length_pos_iff.2 ne
      have len := congrArg List.length held
      rw [heldBits_length, List.length_append] at len
      have front : (heldBits s.lzss.rbuf j).take more.length = more := by rw [held, List.take_left]
      have back : rest = heldBits s.lzss.rbuf (j + more.length) := by
        rw [heldBits, ← List.drop_drop, ← heldBits, held, List.drop_left]
      have read := decBits_token pos j 8 bits (by omega) (by omega) (by rw [front]; exact whole)
      rw [reading_self hmask] at read
      exact .inl ⟨token, j + more.length, by omega, by omega, read, by rw [back]⟩
    · rw [decodeToken_append whole] at hbits
      cases hbits

/-- A token is served as its bytes pushed and stored, and then the next is read; the bytes are what the token means
behind the output so far (R141, R142). -/
theorem runToken_run {s : State} {out : List Byte} {token : Token} (h : s.lzss.Follows out)
    (fits : token.fits s.lzss.ei.toNat s.lzss.ej.toNat) :
    ∃ bytes dict r n,
      out ++ bytes = seqApply s.refMode s.lzss.ei.toNat s.lzss.ej.toNat out token ∧
      ({ s.lzss with dict := dict, r := r } : Lzss).Follows (out ++ bytes) ∧
      ∀ k z, serve (k + n) z (runToken token s) =
        serve k z (afterFetch (decBits 8 [] (s.lzssAs { s.lzss with dict := dict, r := r } (pushEvents bytes)))) := by
  cases token with
  | lit c =>
    rw [runToken_lit]
    exact ⟨[c], _, _, 1, rfl, h.storeByte c, (outByte_run 0 c 0 s).2⟩
  | pair ref len =>
    rw [runToken_pair fits.1 fits.2]
    obtain ⟨h1, hn, hsrc⟩ := h.copyStart s.refMode fits.1
    obtain ⟨bytes, follows⟩ := h.ringCopy (len + 2) h1 hn hsrc
    have run := (runMatch_run ref len s).2
    have frame := ringCopy_frame (len + 2) (copyStart s.refMode s.lzss ref) s.lzss
    rw [← bytes, frame] at follows
    rw [frame] at run
    exact ⟨_, _, _, _, bytes, follows, run⟩

/-! ## A run to its end -/

/-- Served from `t` with the source `z`, an operation ends OK, and since `s` the sink has taken `out` and `n` pulls
were made; nothing but the LZSS unit and the history differs from `s`, and the unit keeps its pair. -/
def Completes (z : List Byte) (s t : State) (out : List Byte) (n : Nat) : Prop :=
  ∃ k l ev, serve k z t = .next (s.lzssAs l (ev ++ [.done .ok .none])) ∧
    (l.phase = .idle ∧ l.ei = s.lzss.ei ∧ l.ej = s.lzss.ej) ∧ sunk ev = out ∧ pulls ev = n

section
variable {z z' out : List Byte} {s t t' : State} {n : Nat}

/-- Served steps before a run. -/
theorem Completes.served (h : Completes z' s t' out n) (m : Nat) (run : ∀ k, serve (k + m) z t = serve k z' t') :
    Completes z s t out n := by
  obtain ⟨k, l, ev, hk, rest⟩ := h
  exact ⟨k + m, l, ev, (run k).trans hk, rest⟩

/-- One answer of the environment before a run. -/
theorem Completes.answered (h : Completes z' s t' out n) {input : HostInput}
    (answer : answerFor z t.lzss.wait = some (input, z')) (hstep : step (t.withInput input) = .next t') :
    Completes z s t out n :=
  h.served 1 fun k => serve_succ k answer hstep

/-- Events before a run. -/
theorem Completes.after {l : Lzss} {ev : List Event} (h : Completes z (s.lzssAs l ev) t out n)
    (hei : l.ei = s.lzss.ei) (hej : l.ej = s.lzss.ej) : Completes z s t (sunk ev ++ out) (pulls ev + n) := by
  obtain ⟨k, l', ev', hk, ⟨idle, hei', hej'⟩, rfl, rfl⟩ := h
  rw [lzssAs_lzssAs, ← List.append_assoc] at hk
  exact ⟨k, l', ev ++ ev', hk, ⟨idle, hei'.trans hei, hej'.trans hej⟩, sunk_append .., pulls_append ..⟩

/-- Moving the reader's mask is no event. -/
theorem Completes.of_reading {j : Nat} (h : Completes z (s.reading j) t out n) : Completes z s t out n := h

end

/-- The end of an operation. -/
theorem completes_lzssEnd (z : List Byte) (s : State) : Completes z s (lzssEnd .ok s) [] 0 :=
  ⟨0, _, [], rfl, ⟨rfl, rfl, rfl⟩, rfl, rfl⟩

/-! ## The course of the decoder -/

/-- The source answers the decoder. -/
theorem step_decPull {s : State} {bits : List Bool} (hw : s.lzss.wait = .decPull bits) (a : SrcAnswer) :
    step (s.withInput (.src a)) = .next (afterFetch (decOnSrc bits a (s.emit (.pulled a)))) :=
  step_src_dec (s := s.withInput (.src a)) rfl hw

/-- At the end of its source the decoder's pull ends the operation (R143). -/
theorem completes_decPull_eos (bits : List Bool) (s : State) : Completes [] s (pullSrc (.decPull bits) s) [] 1 := by
  have step_eos : step ((pullSrc (.decPull bits) s).withInput (.src .eos)) =
      .next (lzssEnd .ok (s.lzssAs { s.lzss with wait := .decPull bits } [.pull, .pulled .eos])) := by
    rw [step_decPull rfl]
    simp [afterFetch, decOnSrc, pullSrc, State.emit, State.lzssAs]
  exact ((completes_lzssEnd [] _).after (s := s) (ev := [.pull, .pulled .eos]) rfl rfl).answered
    (input := .src .eos) rfl step_eos

/-- The decoder with a byte pulled, none of its bits read (R133). -/
def State.pulledByte (s : State) (bits : List Bool) (b : Byte) : State :=
  s.lzssAs { s.lzss with rbuf := b, rmask := 0x80, wait := .decPull bits } [.pull, .pulled (.byte b)]

/-- The decoder's pull is served with the next byte of the source (R133). -/
theorem Completes.decPull_byte {z out : List Byte} {s : State} {bits : List Bool} {b : Byte} {n : Nat}
    (h : Completes z (s.pulledByte bits b) (afterFetch (decBits 8 bits (s.pulledByte bits b))) out n) :
    Completes (b :: z) s (pullSrc (.decPull bits) s) out (1 + n) := by
  have step_byte : step ((pullSrc (.decPull bits) s).withInput (.src (.byte b))) =
      .next (afterFetch (decBits 8 bits (s.pulledByte bits b))) := by
    rw [step_decPull rfl]
    simp [decOnSrc, pullSrc, State.emit, State.lzssAs, State.pulledByte]
  exact (h.after (s := s) (ev := [.pull, .pulled (.byte b)]) rfl rfl).answered (input := .src (.byte b)) rfl step_byte

/-- A decoder that has pushed `out` and reads on pushes the decoding of all the bits to come: those of the token begun,
those held, and those of the source (R140 to R143). -/
theorem decoder_completes {s : State} {out z : List Byte} {bits : List Bool} {j : Nat} (h : s.lzss.Follows out)
    (hj : j ≤ 8) (hmask : s.lzss.rmask = 0x80#8 >>> j)
    (hbits : decodeToken s.lzss.ei.toNat s.lzss.ej.toNat bits = none) :
    ∃ o, out ++ o = decodeRest s.refMode s.lzss.ei.toNat s.lzss.ej.toNat
        (bits ++ heldBits s.lzss.rbuf j ++ streamBits z) out ∧
      Completes z s (afterFetch (decBits 8 bits s)) o (z.length + 1) := by
  induction hn : 9 * z.length + (8 - j) using Nat.strong_induction_on generalizing s out z bits j with
  | _ n ih =>
    subst hn
    rcases decBits_cases hj hmask hbits with ⟨token, j', hlt, hj', read, whole⟩ | ⟨part, read⟩
    · have follows : (s.reading j').lzss.Follows out := ⟨h.legal, h.wf, h.cursor, h.holds⟩
      obtain ⟨bytes, dict, r, m, meaning, follows', run⟩ := runToken_run follows (decodeToken_fits whole)
      obtain ⟨o, rest, completes⟩ := ih _ (by omega) (z := z) (j := j') (bits := [])
        (s := (s.reading j').lzssAs { (s.reading j').lzss with dict := dict, r := r } (pushEvents bytes))
        follows' hj' rfl rfl rfl
      refine ⟨bytes ++ o, ?_, ?_⟩
      · rw [← List.append_assoc, decodeRest_token (decodeToken_append whole _), rest]
        rw [show seqApply s.refMode s.lzss.ei.toNat s.lzss.ej.toNat out token = out ++ bytes from meaning.symm]
        rfl
      · rw [read]
        have := (completes.served m fun k => run k z).after rfl rfl
        rw [sunk_pushEvents, pulls_pushEvents, Nat.zero_add] at this
        exact this.of_reading
    · rw [read]
      cases z with
      | nil =>
        refine ⟨[], ?_, ?_⟩
        · rw [streamBits, List.flatMap_nil, List.append_nil, List.append_nil, decodeRest_none part]
        · exact (completes_decPull_eos _ (s.reading 8)).of_reading
      | cons b z =>
        obtain ⟨o, rest, completes⟩ := ih _ (by rw [List.length_cons]; omega) (z := z) (j := 0)
          (s := (s.reading 8).pulledByte (bits ++ heldBits s.lzss.rbuf j) b)
          ⟨h.legal, h.wf, h.cursor, h.holds⟩ (Nat.zero_le 8) rfl part rfl
        refine ⟨o, ?_, ?_⟩
        · rw [rest, List.append_assoc _ _ (streamBits z)]
          rfl
        · rw [List.length_cons, Nat.add_comm]
          exact completes.decPull_byte.of_reading

/-- Settles O45: the decoder starts with no bit held and nothing pushed, and reads on to the end. -/
theorem lzssDecMeansSequence : Obligations.LzssDecMeansSequence := by
  intro s z hs idle
  obtain ⟨o, decoded, k, l, ev, run, ⟨hidle, hei, hej⟩, rfl, hpulls⟩ :=
    decoder_completes (s := s.lzssAs { lzssStart s.lzss with phase := .dec } []) (z := z) (bits := []) (j := 8)
      { lzssStart_follows hs.lzss with } le_rfl rfl rfl
  have start : exec .lzssDec s =
      .next (afterFetch (decBits 8 [] (s.lzssAs { lzssStart s.lzss with phase := .dec } []))) := by
    simp only [exec, execLzssDec, idle, bne_self_eq_false, Bool.false_eq_true, if_false, withLzss_eq]
    rfl
  refine ⟨_, start, k, _, ev, run, hidle, ?_, ?_, hpulls, hei, hej, rfl, rfl, rfl⟩
  · simp
  · rw [heldBits_eight] at decoded
    exact decoded

end Sys2Proof.Machine

/-! Proofs of the statements of 41_lzss.md: LZSS.ENC computes the sequence-level encoding, and the round trip on the
machine. -/

namespace Sys2Proof.Machine

/-! ## The encoder's ring -/

/-- An encoder has coded the first `p` bytes of `x`: its ring holds the history the search may read, up to the end of
the lookahead, and its cursor stands at the next byte to code (R134, R144). -/
structure Lzss.Codes (l : Lzss) (x : List Byte) (p : Nat) : Prop where
  legal : legalPair l.ei.toNat l.ej.toNat = true
  wf : l.dict.wf
  cursor : l.r = (seqRange l.ei.toNat l.ej.toNat + p) % l.n
  within : p + l.la ≤ x.length
  room : l.la ≤ l.f
  ended : l.eosf = true → p + l.la = x.length
  holds : l.Holds (seqHistory (seqRange l.ei.toNat l.ej.toNat) x) (p + l.la - l.f)
    (seqRange l.ei.toNat l.ej.toNat + p + l.la)

theorem Lzss.range_add_f {l : Lzss} (h : legalPair l.ei.toNat l.ej.toNat = true) :
    seqRange l.ei.toNat l.ej.toNat + l.f = l.n := seqRange_legal h

theorem lzssStart_codes {l : Lzss} (h : l.Ok) (x : List Byte) : (lzssStart l).Codes x 0 where
  legal := h.pair
  wf := memFill_wf _ h.dict
  cursor := (Nat.mod_eq_of_lt (seqRange_lt h.pair)).symm
  within := Nat.zero_le _
  room := Nat.zero_le _
  ended := fun he => by cases he
  holds := by
    intro q _ hq
    rw [lzssStart_read, seqHistory, if_pos]
    exact hq

section
variable {l : Lzss} {x : List Byte} {p : Nat}

/-- An index of the ring reads the history at its place in the window. -/
theorem Lzss.Codes.read (h : l.Codes x p) {a q : Nat} (place : a ≡ q [MOD l.n]) (h1 : p ≤ q)
    (h2 : q < seqRange l.ei.toNat l.ej.toNat + p + l.la) :
    l.read a = seqHistory (seqRange l.ei.toNat l.ej.toNat) x q := by
  have := h.room
  rw [Lzss.read_congr place, h.holds q (by omega) h2]

theorem Lzss.Codes.cursor_modEq (h : l.Codes x p) : l.r ≡ seqRange l.ei.toNat l.ej.toNat + p [MOD l.n] := by
  rw [h.cursor]
  exact Nat.mod_modEq _ _

/-- Going back a distance in the ring is going back in the history (R9, R136). -/
theorem Lzss.Codes.back_modEq (h : l.Codes x p) {d : Nat} (hd : d ≤ seqRange l.ei.toNat l.ej.toNat) :
    l.back d ≡ seqRange l.ei.toNat l.ej.toNat + p - d [MOD l.n] := by
  have := Lzss.range_add_f h.legal
  refine Nat.ModEq.add_right_cancel' d ?_
  calc l.back d + d ≡ l.r + l.n - d + d [MOD l.n] := (Nat.mod_modEq _ _).add_right d
    _ = l.r + l.n := Nat.sub_add_cancel (by omega)
    _ ≡ l.r [MOD l.n] := Nat.add_modEq_right
    _ ≡ seqRange l.ei.toNat l.ej.toNat + p [MOD l.n] := h.cursor_modEq
    _ = seqRange l.ei.toNat l.ej.toNat + p - d + d := (Nat.sub_add_cancel (by omega)).symm

/-- The length of a match in the ring is that of R144. -/
theorem Lzss.Codes.reach_eq (h : l.Codes x p) {d : Nat} (hd : d ≤ seqRange l.ei.toNat l.ej.toNat) :
    reach l d = seqLen (seqRange l.ei.toNat l.ej.toNat) x p l.la d := by
  refine eq_of_forall_le_iff fun j => ?_
  rw [le_reach_iff, le_seqLen_iff]
  refine and_congr_right fun hj => forall₂_congr fun k hk => ?_
  rw [h.read ((h.back_modEq hd).add_right k) (by omega) (by omega),
    h.read (h.cursor_modEq.add_right k) (by omega) (by omega)]

/-- The length the search finds is the best length of R144, where that is a match at all. -/
theorem Lzss.Codes.search_len (h : l.Codes x p) :
    (search l).2 = max 1 (seqBestLen (seqRange l.ei.toNat l.ej.toNat) x p l.la) := by
  have best := search_longest l
  have le : seqBestLen (seqRange l.ei.toNat l.ej.toNat) x p l.la ≤ (search l).2 := by
    rcases Nat.eq_zero_or_pos (seqBestLen (seqRange l.ei.toNat l.ej.toNat) x p l.la) with h0 | h0
    · omega
    · obtain ⟨d, h1, hd, hlen⟩ := seqBestLen_attained h0
      rw [← hlen, ← h.reach_eq hd]
      exact best.longest d h1 (Nat.lt_one_add_iff.2 hd)
  have pos := best.pos
  rcases Nat.eq_or_lt_of_le pos with h1 | h1
  · omega
  · obtain ⟨hd1, hd2, hlen⟩ := best.found h1
    have ge := seqLen_le_seqBestLen (range := seqRange l.ei.toNat l.ej.toNat) (p := p) (m := l.la) x hd1
      (Nat.lt_one_add_iff.1 hd2)
    rw [← h.reach_eq (Nat.lt_one_add_iff.1 hd2), hlen] at ge
    omega

/-- The distance the search finds is that of R144. -/
theorem Lzss.Codes.search_dist (h : l.Codes x p) (long : 1 < (search l).2) :
    1 ≤ (search l).1 ∧ (search l).1 ≤ seqRange l.ei.toNat l.ej.toNat ∧
      seqBestDist (seqRange l.ei.toNat l.ej.toNat) x p l.la = (search l).1 := by
  have best := search_longest l
  have len := h.search_len
  obtain ⟨hd1, hd2, hlen⟩ := best.found long
  have hd := Nat.lt_one_add_iff.1 hd2
  refine ⟨hd1, hd, seqBestDist_eq hd1 hd (by rw [← h.reach_eq hd]; omega) fun d h1 hlt => ?_⟩
  have := best.nearest d h1 hlt
  rw [← h.reach_eq (hlt.le.trans hd)]
  omega

/-- The number written for a distance is that of R144. -/
theorem Lzss.Codes.refField_eq (h : l.Codes x p) (mode : RefMode) {d : Nat} (hd : d ≤ seqRange l.ei.toNat l.ej.toNat) :
    refField mode l d = seqRef mode l.ei.toNat l.ej.toNat p d := by
  cases mode with
  | distance => rfl
  | position => exact (Nat.mod_eq_of_lt (Nat.mod_lt _ l.n_pos)).symm.trans (h.back_modEq hd)

/-- With the lookahead full, or all there is, the encoder codes the token of R144. -/
theorem Lzss.Codes.chooseToken_eq (h : l.Codes x p) (mode : RefMode) (hla : l.la ≠ 0)
    (full : ¬ (l.la < l.f ∧ l.eosf = false)) :
    chooseToken mode l (search l) = seqToken mode l.ei.toNat l.ej.toNat x p := by
  have lookahead : min (2 ^ l.ej.toNat + Config.policy) (x.length - p) = l.la := by
    have room : l.la ≤ 2 ^ l.ej.toNat + Config.policy := h.room
    have within := h.within
    cases he : l.eosf with
    | true => have := h.ended he; omega
    | false =>
      have : ¬ l.la < 2 ^ l.ej.toNat + Config.policy := fun hlt => full ⟨hlt, he⟩
      omega
  have len := h.search_len
  unfold seqToken chooseToken Config.policy at *
  dsimp only
  rw [lookahead]
  split_ifs with h1 h2 h2
  · have here := h.read h.cursor_modEq (by omega) (by omega)
    rw [here, seqHistory, if_neg (by omega), Nat.add_sub_cancel_left]
  · omega
  · omega
  · obtain ⟨-, hd, dist⟩ := h.search_dist (by omega)
    rw [dist, h.refField_eq mode hd, show (search l).2 = seqBestLen (seqRange l.ei.toNat l.ej.toNat) x p l.la by omega]

/-- A byte joins the lookahead (R135). -/
theorem Lzss.Codes.fill (h : l.Codes x p) (more : p + l.la < x.length) (hla : l.la < l.f) (running : l.eosf = false) :
    ({ l.write (l.r + l.la) x[p + l.la] with la := l.la + 1 } : Lzss).Codes x p where
  legal := h.legal
  wf := memWrite_wf _ _ h.wf
  cursor := h.cursor
  within := more
  room := hla
  ended := fun he => by
    have : l.eosf = true := he
    rw [running] at this
    cases this
  holds := by
    have ring := Lzss.range_add_f h.legal
    have last : seqHistory (seqRange l.ei.toNat l.ej.toNat) x (seqRange l.ei.toNat l.ej.toNat + p + l.la) =
        x[p + l.la] := by
      rw [seqHistory, if_neg (by omega), Nat.add_assoc, Nat.add_sub_cancel_left, List.getD_eq_getElem _ _ more]
    rw [← last]
    exact h.holds.write (lo' := p + (l.la + 1) - l.f) h.wf (h.cursor_modEq.add_right l.la) (fun _ _ => rfl) (by omega)
      (by omega)

/-- A token is done with: the cursor moves over the bytes it covers (R134). -/
theorem Lzss.Codes.advance (h : l.Codes x p) {y : Nat} (hy : y ≤ l.la) : (encAdvance y l).Codes x (p + y) where
  legal := h.legal
  wf := h.wf
  cursor := by
    change (l.r + y) % l.n = (seqRange l.ei.toNat l.ej.toNat + (p + y)) % l.n
    rw [← Nat.add_assoc]
    exact h.cursor_modEq.add_right y
  within := by
    have := h.within
    change p + y + (l.la - y) ≤ x.length
    omega
  room := (Nat.sub_le ..).trans h.room
  ended := fun he => by
    have := h.ended he
    change p + y + (l.la - y) = x.length
    omega
  holds := by
    change l.Holds _ (p + y + (l.la - y) - l.f) (seqRange l.ei.toNat l.ej.toNat + (p + y) + (l.la - y))
    rw [show p + y + (l.la - y) = p + l.la by omega,
      show seqRange l.ei.toNat l.ej.toNat + (p + y) + (l.la - y) = seqRange l.ei.toNat l.ej.toNat + p + l.la by omega]
    exact h.holds

end

/-! ## The encoder's writer -/

/-- The writer holds the bits put since the last full byte (R25, R131). -/
structure Lzss.Writes (l : Lzss) (pend : List Bool) : Prop where
  short : pend.length < 8
  buf : l.wbuf = packByte pend
  mask : l.wmask = 0x80#8 >>> pend.length

/-- The bit under the mask is the next place of the byte. -/
theorem packByte_concat {pend : List Bool} (h : pend.length < 8) (b : Bool) :
    packByte (pend ++ [b]) = if b then packByte pend ||| 0x80#8 >>> pend.length else packByte pend := by
  have key : ∀ j < 8, ∀ n < 2 ^ j, ∀ b : Bool, packByte (natBits j n ++ [b]) =
      if b then packByte (natBits j n) ||| 0x80#8 >>> j else packByte (natBits j n) := by decide +kernel
  have := key pend.length h (bitsNat pend) (bitsNat_lt pend) b
  rwa [natBits_bitsNat] at this

theorem Lzss.Writes.putBit_wbuf {l : Lzss} {pend : List Bool} (h : l.Writes pend) (b : Bool) :
    (putBit b l).wbuf = packByte (pend ++ [b]) := by
  rw [packByte_concat h.short, ← h.buf, ← h.mask]
  rfl

theorem Lzss.Writes.putBit_wmask {l : Lzss} {pend : List Bool} (h : l.Writes pend) (b : Bool) :
    (putBit b l).wmask = 0x80#8 >>> (pend ++ [b]).length := by
  rw [List.length_append, BitVec.shiftRight_add, ← h.mask]
  rfl

/-- A bit that leaves the byte unfilled. -/
theorem Lzss.Writes.putBit {l : Lzss} {pend : List Bool} (h : l.Writes pend) {b : Bool}
    (short : (pend ++ [b]).length < 8) : (putBit b l).Writes (pend ++ [b]) :=
  ⟨short, h.putBit_wbuf b, h.putBit_wmask b⟩

/-- The writer after a full byte is pushed, and at the start (R130, R131). -/
theorem writes_nil {l : Lzss} (hbuf : l.wbuf = 0x00) (hmask : l.wmask = 0x80) : l.Writes [] :=
  ⟨Nat.succ_pos 7, hbuf, hmask⟩

/-! ## The encoder between its transactions -/

theorem encResume_cons (b : Bool) (rest : List Bool) (y : Nat) (s : State) :
    encResume (b :: rest) y s =
      if (putBit b s.lzss).wmask = 0 then
        pushSnk (putBit b s.lzss).wbuf (.encPush rest y) { s with lzss := putBit b s.lzss }
      else encResume rest y { s with lzss := putBit b s.lzss } := by
  unfold encResume
  rw [putBits]
  split_ifs <;> rfl

/-- The token the encoder codes next, put bit by bit (R134, R137). -/
def encToken (s : State) : State :=
  encResume ((chooseToken s.refMode s.lzss (search s.lzss)).1.bits s.lzss.ei.toNat s.lzss.ej.toNat)
    (chooseToken s.refMode s.lzss (search s.lzss)).2 s

/-- Coding a token takes at least a byte off the lookahead (R134, R137). -/
theorem encAdvance_la_lt {s : State} (hla : s.lzss.la ≠ 0) (bits : List Bool) :
    (encAdvance (chooseToken s.refMode s.lzss (search s.lzss)).2 (putBits bits s.lzss).1).la < s.lzss.la := by
  have covers := (chooseToken_covers s.refMode hla).1
  rw [putBits_frame]
  change s.lzss.la - _ < s.lzss.la
  omega

/-- The loop's bound does not matter while it covers the lookahead. -/
theorem encLoop_eq {fuel fuel' : Nat} {s : State} (h : s.lzss.la ≤ fuel) (h' : s.lzss.la ≤ fuel') :
    encLoop fuel s = encLoop fuel' s := by
  induction fuel generalizing fuel' s with
  | zero =>
    have hla := Nat.le_zero.1 h
    cases fuel' with
    | zero => rfl
    | succ fuel' => rw [encLoop, encLoop, if_pos hla, if_pos hla]
  | succ fuel ih =>
    cases fuel' with
    | zero =>
      have hla := Nat.le_zero.1 h'
      rw [encLoop, encLoop, if_pos hla, if_pos hla]
    | succ fuel' =>
      rw [encLoop, encLoop]
      split
      · rfl
      · split
        · rfl
        · rename_i hla
          have less := encAdvance_la_lt hla
            ((chooseToken s.refMode s.lzss (search s.lzss)).1.bits s.lzss.ei.toNat s.lzss.ej.toNat)
          dsimp only
          split
          · rfl
          · rename_i l put
            rw [put] at less
            exact ih (s := { s with lzss := encAdvance _ l }) (Nat.le_of_lt_succ (less.trans_le h))
              (Nat.le_of_lt_succ (less.trans_le h'))

theorem encLoop_end {s : State} (fuel : Nat) (full : ¬ (s.lzss.la < s.lzss.f ∧ s.lzss.eosf = false))
    (hla : s.lzss.la = 0) : encLoop fuel s = encFlushBits s := by
  cases fuel <;> rw [encLoop, if_neg full, if_pos hla]

/-- With the lookahead as full as it gets, the loop codes a token (R134). -/
theorem encLoop_token {s : State} {fuel : Nat} (full : ¬ (s.lzss.la < s.lzss.f ∧ s.lzss.eosf = false))
    (hla : s.lzss.la ≠ 0) (hf : s.lzss.la ≤ fuel) : encLoop fuel s = encToken s := by
  obtain ⟨fuel, rfl⟩ : ∃ m, fuel = m + 1 := ⟨fuel - 1, by omega⟩
  have less := encAdvance_la_lt hla
    ((chooseToken s.refMode s.lzss (search s.lzss)).1.bits s.lzss.ei.toNat s.lzss.ej.toNat)
  rw [encLoop, if_neg full, if_neg hla, encToken, encResume]
  dsimp only
  split
  · rfl
  · rename_i l put
    rw [put] at less
    exact encLoop_eq (s := { s with lzss := encAdvance _ l }) (Nat.le_of_lt_succ (less.trans_le hf)) le_rfl

/-! ## The course of the encoder -/

/-- The source answers the encoder. -/
theorem step_encPull {s : State} (hw : s.lzss.wait = .encPull) (a : SrcAnswer) :
    step (s.withInput (.src a)) = .next (encOnSrc a (s.emit (.pulled a))) :=
  step_src_enc (s := s.withInput (.src a)) rfl hw

/-- The sink answers the encoder inside a token. -/
theorem step_encPush {s : State} {bits : List Bool} {y : Nat} (hw : s.lzss.wait = .encPush bits y) (a : SnkAnswer) :
    step (s.withInput (.snk a)) = .next (encOnPush bits y a (s.emit (.pushed s.lzss.wbuf a))) :=
  step_snk_push (s := s.withInput (.snk a)) rfl hw

/-- The sink answers the encoder's flush. -/
theorem step_encFlush {s : State} (hw : s.lzss.wait = .encFlush) (a : SnkAnswer) :
    step (s.withInput (.snk a)) = .next (encOnFlush a (s.emit (.pushed s.lzss.wbuf a))) :=
  step_snk_flush (s := s.withInput (.snk a)) rfl hw

/-- The encoder with a full byte pushed and taken (R131). -/
def State.pushedByte (s : State) (w : LzssWait) : State :=
  s.lzssAs { s.lzss with wbuf := 0x00, wmask := 0x80, wait := w } (pushEvents [s.lzss.wbuf])

/-- The push of a full byte is served, and the rest of the token's bits follow (R131). -/
theorem Completes.encPush {z out : List Byte} {s : State} {bits : List Bool} {y n : Nat}
    (h : Completes z (s.pushedByte (.encPush bits y)) (encResume bits y (s.pushedByte (.encPush bits y))) out n) :
    Completes z s (pushSnk s.lzss.wbuf (.encPush bits y) s) (s.lzss.wbuf :: out) n := by
  have step_push : step ((pushSnk s.lzss.wbuf (.encPush bits y) s).withInput (.snk .ok)) =
      .next (encResume bits y (s.pushedByte (.encPush bits y))) := by
    rw [step_encPush rfl]
    simp [encOnPush, pushSnk, State.emit, State.lzssAs, State.pushedByte, pushEvents]
  have := (h.after (s := s) rfl rfl).answered (input := .snk .ok) rfl step_push
  rwa [sunk_pushEvents, pulls_pushEvents, Nat.zero_add] at this

/-- The end of the encoder: the bits that do not fill a byte go out padded (R132, R134). -/
theorem completes_encFlushBits {s : State} {pend : List Bool} (h : s.lzss.Writes pend) (z : List Byte) :
    Completes z s (encFlushBits s) (packBits pend) 0 := by
  cases pend with
  | nil =>
    rw [encFlushBits, if_pos (show s.lzss.wmask = 0x80 from h.mask)]
    exact completes_lzssEnd z s
  | cons b bs =>
    have partly : s.lzss.wmask ≠ 0x80 := by
      have key : ∀ j < 8, j ≠ 0 → 0x80#8 >>> j ≠ 0x80#8 := by decide
      rw [h.mask]
      exact key _ h.short (Nat.succ_ne_zero _)
    rw [encFlushBits, if_neg partly, packBits_short (List.cons_ne_nil b bs) h.short.le, ← h.buf]
    have step_flush : step ((pushSnk s.lzss.wbuf .encFlush s).withInput (.snk .ok)) =
        .next (lzssEnd .ok (s.lzssAs { s.lzss with wait := .encFlush } (pushEvents [s.lzss.wbuf]))) := by
      rw [step_encFlush rfl]
      simp [encOnFlush, pushSnk, State.emit, State.lzssAs, pushEvents]
    exact ((completes_lzssEnd z _).after (s := s) (ev := pushEvents [s.lzss.wbuf]) rfl rfl).answered
      (input := .snk .ok) rfl step_flush

/-- Putting a token's bits pushes every byte they fill; what follows them goes on from the bits left (R131). -/
theorem encResume_completes {z : List Byte} {tail bits pend : List Bool} {y n : Nat} {s : State}
    (h : s.lzss.Writes pend)
    (next : ∀ (s' : State) (pend' : List Bool), s'.refMode = s.refMode →
      s'.lzss = { s.lzss with wbuf := s'.lzss.wbuf, wmask := s'.lzss.wmask, wait := s'.lzss.wait } →
      s'.lzss.Writes pend' → Completes z s' (encResume [] y s') (packBits (pend' ++ tail)) n) :
    Completes z s (encResume bits y s) (packBits (pend ++ bits ++ tail)) n := by
  induction bits generalizing s pend with
  | nil =>
    rw [List.append_nil]
    exact next s pend rfl rfl h
  | cons b bits ih =>
    have string : pend ++ b :: bits ++ tail = pend ++ [b] ++ (bits ++ tail) := by simp
    have len : (pend ++ [b]).length = pend.length + 1 := List.length_append
    have short := h.short
    rw [encResume_cons, h.putBit_wmask, string]
    split
    · rename_i hfull
      have full : (pend ++ [b]).length = 8 := by
        by_contra hne
        exact mask_ne_zero (by omega) hfull
      rw [packBits_append full, ← h.putBit_wbuf b]
      have put := ih (s := State.pushedByte { s with lzss := putBit b s.lzss } (.encPush bits y)) (pend := [])
        (writes_nil rfl rfl) next
      exact Completes.encPush put
    · rename_i hmask
      have unfilled : (pend ++ [b]).length < 8 := by
        by_contra hge
        exact hmask (by rw [show (pend ++ [b]).length = 8 by omega]; decide)
      have put := ih (s := { s with lzss := putBit b s.lzss }) (h.putBit unfilled) next
      rw [List.append_assoc] at put
      exact put

/-- The encoder with the end of its source noted (R135). -/
def State.pulledEos (s : State) : State :=
  s.lzssAs { s.lzss with eosf := true, wait := .encPull } [.pull, .pulled .eos]

/-- The encoder with a byte put in its lookahead (R135). -/
def State.filled (s : State) (b : Byte) : State :=
  s.lzssAs { s.lzss.write (s.lzss.r + s.lzss.la) b with la := s.lzss.la + 1, wait := .encPull }
    [.pull, .pulled (.byte b)]

/-- The encoder's pull is served with the end of the source (R135). -/
theorem Completes.encPull_eos {out : List Byte} {s : State} {n : Nat}
    (h : Completes [] s.pulledEos (encLoop s.lzss.la s.pulledEos) out n) :
    Completes [] s (pullSrc .encPull s) out (1 + n) := by
  have step_eos : step ((pullSrc .encPull s).withInput (.src .eos)) = .next (encLoop s.lzss.la s.pulledEos) := by
    rw [step_encPull rfl]
    simp [encOnSrc, pullSrc, State.emit, State.lzssAs, State.pulledEos]
  exact (h.after (s := s) (ev := [.pull, .pulled .eos]) rfl rfl).answered (input := .src .eos) rfl step_eos

/-- The encoder's pull is served with the next byte of the source (R135). -/
theorem Completes.encPull_byte {z out : List Byte} {s : State} {b : Byte} {n : Nat}
    (h : Completes z (s.filled b) (encLoop (s.lzss.la + 1) (s.filled b)) out n) :
    Completes (b :: z) s (pullSrc .encPull s) out (1 + n) := by
  have step_byte : step ((pullSrc .encPull s).withInput (.src (.byte b))) =
      .next (encLoop (s.lzss.la + 1) (s.filled b)) := by
    rw [step_encPull rfl]
    simp [encOnSrc, pullSrc, State.emit, State.lzssAs, State.filled, Lzss.write, Lzss.n]
  exact (h.after (s := s) (ev := [.pull, .pulled (.byte b)]) rfl rfl).answered (input := .src (.byte b)) rfl step_byte

/-- How many pulls an encoder has still to make: one for each byte not pulled yet, and one for the end (R135, R139). -/
def Lzss.pullsLeft (l : Lzss) (x : List Byte) (p : Nat) : Nat :=
  x.length - (p + l.la) + if l.eosf then 0 else 1

/-- Served from `t`, an encoder that has coded the first `p` bytes of `x` and holds the bits `pend` pushes those and the
bits of R144's tokens from `p` on, packed. -/
def EncodesRest (x : List Byte) (p : Nat) (pend : List Bool) (s t : State) : Prop :=
  Completes (x.drop (p + s.lzss.la)) s t
    (packBits (pend ++ (tokensFrom s.refMode s.lzss.ei.toNat s.lzss.ej.toNat x p).flatMap
      (Token.bits s.lzss.ei.toNat s.lzss.ej.toNat))) (s.lzss.pullsLeft x p)

section
variable {s : State} {x : List Byte} {p : Nat} {pend : List Bool}

/-- A pull with nothing left of the source. -/
theorem EncodesRest.pull_eos (running : s.lzss.eosf = false) (hend : p + s.lzss.la = x.length)
    (rest : EncodesRest x p pend s.pulledEos (encLoop s.lzss.la s.pulledEos)) :
    EncodesRest x p pend s (pullSrc .encPull s) := by
  have left : s.lzss.pullsLeft x p = 1 + s.pulledEos.lzss.pullsLeft x p := by
    rw [Lzss.pullsLeft, running, hend]
    change x.length - x.length + 1 = 1 + (x.length - (p + s.lzss.la) + 0)
    omega
  have nothing : x.drop (p + s.lzss.la) = [] := by rw [hend, List.drop_length]
  rw [EncodesRest, left, nothing]
  rw [EncodesRest, show x.drop (p + s.pulledEos.lzss.la) = [] from nothing] at rest
  exact rest.encPull_eos

/-- A pull with a byte left of the source. -/
theorem EncodesRest.pull_byte (running : s.lzss.eosf = false) (more : p + s.lzss.la < x.length)
    (rest : EncodesRest x p pend (s.filled x[p + s.lzss.la]) (encLoop (s.lzss.la + 1) (s.filled x[p + s.lzss.la]))) :
    EncodesRest x p pend s (pullSrc .encPull s) := by
  have left : s.lzss.pullsLeft x p = 1 + (s.filled x[p + s.lzss.la]).lzss.pullsLeft x p := by
    rw [Lzss.pullsLeft, Lzss.pullsLeft, running, show (s.filled x[p + s.lzss.la]).lzss.eosf = false from running]
    change x.length - (p + s.lzss.la) + 1 = 1 + (x.length - (p + (s.lzss.la + 1)) + 1)
    omega
  rw [EncodesRest, left, List.drop_eq_getElem_cons more]
  exact Completes.encPull_byte rest

/-- The end of the input. -/
theorem encodesRest_end (hw : s.lzss.Writes pend) (done : s.lzss.eosf = true) (hp : x.length ≤ p) :
    EncodesRest x p pend s (encFlushBits s) := by
  have left : s.lzss.pullsLeft x p = 0 := by
    rw [Lzss.pullsLeft, done, Nat.sub_eq_zero_of_le (hp.trans (Nat.le_add_right ..))]
    rfl
  rw [EncodesRest, left, tokensFrom_end _ _ _ hp, List.flatMap_nil, List.append_nil]
  exact completes_encFlushBits hw _

/-- A token: its bits are put, then the encoder goes on behind the bytes it covers. -/
theorem EncodesRest.token (h : s.lzss.Codes x p) (hw : s.lzss.Writes pend) (hla : s.lzss.la ≠ 0)
    (full : ¬ (s.lzss.la < s.lzss.f ∧ s.lzss.eosf = false))
    (next : ∀ (s' : State) (pend' : List Bool) (y : Nat), 1 ≤ y → y ≤ s.lzss.la → s'.lzss.Codes x (p + y) →
      s'.lzss.pullsLeft x (p + y) = s.lzss.pullsLeft x p → s'.lzss.Writes pend' →
      EncodesRest x (p + y) pend' s' (encLoop s'.lzss.la s')) :
    EncodesRest x p pend s (encToken s) := by
  have token := h.chooseToken_eq s.refMode hla full
  obtain ⟨pos, covers⟩ := chooseToken_covers s.refMode hla
  have within := h.within
  rw [EncodesRest, encToken, token, tokensFrom_cons _ _ _ (by omega), List.flatMap_cons, ← List.append_assoc]
  rw [token] at pos covers
  generalize (seqToken s.refMode s.lzss.ei.toNat s.lzss.ej.toNat x p).2 = y at pos covers ⊢
  refine encResume_completes hw fun s' pend' mode same hw' => ?_
  have codes : s'.lzss.Codes x p := by
    rw [same]
    exact { h with }
  have hei : s'.lzss.ei = s.lzss.ei := by rw [same]
  have hej : s'.lzss.ej = s.lzss.ej := by rw [same]
  have la : s'.lzss.la = s.lzss.la := by rw [same]
  have eosf : s'.lzss.eosf = s.lzss.eosf := by rw [same]
  have pulled : p + y + (s.lzss.la - y) = p + s.lzss.la := by omega
  have left : (encAdvance y s'.lzss).pullsLeft x (p + y) = s.lzss.pullsLeft x p := by
    change x.length - (p + y + (s'.lzss.la - y)) + (if s'.lzss.eosf then 0 else 1) = _
    rw [la, eosf, pulled, Lzss.pullsLeft]
  have rest := next { s' with lzss := encAdvance y s'.lzss } pend' y pos covers (codes.advance (la ▸ covers)) left
    ⟨hw'.short, hw'.buf, hw'.mask⟩
  rw [EncodesRest, left] at rest
  change Completes (x.drop (p + y + (s'.lzss.la - y))) _ _ (packBits (pend' ++
    (tokensFrom s'.refMode s'.lzss.ei.toNat s'.lzss.ej.toNat x (p + y)).flatMap
      (Token.bits s'.lzss.ei.toNat s'.lzss.ej.toNat))) _ at rest
  rw [la, pulled, hei, hej] at rest
  rw [← mode]
  exact rest

end

/-- An encoder that has coded the first `p` bytes of `x`, from the head of its loop, encodes the rest (R134, R135). -/
theorem encoder_completes {s : State} {x : List Byte} {p fuel : Nat} {pend : List Bool} (h : s.lzss.Codes x p)
    (hw : s.lzss.Writes pend) (hf : s.lzss.la ≤ fuel) : EncodesRest x p pend s (encLoop fuel s) := by
  induction hn : x.length - p + s.lzss.pullsLeft x p using Nat.strong_induction_on generalizing s p fuel pend with
  | _ n ih =>
    subst hn
    have within := h.within
    by_cases full : s.lzss.la < s.lzss.f ∧ s.lzss.eosf = false
    · obtain ⟨hla, running⟩ := full
      have left : s.lzss.pullsLeft x p = x.length - (p + s.lzss.la) + 1 := by simp [Lzss.pullsLeft, running]
      rw [encLoop_pull fuel hla running]
      rcases Nat.eq_or_lt_of_le within with hend | more
      · refine EncodesRest.pull_eos running hend (ih _ ?_ { h with ended := fun _ => hend }
          ⟨hw.short, hw.buf, hw.mask⟩ (le_refl s.lzss.la) rfl)
        change x.length - p + (x.length - (p + s.lzss.la) + 0) < _
        omega
      · refine EncodesRest.pull_byte running more (ih _ ?_ { h.fill more hla running with }
          ⟨hw.short, hw.buf, hw.mask⟩ (le_refl (s.lzss.la + 1)) rfl)
        rw [left, Lzss.pullsLeft, show (s.filled x[p + s.lzss.la]).lzss.eosf = false from running]
        change x.length - p + (x.length - (p + (s.lzss.la + 1)) + 1) < _
        omega
    · by_cases hla : s.lzss.la = 0
      · have done : s.lzss.eosf = true := by
          have := s.lzss.f_pos
          by_contra hne
          exact full ⟨by omega, by simpa using hne⟩
        have := h.ended done
        rw [encLoop_end fuel full hla]
        exact encodesRest_end hw done (by omega)
      · rw [encLoop_token full hla hf]
        refine EncodesRest.token h hw hla full fun s' pend' y pos covers codes left hw' => ?_
        exact ih _ (by omega) codes hw' le_rfl rfl

/-- Settles O46: the encoder starts with nothing coded, no bit held and the whole source before it. -/
theorem lzssEncMeansSequence : Obligations.LzssEncMeansSequence := by
  intro s x hs idle
  obtain ⟨k, l, ev, run, ⟨hidle, hei, hej⟩, hsunk, hpulls⟩ :=
    encoder_completes (s := s.lzssAs { lzssStart s.lzss with phase := .enc } []) (pend := [])
      { lzssStart_codes hs.lzss x with } (writes_nil rfl rfl) (le_refl 0)
  have start : exec .lzssEnc s = .next (encLoop 0 (s.lzssAs { lzssStart s.lzss with phase := .enc } [])) := by
    simp only [exec, execLzssEnc, idle, bne_self_eq_false, Bool.false_eq_true, if_false, withLzss_eq]
    rfl
  refine ⟨_, start, k, _, ev, run, hidle, ?_, hsunk, hpulls, hei, hej, rfl, rfl, rfl⟩
  simp

/-- Settles O48: both operations are their functions on sequences, and these are inverse. -/
theorem lzssRoundTrip : Obligations.LzssRoundTrip := by
  intro s x hs idle
  obtain ⟨t, start, k, u, ev, run, -, trace, encoded, -⟩ := lzssEncMeansSequence s x hs idle
  refine ⟨t, k, u, ev, start, run, trace, fun s' hs' idle' hei hej mode => ?_⟩
  obtain ⟨t', start', k', u', ev', run', -, trace', decoded, -⟩ := lzssDecMeansSequence s' (sunk ev) hs' idle'
  refine ⟨t', k', u', ev', start', run', trace', ?_⟩
  rw [decoded, encoded, hei, hej, mode]
  exact sequenceRoundTrip _ _ _ x hs.lzss.pair

end Sys2Proof.Machine

/-! Proofs of the statements of 42_crc.md: the byte step as a shift register, and what the running CRC tells. -/

namespace Sys2Proof.Machine

/-! ## The shift register (R170) -/

/-- A shift after a mask is added is the bit-serial step of the mask's top bit, the rest of the mask moved up. -/
theorem crcShift_xor (acc mask : Half) : crcShift (acc ^^^ mask) = crcBit acc (mask.getLsbD 15) ^^^ (mask <<< 1) := by
  simp only [crcShift, crcBit, BitVec.getLsbD_xor, BitVec.shiftLeft_xor_distrib]
  split <;> ac_rfl

/-- Bits fed one at a time, most significant first, are the same bits added at the top and then shifted. -/
theorem foldl_crcBit_natBits (w : Half) (k : Nat) (acc : Half) (hk : k ≤ 16) :
    (natBits k w.toNat).foldl crcBit acc = crcShifts k (acc ^^^ w <<< (16 - k)) := by
  induction k generalizing acc with
  | zero => simp [natBits, crcShifts]
  | succ k ih =>
    have top : (w <<< (16 - (k + 1))).getLsbD 15 = w.toNat.testBit k := by
      rw [BitVec.getLsbD_shiftLeft, BitVec.testBit_toNat, show 15 - (16 - (k + 1)) = k by omega]
      simp
    have rest : w <<< (16 - (k + 1)) <<< 1 = w <<< (16 - k) := by
      rw [← BitVec.shiftLeft_add, show 16 - (k + 1) + 1 = 16 - k by omega]
    rw [natBits, List.foldl_cons, ih _ (by omega), crcShifts, crcShift_xor, top, rest]

/-- The byte step is eight bit-serial steps, most significant bit first (R170). -/
theorem crcStep_eq_bits (acc : Half) (b : Byte) : crcStep acc b = (natBits 8 b.toNat).foldl crcBit acc := by
  have same : (b.setWidth 16).toNat = b.toNat := BitVec.toNat_setWidth_of_le (by decide)
  rw [← same, foldl_crcBit_natBits _ _ _ (by decide), crcStep]

theorem crcBytes_eq_bits (acc : Half) (bytes : List Byte) :
    crcBytes acc bytes = (streamBits bytes).foldl crcBit acc := by
  induction bytes generalizing acc with
  | nil => rfl
  | cons b bytes ih =>
    calc crcBytes acc (b :: bytes) = crcBytes (crcStep acc b) bytes := rfl
      _ = (streamBits bytes).foldl crcBit ((natBits 8 b.toNat).foldl crcBit acc) := by rw [ih, crcStep_eq_bits]
      _ = (streamBits (b :: bytes)).foldl crcBit acc := by simp only [streamBits, List.flatMap_cons, List.foldl_append]

@[simp] theorem crcBytes_cons (acc : Half) (b : Byte) (bytes : List Byte) :
    crcBytes acc (b :: bytes) = crcBytes (crcStep acc b) bytes := rfl

theorem crcBytes_append (acc : Half) (a b : List Byte) : crcBytes acc (a ++ b) = crcBytes (crcBytes acc a) b :=
  List.foldl_append

/-! ## No shift loses a bit -/

/-- The generator is odd, so bit 0 after a shift is the bit shifted out. -/
theorem crcShift_getLsbD_zero (acc : Half) : (crcShift acc).getLsbD 0 = acc.getLsbD 15 := by
  unfold crcShift
  split <;> simp_all

/-- Bit 0 tells which bit was shifted out, and so whether the generator was added. -/
theorem crcShift_injective : Function.Injective crcShift := by
  intro x y h
  have top : x.getLsbD 15 = y.getLsbD 15 := by rw [← crcShift_getLsbD_zero, h, crcShift_getLsbD_zero]
  have shifted : x <<< 1 = y <<< 1 := by
    simp only [crcShift, top] at h
    split at h
    · exact BitVec.xor_left_inj _ |>.mp h
    · exact h
  refine BitVec.eq_of_getLsbD_eq fun i hi => ?_
  rcases Nat.lt_or_eq_of_le (Nat.le_of_lt_succ hi) with low | rfl
  · simpa [hi, show i + 1 < 16 by omega] using congrArg (·.getLsbD (i + 1)) shifted
  · exact top

theorem crcShifts_injective (k : Nat) : Function.Injective (crcShifts k) := by
  induction k with
  | zero => exact Function.injective_id
  | succ k ih => exact ih.comp crcShift_injective

theorem crcStep_injective_left (b : Byte) : Function.Injective (crcStep · b) :=
  fun _ _ h => BitVec.xor_left_inj _ |>.mp (crcShifts_injective 8 h)

theorem crcStep_injective_right (acc : Half) : Function.Injective (crcStep acc) := by
  intro b b' h
  have shifted : b.setWidth 16 <<< 8 = b'.setWidth 16 <<< 8 := (BitVec.xor_right_inj acc).mp (crcShifts_injective 8 h)
  bv_omega

theorem crcBytes_injective_left (bytes : List Byte) : Function.Injective (crcBytes · bytes) := by
  induction bytes with
  | nil => exact Function.injective_id
  | cons b bytes ih => exact ih.comp (crcStep_injective_left b)

/-- Two streams that differ in one byte part at that byte, and no later byte brings them together. -/
theorem crcBytes_ne_of_byte_ne (acc : Half) (p q : List Byte) {b b' : Byte} (h : b ≠ b') :
    crcBytes acc (p ++ b :: q) ≠ crcBytes acc (p ++ b' :: q) := by
  simp only [crcBytes_append, crcBytes_cons]
  exact fun same => h (crcStep_injective_right _ (crcBytes_injective_left q same))

/-! ## The residue -/

/-- While the bits shifted out are 0 nothing is added. -/
theorem crcShifts_of_low (k : Nat) (acc : Half) (h : acc.toNat * 2 ^ k < 2 ^ 16) : crcShifts k acc = acc <<< k := by
  induction k generalizing acc with
  | zero => simp [crcShifts]
  | succ k ih =>
    have low : acc.toNat < 2 ^ 15 := by
      have := Nat.mul_le_mul_left acc.toNat (Nat.pow_le_pow_right (n := 2) (by decide) (Nat.le_add_left 1 k))
      omega
    have clear : acc.getLsbD 15 = false := Nat.testBit_lt_two_pow low
    have double : (acc <<< 1).toNat = acc.toNat * 2 := by bv_omega
    have shift : crcShift acc = acc <<< 1 := by rw [crcShift, clear]; rfl
    rw [crcShifts, shift, ih _ (by rwa [double, Nat.mul_assoc, ← Nat.pow_succ']), ← BitVec.shiftLeft_add, Nat.add_comm]

/-- The high byte clears the top half, so its step only moves the low byte up. -/
theorem crcStep_high_byte (acc : Half) : crcStep acc (hi acc) = (lo acc).setWidth 16 <<< 8 := by
  have low : acc ^^^ (hi acc).setWidth 16 <<< 8 = (lo acc).setWidth 16 := by
    refine BitVec.eq_of_getLsbD_eq fun i h => ?_
    by_cases half : i < 8
    · simp [hi, lo, h, half]
    · simp [hi, lo, h, half, Nat.add_sub_of_le (Nat.le_of_not_lt half), show i - 8 < 8 by omega]
  have := (lo acc).isLt
  rw [crcStep, low, crcShifts_of_low]
  bv_omega

/-- A byte added to itself at the top leaves nothing to shift. -/
theorem crcStep_same_byte (b : Byte) : crcStep (b.setWidth 16 <<< 8) b = 0 := by
  simp only [crcStep, BitVec.xor_self]
  rfl

/-! ## The operations -/

/-- A well-formed CRC.UPD sums every byte presented (R172). -/
theorem exec_crcUpd {n : BitVec 32} {bytes : List Byte} (h : bytes.length = n.toNat) (s : State) :
    exec (.crcUpd n bytes) s = .next ((s.setAcc (crcBytes s.crc.acc bytes)).ended .ok .none) := by
  simp only [exec, execCrcUpd, ← h, List.take_length]
  rfl

theorem exec_crcChk (w : Half) (s : State) :
    exec (.crcChk w) s = .next (if s.crc.acc = w then s.ended .ok .none else s.ended .errCrc .none) := by
  by_cases hw : s.crc.acc = w
  · simp only [exec, execCrcChk, crcMatches, beq_iff_eq, if_pos hw]
    rfl
  · simp only [exec, execCrcChk, crcMatches, beq_iff_eq, if_neg hw]
    rfl

/-- Settles O15: CRC.INIT evaluates, and CRC.CHK is `exec_crcChk`. -/
theorem crcInitAndCheck : Obligations.CrcInitAndCheck :=
  fun s => ⟨rfl, fun w => exec_crcChk w s⟩

/-- Settles O16, byte by byte. -/
theorem crcUpdateIsBitSerial : Obligations.CrcUpdateIsBitSerial := by
  intro s n bytes h
  rw [exec_crcUpd h, crcBytes_eq_bits]
  rfl

/-- Settles O17: the sum over joined bytes goes on from the sum over the first. -/
theorem crcUpdateSplits : Obligations.CrcUpdateSplits := by
  intro s n m k a b ha hb hab
  refine ⟨_, _, (execAll_cons (exec_crcUpd ha s) _).trans (execAll_cons (exec_crcUpd hb _) []), exec_crcUpd hab s, ?_⟩
  exact congrArg Crc.mk (crcBytes_append s.crc.acc a b).symm

/-- Settles O18: the high byte leaves the low one at the top, and the low one cancels it. -/
theorem crcResidueIsZero : Obligations.CrcResidueIsZero := by
  intro s
  refine ⟨_, exec_crcUpd rfl s, ?_⟩
  change crcStep (crcStep s.crc.acc (hi s.crc.acc)) (lo s.crc.acc) = 0
  rw [crcStep_high_byte, crcStep_same_byte]

/-- Settles O19: the accumulators differ, so the check of one against the other fails. -/
theorem crcDetectsByteChange : Obligations.CrcDetectsByteChange := by
  intro s n p q b b' hne h
  have h' : (p ++ b' :: q).length = n.toNat := by simpa using h
  have differ := crcBytes_ne_of_byte_ne s.crc.acc p q hne
  refine ⟨_, _, exec_crcUpd h s, exec_crcUpd h' s, differ, ?_⟩
  rw [exec_crcChk]
  exact congrArg Host.Outcome.next (if_neg differ.symm)

/-- Settles O20, by running the nine bytes. -/
theorem crcCheckValue : Obligations.CrcCheckValue :=
  ⟨_, exec_crcUpd rfl State.reset, by decide +kernel⟩

end Sys2Proof.Machine

/-! Proofs of the statements of 43_framer.md: the frames, the burst, the polls, and the chip-select discipline. -/

namespace Sys2Proof.Machine

/-! ## The phase check of an FRM operation (R181 to R189) -/

/-- An operation that needs FRM.PHASE = IDLE is settled by what it does there. -/
theorem answer_unless_burst {s u : State} {res : Result} {a : Answer}
    (h : s.frm.phase = .idle → (if s.frm.phase != .idle then raise .errState res s else a) = .next u) :
    (if s.frm.phase != .idle then raise .errState res s else a) =
      .next (if s.frm.phase = .burst then s.ended .errState res else u) := by
  cases hs : s.frm.phase with
  | idle => simpa [hs] using h hs
  | burst => rfl

/-- An operation that needs FRM.PHASE = BURST is settled by what it does there. -/
theorem answer_unless_idle {s u : State} {res : Result} {a : Answer}
    (h : s.frm.phase = .burst → (if s.frm.phase != .burst then raise .errState res s else a) = .next u) :
    (if s.frm.phase != .burst then raise .errState res s else a) =
      .next (if s.frm.phase = .idle then s.ended .errState res else u) := by
  cases hs : s.frm.phase with
  | idle => rfl
  | burst => simpa [hs] using h hs

/-! ## Whole frames -/

/-- FRM.SEND between bursts, with too many parameters (R181): no event. -/
theorem exec_frmSend_idle_surplus {s : State} {n : Byte} (hs : s.frm.phase = .idle) (hn : 5 < n.toNat) (cmd : Half)
    (p : List Half) : exec (.frmSend cmd n p) s = .next (s.ended .errParam .none) := by
  have surplus : Config.sendMaxParams < n.toNat := hn
  simp [exec, execFrmSend, hs, surplus, complete_eq, ended_eq_framed]

/-- Settles O21: the phase decides first, then the number of parameters. -/
theorem frmSendFrame : Obligations.FrmSendFrame := by
  intro s cmd n p hp
  refine answer_unless_burst fun hs => ?_
  by_cases hn : 5 < n.toNat
  · rw [if_pos hn]
    exact exec_frmSend_idle_surplus hs hn cmd p
  · rw [if_neg hn]
    exact exec_frmSend_idle hs hp (Nat.le_of_not_lt hn) cmd

theorem be16_eq_ofNat (b0 b1 : Byte) : be16 b0 b1 = BitVec.ofNat 16 (256 * b0.toNat + b1.toNat) := by
  apply BitVec.eq_of_toNat_eq
  rw [be16_toNat, BitVec.toNat_ofNat]
  omega

/-- FRM.RDREG between bursts is the register-read frame, then its completion (R182). -/
theorem exec_frmRdreg_idle {s : State} (hs : s.frm.phase = .idle) (addr : Half) :
    exec (.frmRdreg addr) s =
      .next ((readRegister addr s).2.ended .ok (.value (readRegister addr s).1)) := by
  simp [exec, execFrmRdreg, hs, complete_eq, ended_eq_framed]

/-- Settles O22: the value is made of the third and the fourth byte drawn. -/
theorem frmReadFrame : Obligations.FrmReadFrame := by
  intro s addr
  refine answer_unless_burst fun hs => (exec_frmRdreg_idle hs addr).trans ?_
  simp [readRegister_eq, be16_eq_ofNat, State.ended]

/-- FRM.WRREG between bursts (R183). -/
theorem exec_frmWrreg_idle {s : State} (hs : s.frm.phase = .idle) (addr val : Half) :
    exec (.frmWrreg addr val) s = .next (s.framed (s.frm.lines false)
      (headEvents s.frm s.frm.wrop ++ wordEvents addr ++ wordEvents val ++ [.csDeassert, .done .ok .none])) := by
  simp [exec, execFrmWrreg, hs, openFrame_eq, tx16_eq, deselect_eq, complete_eq, Frm.lines]

/-- Settles O23. -/
theorem frmWriteFrame : Obligations.FrmWriteFrame :=
  fun _ addr val => answer_unless_burst fun hs => exec_frmWrreg_idle hs addr val

/-! ## The burst -/

/-- FRM.BBEGIN.R between bursts (R185). -/
theorem exec_frmBbeginR_idle {s : State} (hs : s.frm.phase = .idle) (addr : Half) :
    exec (.frmBbeginR addr) s = .next (s.framed { s.frm.lines true with phase := .burst }
      (headEvents s.frm s.frm.wrop ++ wordEvents addr ++ [.done .ok .none])) := by
  simp [exec, execFrmBbeginR, hs, openFrame_eq, tx16_eq, complete_eq, State.setFrmPhase, State.framed]

/-- Settles O24. -/
theorem frmBurstOpens : Obligations.FrmBurstOpens :=
  fun _ cmd addr => ⟨answer_unless_burst fun hs => exec_frmBbeginC_idle hs cmd,
    answer_unless_burst fun hs => exec_frmBbeginR_idle hs addr⟩

/-- FRM.BRAW in a burst (R187): every byte presented, verbatim. -/
theorem exec_frmBraw_burst {s : State} {n : BitVec 32} {bytes : List Byte} (hs : s.frm.phase = .burst)
    (hb : bytes.length = n.toNat) :
    exec (.frmBraw n bytes) s = .next (s.framed s.frm (bytes.map Event.tx ++ [.done .ok .none])) := by
  have whole : bytes.take n.toNat = bytes := List.take_of_length_le hb.le
  simp [exec, execFrmBraw, hs, whole, txBytes_eq, complete_eq]

/-- Settles O25. -/
theorem frmBurstMovesAndCloses : Obligations.FrmBurstMovesAndCloses :=
  fun _ w _ _ hb => ⟨answer_unless_idle fun hs => exec_frmBword_burst hs w,
    answer_unless_idle fun hs => exec_frmBraw_burst hs hb, answer_unless_idle fun hs => exec_frmBend_burst hs⟩

/-! ## One poll (R190) -/

theorem busy_of_useHrdy {s : State} (h : s.frm.useHrdy = true) :
    busy s = (!(sampleReady s).1, (sampleReady s).2) := by
  simp [busy, h]

theorem busy_of_not_useHrdy {s : State} (h : s.frm.useHrdy = false) :
    busy s = (statusBusy s.frm (readRegister s.frm.staddr s).1, (readRegister s.frm.staddr s).2) := by
  simp [busy, h]

/-- A sample that the environment scripts is the sample taken (log 6). -/
theorem sampleReady_scripted {s : State} {r : Bool} {rest : List Bool} (h : s.env.hrdy = r :: rest) :
    (sampleReady s).1 = r ∧ (sampleReady s).2.env.hrdy = rest := by
  simp [sampleReady, h]

theorem statusBusy_eq_decide (f : Frm) (v : Half) : statusBusy f v = decide (v &&& f.stmask ≠ f.stexp) := by
  simp [statusBusy, bne, beq_eq_decide]

/-- Settles O27, by the policy: a sample of the line, or the read that FRM.RDREG makes. -/
theorem busyPoll : Obligations.BusyPoll := by
  intro s hs
  refine ⟨fun hr => ?_, fun hr => ?_⟩
  · obtain ⟨h, rest, k, sample⟩ := sampleReady_spec s
    have poll := busy_of_useHrdy hr
    have scripted := fun r rest' => sampleReady_scripted (s := s) (r := r) (rest := rest')
    rw [sample] at poll scripted
    exact ⟨h, _, poll, rfl, rfl, rfl, rfl, rfl, rfl, scripted⟩
  · exact ⟨_, _, exec_frmRdreg_idle hs _, by rw [busy_of_not_useHrdy hr, statusBusy_eq_decide]⟩

/-! ## The polls of FRM.WAIT (R189) -/

theorem pollUntilIdle_succ_busy {s : State} (h : (busy s).1 = true) (t : Nat) :
    pollUntilIdle (t + 1) s = pollUntilIdle t (busy s).2 := by
  rcases hb : busy s with ⟨b, u⟩
  simp_all [pollUntilIdle]

theorem pollUntilIdle_succ_idle {s : State} (h : (busy s).1 = false) (t : Nat) :
    pollUntilIdle (t + 1) s = (true, (busy s).2) := by
  rcases hb : busy s with ⟨b, u⟩
  simp_all [pollUntilIdle]

/-- After `k` busy polls an idle one ends the polling, whatever the bound beyond it. -/
theorem pollUntilIdle_of_first_idle {s : State} {k t : Nat} (hk : k < t)
    (hbusy : ∀ j < k, (busy (polled j s)).1 = true) (hidle : (busy (polled k s)).1 = false) :
    pollUntilIdle t s = (true, polled (k + 1) s) := by
  obtain ⟨t, rfl⟩ := Nat.exists_eq_add_of_lt hk
  clear hk
  induction k generalizing s with
  | zero => exact pollUntilIdle_succ_idle hidle _
  | succ k ih =>
    have first : (busy s).1 = true := hbusy 0 (Nat.succ_pos k)
    rw [show k + 1 + t + 1 = k + t + 1 + 1 by omega, pollUntilIdle_succ_busy first]
    exact ih (fun j hj => hbusy (j + 1) (Nat.succ_lt_succ hj)) hidle

theorem pollUntilIdle_of_all_busy {s : State} {t : Nat} (hbusy : ∀ j < t, (busy (polled j s)).1 = true) :
    pollUntilIdle t s = (false, polled t s) := by
  induction t generalizing s with
  | zero => rfl
  | succ t ih =>
    have first : (busy s).1 = true := hbusy 0 (Nat.succ_pos t)
    rw [pollUntilIdle_succ_busy first]
    exact ih fun j hj => hbusy (j + 1) (Nat.succ_lt_succ hj)

/-- Between polls the lines are as before the first, or as a whole frame leaves them. -/
theorem polled_frm (k : Nat) (s : State) : (polled k s).frm = s.frm ∨ (polled k s).frm = s.frm.lines false := by
  induction k generalizing s with
  | zero => exact .inl rfl
  | succ k ih =>
    obtain ⟨-, -, hfirst, -, -⟩ := busy_moved s
    rcases ih (busy s).2 with hrest | hrest <;> rcases hfirst with hfirst | hfirst <;> simp [polled, hrest, hfirst]

/-- FRM.WAIT between bursts ends as its polls do (R189). -/
theorem exec_frmWait_idle {s u : State} {t : BitVec 32} {found : Bool} (hs : s.frm.phase = .idle)
    (h : pollUntilIdle t.toNat s = (found, u)) :
    exec (.frmWait t) s = .next (u.ended (if found then .ok else .errTimeout) .none) := by
  cases found <;> simp [exec, execFrmWait, hs, h, complete_eq, ended_eq_framed]

/-- Settles O28: the polls stop at the first idle one, or are all made. -/
theorem frmWaitPolls : Obligations.FrmWaitPolls := by
  intro s t
  refine ⟨fun hs => ?_, fun hs => ⟨fun k hk hbusy hidle => ?_, fun hbusy => ?_, fun hcs k => ?_⟩⟩
  · simp [exec, execFrmWait, hs, complete_eq, ended_eq_framed]
  · exact exec_frmWait_idle hs (pollUntilIdle_of_first_idle hk hbusy hidle)
  · exact exec_frmWait_idle hs (pollUntilIdle_of_all_busy hbusy)
  · rcases polled_frm k s with hf | hf <;> simp [hf, hcs, hs]

/-! ## The chip-select discipline (R191) -/

/-- From `s` to `t` events were added to the history, which keep the chip-select discipline and leave chip-select where
`t` says. -/
def KeepsChipSelect (s t : State) : Prop :=
  ∃ ev, t.env.trace = s.env.trace ++ ev ∧ csThrough s.frm.cs ev = some t.frm.cs

theorem KeepsChipSelect.trans {s t u : State} (h : KeepsChipSelect s t) (h' : KeepsChipSelect t u) :
    KeepsChipSelect s u := by
  obtain ⟨a, ha, csa⟩ := h
  obtain ⟨b, hb, csb⟩ := h'
  exact ⟨a ++ b, by rw [hb, ha, List.append_assoc], by rw [csThrough_append csa, csb]⟩

/-- Without an event on the transport chip-select only has to stay where it was. -/
theorem RecordsNo.keepsChipSelect {s t : State} (h : RecordsNo onTransport s t) (hcs : t.frm.cs = s.frm.cs) :
    KeepsChipSelect s t := by
  obtain ⟨ev, htrace, hquiet⟩ := h
  exact ⟨ev, htrace, by rw [csThrough_quiet hquiet, hcs]⟩

theorem LzssOnly.keepsChipSelect {s t : State} (h : LzssOnly s t) : KeepsChipSelect s t := by
  refine h.recordsNo.keepsChipSelect ?_
  obtain ⟨l, ev, rfl, -⟩ := h
  rfl

/-- The completion of an FRM operation does not move chip-select. -/
theorem FrmRan.keepsChipSelect {s t : State} {ev : List Event} (h : FrmRan s t ev) (hs : s.frm.Ok) :
    KeepsChipSelect s t := by
  obtain ⟨st, res, moved⟩ := h.moved
  obtain ⟨-, hcs⟩ := h.cs hs.cs
  exact ⟨_, moved.trace, by rw [csThrough_append hcs]; rfl⟩

/-- Every instruction keeps the discipline, unit by unit: only the framer's moves chip-select. -/
theorem exec_keepsChipSelect {i : Instr} {s t : State} (hs : s.frm.Ok) (h : exec i s = .next t) :
    KeepsChipSelect s t := by
  cases hf : isFrm i with
  | true =>
    obtain ⟨ev, ran⟩ := exec_isFrm hf h
    exact ran.keepsChipSelect hs
  | false =>
    cases hl : isLzss i with
    | true => exact (exec_isLzss hl h).keepsChipSelect
    | false =>
      refine (exec_recordsNo_transport hf h).keepsChipSelect ?_
      obtain ⟨u, st, res, rfl, ran⟩ := exec_plain hf hl h
      exact ran.cs

/-- A reset deasserts chip-select, wherever it was (R260). -/
theorem resetEvent_keepsChipSelect (s : State) : KeepsChipSelect s (resetEvent s) := by
  refine ⟨_, resetEvent_env_trace s, ?_⟩
  rw [resetEvent_frm]
  cases s.frm.hasDc <;> rfl

/-- Settles O51, by the input the step takes. -/
theorem chipSelectDiscipline : Obligations.ChipSelectDiscipline := by
  intro s t hs h
  change KeepsChipSelect s t
  cases hhost : s.env.host with
  | nil =>
    rw [step_waiting hhost] at h
    cases h
    exact (LzssOnly.refl s).keepsChipSelect
  | cons input rest =>
    have taken : KeepsChipSelect s (s.taken rest) := (RecordsNo.refl onTransport s).keepsChipSelect rfl
    refine taken.trans ?_
    cases input with
    | op bytes =>
      obtain ⟨i, -, he⟩ | ⟨op, rfl⟩ := step_op_cases hhost h
      · exact (lzssOnly_emit (s.taken rest) rfl).keepsChipSelect.trans (exec_keepsChipSelect hs he)
      · exact ((lzssOnly_emit (s.taken rest) rfl).trans (lzssOnly_emit _ rfl)).keepsChipSelect
    | src a => exact (step_answer_lzssOnly h hhost (by simp) (by simp)).keepsChipSelect
    | snk a => exact (step_answer_lzssOnly h hhost (by simp) (by simp)).keepsChipSelect
    | reset =>
      rw [step_reset hhost] at h
      cases h
      exact resetEvent_keepsChipSelect (s.taken rest)

end Sys2Proof.Machine

/-! Proofs of the statements of 44_scrambler.md: the stages as total functions of the coordinates, what they refuse, and
why none of them puts two pixels in one place. -/

namespace Sys2Proof.Machine

/-! ## The stages as formulas (R212 to R218) -/

/-- Source scramble on an even gate count (R212). -/
def Coord.srcScrambled (c : Coord) : Coord :=
  { g := c.g / 2, s := 2 * c.s + c.g % 2, gs := c.gs / 2, ss := 2 * c.ss }

/-- Gate scramble on an even source count (R213). -/
def Coord.gateScrambled (c : Coord) : Coord :=
  { g := 2 * c.g + c.s % 2, s := c.s / 2, gs := 2 * c.gs, ss := c.ss / 2 }

/-- Source `y` of `n`, interleaved (R214). -/
def interleaved (firstOdd : Bool) (n y : Nat) : Nat := if y % 2 = 1 ↔ firstOdd = true then y / 2 else y / 2 + n / 2

/-- Source `y` of `n`, its half mirrored where that half's bit is set (R215). -/
def halfMirrored (left right : Bool) (n y : Nat) : Nat :=
  if left = true ∧ y < n / 2 then n / 2 - 1 - y
  else if right = true ∧ n / 2 ≤ y then 3 * (n / 2) - 1 - y else y

/-- Place `y` of `n`, counted from the other end (R216, R218). -/
def reversed (n y : Nat) : Nat := n - 1 - y

/-- Source `y` of `n`, half a turn on (R217). -/
def halfRotated (n y : Nat) : Nat := (y + n / 2) % n

/-! What each stage refuses, and where it takes the rest. -/

theorem stageA_eq_some {c d : Coord} : stageA c = some d ↔ 2 ∣ c.gs ∧ c.srcScrambled = d := by
  simp [stageA, Coord.srcScrambled, Nat.dvd_iff_mod_eq_zero]

theorem stageB_eq_some {c d : Coord} : stageB c = some d ↔ 2 ∣ c.ss ∧ c.gateScrambled = d := by
  simp [stageB, Coord.gateScrambled, Nat.dvd_iff_mod_eq_zero]

/-- Both polarities of R214 at once: the sources of one parity go to the first half, the others to the second. -/
theorem stageC_eq_some {firstOdd : Bool} {c d : Coord} :
    stageC firstOdd c = some d ↔ 2 ∣ c.ss ∧ { c with s := interleaved firstOdd c.ss c.s } = d := by
  rw [Nat.dvd_iff_mod_eq_zero]
  cases firstOdd <;> by_cases odd : c.s % 2 = 1 <;> simp [stageC, interleaved, odd]

theorem stageD_eq_some {left right : Bool} {c d : Coord} :
    stageD left right c = some d ↔ 2 ∣ c.ss ∧ { c with s := halfMirrored left right c.ss c.s } = d := by
  rw [Nat.dvd_iff_mod_eq_zero]
  by_cases first : c.s < c.ss / 2
  · cases left <;> simp [stageD, halfMirrored, first, Nat.not_le_of_lt first]
  · cases right <;> simp [stageD, halfMirrored, first, Nat.le_of_not_lt first]

theorem stageE_eq (c : Coord) : stageE c = some { c with s := reversed c.ss c.s } := rfl

theorem stageF_eq_some {c d : Coord} :
    stageF c = some d ↔ 2 ∣ c.ss ∧ { c with s := halfRotated c.ss c.s } = d := by
  simp [stageF, halfRotated, Nat.dvd_iff_mod_eq_zero]

theorem stageG_eq (c : Coord) : stageG c = some { c with g := reversed c.gs c.g } := rfl

/-! ## All stages at once (R210, R222) -/

/-- The coordinates and counts after the two scrambles. -/
def ScrMode.scrambled (m : ScrMode) (c : Coord) : Coord :=
  let c := if m.srcScramble then c.srcScrambled else c
  if m.gateScramble then c.gateScrambled else c

/-- Where the stages after the scrambles take source `y` of `n`. -/
def ScrMode.sourcePlace (m : ScrMode) (n y : Nat) : Nat :=
  let y := if m.srcInterleave then interleaved m.firstOdd n y else y
  let y := halfMirrored m.mirrorLeft m.mirrorRight n y
  let y := if m.srcReverse then reversed n y else y
  if m.srcStart then halfRotated n y else y

/-- Where the stages after the scrambles take a pixel: they leave the counts alone. -/
def ScrMode.placed (m : ScrMode) (c : Coord) : Coord :=
  { c with g := if m.gateReverse then reversed c.gs c.g else c.g, s := m.sourcePlace c.ss c.s }

/-- The source count after source scramble (R212). -/
def ScrMode.wideSources (m : ScrMode) (ss : Nat) : Nat := if m.srcScramble then 2 * ss else ss

/-- The source count after both scrambles (R213). -/
def ScrMode.sources (m : ScrMode) (ss : Nat) : Nat :=
  if m.gateScramble then m.wideSources ss / 2 else m.wideSources ss

/-- The gate count after both scrambles (R212, R213). -/
def ScrMode.gates (m : ScrMode) (gs : Nat) : Nat :=
  (if m.gateScramble then 2 else 1) * (if m.srcScramble then gs / 2 else gs)

/-- The counts that the stages of `m` halve are even (R222). -/
structure ScrMode.Admits (m : ScrMode) (gs ss : Nat) : Prop where
  gates : m.srcScramble = true → 2 ∣ gs
  wideSources : m.gateScramble = true → 2 ∣ m.wideSources ss
  sources : (m.srcInterleave || m.mirrorLeft || m.mirrorRight || m.srcStart) = true → 2 ∣ m.sources ss

theorem ScrMode.admits_iff {m : ScrMode} {gs ss : Nat} : m.Admits gs ss ↔ (m.srcScramble = true → 2 ∣ gs) ∧
    (m.gateScramble = true → 2 ∣ m.wideSources ss) ∧
    ((m.srcInterleave || m.mirrorLeft || m.mirrorRight || m.srcStart) = true → 2 ∣ m.sources ss) :=
  ⟨fun ⟨hg, hw, hs⟩ => ⟨hg, hw, hs⟩, fun ⟨hg, hw, hs⟩ => ⟨hg, hw, hs⟩⟩

@[simp] theorem placed_gs (m : ScrMode) (c : Coord) : (m.placed c).gs = c.gs := rfl
@[simp] theorem placed_ss (m : ScrMode) (c : Coord) : (m.placed c).ss = c.ss := rfl

@[simp] theorem scrambled_gs (m : ScrMode) (c : Coord) : (m.scrambled c).gs = m.gates c.gs := by
  cases ha : m.srcScramble <;> cases hb : m.gateScramble <;>
    simp [ScrMode.scrambled, ScrMode.gates, Coord.srcScrambled, Coord.gateScrambled, ha, hb]

@[simp] theorem scrambled_ss (m : ScrMode) (c : Coord) : (m.scrambled c).ss = m.sources c.ss := by
  cases ha : m.srcScramble <;> cases hb : m.gateScramble <;>
    simp [ScrMode.scrambled, ScrMode.sources, ScrMode.wideSources, Coord.srcScrambled, Coord.gateScrambled, ha, hb]

/-- The stages after the two scrambles. -/
def laterStages (m : ScrMode) (c : Coord) : Option Coord := do
  let c ← onlyIf m.srcInterleave (stageC m.firstOdd) c
  let c ← onlyIf (m.mirrorLeft || m.mirrorRight) (stageD m.mirrorLeft m.mirrorRight) c
  let c ← onlyIf m.srcReverse stageE c
  let c ← onlyIf m.srcStart stageF c
  onlyIf m.gateReverse stageG c

theorem scrStages_eq_bind (m : ScrMode) (c : Coord) :
    scrStages m c =
      (onlyIf m.srcScramble stageA c).bind fun c => (onlyIf m.gateScramble stageB c).bind (laterStages m) :=
  rfl

/-- A disabled stage passes its input on (R210). -/
theorem onlyIf_eq_some {on : Bool} {f : Coord → Option Coord} {c d e : Coord} {p : Prop}
    (h : f c = some d ↔ p ∧ e = d) : onlyIf on f c = some d ↔ (on = true → p) ∧ (if on then e else c) = d := by
  cases on <;> simp [onlyIf, h]

/-- An optional stage that moves the source only. -/
theorem onlyIf_source_eq_some {on : Bool} {f : Coord → Option Coord} {c d : Coord} {y : Nat} {p : Prop}
    (h : f c = some d ↔ p ∧ { c with s := y } = d) :
    onlyIf on f c = some d ↔ (on = true → p) ∧ { c with s := if on then y else c.s } = d := by
  cases on <;> simp [onlyIf, h]

theorem onlyIf_stageE (on : Bool) (c : Coord) :
    onlyIf on stageE c = some { c with s := if on then reversed c.ss c.s else c.s } := by
  cases on <;> rfl

theorem onlyIf_stageG (on : Bool) (c : Coord) :
    onlyIf on stageG c = some { c with g := if on then reversed c.gs c.g else c.g } := by
  cases on <;> rfl

/-- Without its two bits the mirror stage would move nothing, so it may as well run. -/
theorem halfMirrored_optional (left right : Bool) (n y : Nat) :
    (if left = true ∨ right = true then halfMirrored left right n y else y) = halfMirrored left right n y := by
  cases left <;> cases right <;> simp [halfMirrored]

theorem laterStages_eq_some {m : ScrMode} {c d : Coord} :
    laterStages m c = some d ↔
      ((m.srcInterleave || m.mirrorLeft || m.mirrorRight || m.srcStart) = true → 2 ∣ c.ss) ∧ m.placed c = d := by
  simp only [laterStages, Option.bind_eq_bind, Option.bind_eq_some_iff, onlyIf_source_eq_some stageC_eq_some,
    onlyIf_source_eq_some stageD_eq_some, onlyIf_source_eq_some stageF_eq_some, onlyIf_stageE, onlyIf_stageG,
    Option.some.injEq, and_assoc, exists_and_left, exists_eq_left', halfMirrored_optional, Bool.or_eq_true, or_imp]
  rfl

theorem scrStages_eq_some {m : ScrMode} {c d : Coord} :
    scrStages m c = some d ↔ m.Admits c.gs c.ss ∧ m.placed (m.scrambled c) = d := by
  have wide : (if m.srcScramble then c.srcScrambled else c).ss = m.wideSources c.ss := apply_ite Coord.ss ..
  simp only [scrStages_eq_bind, Option.bind_eq_some_iff, onlyIf_eq_some stageA_eq_some, onlyIf_eq_some stageB_eq_some,
    laterStages_eq_some, and_assoc, exists_and_left, exists_eq_left', wide, ScrMode.admits_iff]
  change _ ∧ _ ∧ (_ → 2 ∣ (m.scrambled c).ss) ∧ m.placed (m.scrambled c) = d ↔ _
  rw [scrambled_ss]

/-! ## No stage puts two pixels in one place (R220, R221) -/

/-- The coordinates are inside their counts (R211). -/
structure Coord.Inside (c : Coord) : Prop where
  gate : c.g < c.gs
  source : c.s < c.ss

/-- Two pixels of one geometry. -/
structure Coord.SameCounts (c c' : Coord) : Prop where
  gates : c.gs = c'.gs
  sources : c.ss = c'.ss

/-- A row-major offset is below the product of the counts (R220). -/
theorem Coord.Inside.phys_lt {c : Coord} (h : c.Inside) : c.phys < c.gs * c.ss :=
  calc c.g * c.ss + c.s < (c.g + 1) * c.ss := by rw [Nat.succ_mul]; exact Nat.add_lt_add_left h.source _
    _ ≤ c.gs * c.ss := Nat.mul_le_mul_right _ h.gate

/-- A row-major offset determines its coordinates (R219). -/
theorem Coord.Inside.eq_of_phys_eq {c c' : Coord} (h : c.Inside) (h' : c'.Inside) (same : c.SameCounts c')
    (hp : c.phys = c'.phys) : c.g = c'.g ∧ c.s = c'.s := by
  have gate : ∀ d : Coord, d.Inside → d.phys / d.ss = d.g := fun d hd => by
    rw [Coord.phys, Nat.mul_comm, Nat.mul_add_div (Nat.zero_lt_of_lt hd.source), Nat.div_eq_of_lt hd.source,
      Nat.add_zero]
  have source : ∀ d : Coord, d.Inside → d.phys % d.ss = d.s := fun d hd => by
    rw [Coord.phys, Nat.mul_add_mod_of_lt hd.source]
  exact ⟨by rw [← gate c h, ← gate c' h', hp, same.sources], by rw [← source c h, ← source c' h', hp, same.sources]⟩

/-- A stage, or several in a row, that rearranges the pixels of each geometry it accepts: the counts alone decide
whether it runs and which counts it leaves, their product is kept, and no two pixels meet. -/
structure Rearranges (f : Coord → Option Coord) : Prop where
  accepts : ∀ {c c' d}, c.SameCounts c' → f c = some d → ∃ d', f c' = some d' ∧ d.SameCounts d'
  area : ∀ {c d}, f c = some d → d.gs * d.ss = c.gs * c.ss
  inside : ∀ {c d}, f c = some d → c.Inside → d.Inside
  injective : ∀ {c c' d d'}, c.SameCounts c' → c.Inside → c'.Inside → f c = some d → f c' = some d' →
    d.g = d'.g → d.s = d'.s → c.g = c'.g ∧ c.s = c'.s

theorem Rearranges.sameCounts {f : Coord → Option Coord} (hf : Rearranges f) {c c' d d' : Coord}
    (same : c.SameCounts c') (h : f c = some d) (h' : f c' = some d') : d.SameCounts d' := by
  obtain ⟨e, he, hd⟩ := hf.accepts same h
  cases he.symm.trans h'
  exact hd

theorem Rearranges.bind {f g : Coord → Option Coord} (hf : Rearranges f) (hg : Rearranges g) :
    Rearranges fun c => (f c).bind g where
  accepts same h := by
    obtain ⟨e, he, hd⟩ := Option.bind_eq_some_iff.1 h
    obtain ⟨e', he', same'⟩ := hf.accepts same he
    obtain ⟨d', hd', same''⟩ := hg.accepts same' hd
    exact ⟨d', Option.bind_eq_some_iff.2 ⟨e', he', hd'⟩, same''⟩
  area h := by
    obtain ⟨e, he, hd⟩ := Option.bind_eq_some_iff.1 h
    exact (hg.area hd).trans (hf.area he)
  inside h hc := by
    obtain ⟨e, he, hd⟩ := Option.bind_eq_some_iff.1 h
    exact hg.inside hd (hf.inside he hc)
  injective same hc hc' h h' gate source := by
    obtain ⟨e, he, hd⟩ := Option.bind_eq_some_iff.1 h
    obtain ⟨e', he', hd'⟩ := Option.bind_eq_some_iff.1 h'
    obtain ⟨gate', source'⟩ := hg.injective (hf.sameCounts same he he') (hf.inside he hc) (hf.inside he' hc') hd hd'
      gate source
    exact hf.injective same hc hc' he he' gate' source'

/-- What is optional rearranges too: disabled, it moves nothing. -/
theorem Rearranges.onlyIf {f : Coord → Option Coord} (hf : Rearranges f) (on : Bool) : Rearranges (onlyIf on f) := by
  cases on with
  | true => exact hf
  | false => exact {
      accepts := fun {_ c' _} same h => ⟨c', rfl, Option.some.inj h ▸ same⟩
      area := fun h => Option.some.inj h ▸ rfl
      inside := fun h hc => Option.some.inj h ▸ hc
      injective := fun _ _ _ h h' gate source => by
        cases h
        cases h'
        exact ⟨gate, source⟩ }

theorem rearranges_stageA : Rearranges stageA where
  accepts same h := by
    obtain ⟨even, rfl⟩ := stageA_eq_some.1 h
    exact ⟨_, stageA_eq_some.2 ⟨same.gates ▸ even, rfl⟩, congrArg (· / 2) same.gates, congrArg (2 * ·) same.sources⟩
  area h := by
    obtain ⟨even, rfl⟩ := stageA_eq_some.1 h
    simp only [Coord.srcScrambled]
    rw [← Nat.mul_assoc, Nat.div_mul_cancel even]
  inside h hc := by
    obtain ⟨even, rfl⟩ := stageA_eq_some.1 h
    obtain ⟨gate, source⟩ := hc
    constructor <;> simp only [Coord.srcScrambled] <;> omega
  injective same hc hc' h h' gate source := by
    obtain ⟨-, rfl⟩ := stageA_eq_some.1 h
    obtain ⟨-, rfl⟩ := stageA_eq_some.1 h'
    simp only [Coord.srcScrambled] at gate source
    omega

theorem rearranges_stageB : Rearranges stageB where
  accepts same h := by
    obtain ⟨even, rfl⟩ := stageB_eq_some.1 h
    exact ⟨_, stageB_eq_some.2 ⟨same.sources ▸ even, rfl⟩, congrArg (2 * ·) same.gates, congrArg (· / 2) same.sources⟩
  area h := by
    obtain ⟨even, rfl⟩ := stageB_eq_some.1 h
    simp only [Coord.gateScrambled]
    rw [Nat.mul_comm 2, Nat.mul_assoc, Nat.mul_div_cancel' even]
  inside h hc := by
    obtain ⟨even, rfl⟩ := stageB_eq_some.1 h
    obtain ⟨gate, source⟩ := hc
    constructor <;> simp only [Coord.gateScrambled] <;> omega
  injective same hc hc' h h' gate source := by
    obtain ⟨-, rfl⟩ := stageB_eq_some.1 h
    obtain ⟨-, rfl⟩ := stageB_eq_some.1 h'
    simp only [Coord.gateScrambled] at gate source
    omega

/-- `r` takes the numbers below `n` to numbers below `n`, no two to one. -/
structure Permutes (n : Nat) (r : Nat → Nat) : Prop where
  lt : ∀ {y}, y < n → r y < n
  injective : ∀ {y y'}, y < n → y' < n → r y = r y' → y = y'

/-- A stage that permutes the sources of each row rearranges the pixels. -/
theorem rearranges_of_source {f : Coord → Option Coord} {p : Nat → Prop} {r : Nat → Nat → Nat}
    (hf : ∀ {c d}, f c = some d ↔ p c.ss ∧ { c with s := r c.ss c.s } = d) (hr : ∀ {n}, p n → Permutes n (r n)) :
    Rearranges f where
  accepts same h := by
    obtain ⟨hp, rfl⟩ := hf.1 h
    exact ⟨_, hf.2 ⟨same.sources ▸ hp, rfl⟩, same.gates, same.sources⟩
  area h := by
    obtain ⟨-, rfl⟩ := hf.1 h
    rfl
  inside h hc := by
    obtain ⟨hp, rfl⟩ := hf.1 h
    exact ⟨hc.gate, (hr hp).lt hc.source⟩
  injective same hc hc' h h' gate source := by
    obtain ⟨hp, rfl⟩ := hf.1 h
    obtain ⟨-, rfl⟩ := hf.1 h'
    simp only [← same.sources] at source
    exact ⟨gate, (hr hp).injective hc.source (same.sources ▸ hc'.source) source⟩

theorem permutes_interleaved (firstOdd : Bool) {n : Nat} (even : 2 ∣ n) : Permutes n (interleaved firstOdd n) where
  lt hy := by
    unfold interleaved
    split_ifs <;> omega
  injective hy hy' h := by cases firstOdd <;> grind [interleaved]

theorem permutes_halfMirrored (left right : Bool) {n : Nat} (even : 2 ∣ n) :
    Permutes n (halfMirrored left right n) where
  lt hy := by
    unfold halfMirrored
    split_ifs <;> omega
  injective hy hy' h := by cases left <;> cases right <;> grind [halfMirrored]

theorem permutes_reversed (n : Nat) : Permutes n (reversed n) := by
  constructor <;> simp only [reversed] <;> omega

/-- Half a turn swaps the two halves. -/
theorem halfRotated_eq {n y : Nat} (even : 2 ∣ n) (hy : y < n) :
    halfRotated n y = if y < n / 2 then y + n / 2 else y - n / 2 := by
  unfold halfRotated
  split
  · exact Nat.mod_eq_of_lt (by omega)
  · rw [Nat.mod_eq_sub_mod (by omega), Nat.mod_eq_of_lt (by omega)]
    omega

theorem permutes_halfRotated {n : Nat} (even : 2 ∣ n) : Permutes n (halfRotated n) where
  lt hy := Nat.mod_lt _ (Nat.zero_lt_of_lt hy)
  injective hy hy' h := by
    rw [halfRotated_eq even hy, halfRotated_eq even hy'] at h
    split_ifs at h <;> omega

theorem rearranges_stageG : Rearranges stageG where
  accepts same h := by
    cases h
    exact ⟨_, rfl, same.gates, same.sources⟩
  area h := by
    cases h
    rfl
  inside h hc := by
    cases h
    exact ⟨(permutes_reversed _).lt hc.gate, hc.source⟩
  injective same hc hc' h h' gate source := by
    cases h
    cases h'
    rw [← same.gates] at gate
    exact ⟨(permutes_reversed _).injective hc.gate (same.gates ▸ hc'.gate) gate, source⟩

/-- The whole chain rearranges, because each of its stages does. -/
theorem rearranges_scrStages (m : ScrMode) : Rearranges (scrStages m) :=
  have stageC := rearranges_of_source stageC_eq_some (permutes_interleaved m.firstOdd)
  have stageD := rearranges_of_source stageD_eq_some (permutes_halfMirrored m.mirrorLeft m.mirrorRight)
  have stageE : Rearranges stageE :=
    rearranges_of_source (p := fun _ => True) (by simp [stageE_eq]) fun _ => permutes_reversed _
  have stageF := rearranges_of_source stageF_eq_some permutes_halfRotated
  (rearranges_stageA.onlyIf _).bind <| (rearranges_stageB.onlyIf _).bind <| (stageC.onlyIf _).bind <|
    (stageD.onlyIf _).bind <| (stageE.onlyIf _).bind <| (stageF.onlyIf _).bind <| rearranges_stageG.onlyIf _

/-- The pixels of a geometry. -/
def pixelAt {gs ss : Nat} (p : Fin gs × Fin ss) : Coord := { g := p.1, s := p.2, gs := gs, ss := ss }

theorem pixelAt_inside {gs ss : Nat} (p : Fin gs × Fin ss) : (pixelAt p).Inside := ⟨p.1.2, p.2.2⟩

theorem pixelAt_sameCounts {gs ss : Nat} (p q : Fin gs × Fin ss) : (pixelAt p).SameCounts (pixelAt q) := ⟨rfl, rfl⟩

/-- Every place is taken, by counting: the offsets of the pixels of a geometry are as many as the places. -/
theorem Rearranges.phys_onto {f : Coord → Option Coord} (hf : Rearranges f) {c₀ d₀ : Coord} (h₀ : f c₀ = some d₀)
    {k : Nat} (hk : k < c₀.gs * c₀.ss) :
    ∃ c d, c₀.SameCounts c ∧ c.Inside ∧ f c = some d ∧ d.phys = k := by
  have accepts : ∀ p : Fin c₀.gs × Fin c₀.ss, ∃ d, f (pixelAt p) = some d := fun p =>
    let ⟨d, hd, _⟩ := hf.accepts (c := c₀) (c' := pixelAt p) ⟨rfl, rfl⟩ h₀
    ⟨d, hd⟩
  choose place hplace using accepts
  have inside : ∀ p, (place p).Inside := fun p => hf.inside (hplace p) (pixelAt_inside p)
  have lt : ∀ p, (place p).phys < c₀.gs * c₀.ss := fun p =>
    (inside p).phys_lt.trans_eq (hf.area (c := pixelAt p) (hplace p))
  have injective : Function.Injective fun p => (⟨(place p).phys, lt p⟩ : Fin (c₀.gs * c₀.ss)) := fun p q hpq => by
    obtain ⟨gate, source⟩ := (inside p).eq_of_phys_eq (inside q)
      (hf.sameCounts (pixelAt_sameCounts p q) (hplace p) (hplace q)) (congrArg Fin.val hpq)
    obtain ⟨gate, source⟩ := hf.injective (pixelAt_sameCounts p q) (pixelAt_inside p) (pixelAt_inside q) (hplace p)
      (hplace q) gate source
    exact Prod.ext (Fin.ext gate) (Fin.ext source)
  obtain ⟨p, hp⟩ := ((Fintype.bijective_iff_injective_and_card _).2 ⟨injective, by simp⟩).surjective ⟨k, hk⟩
  exact ⟨pixelAt p, place p, ⟨rfl, rfl⟩, pixelAt_inside p, hplace p, congrArg Fin.val hp⟩

/-! ## What SCR.IDX answers -/

/-- The working variables SCR.IDX starts from (R210). -/
def scrInput (gate source gateCount sourceCount : Half) : Coord :=
  { g := gate.toNat, s := source.toNat, gs := gateCount.toNat, ss := sourceCount.toNat }

theorem scrInput_sameCounts (x y x' y' gateCount sourceCount : Half) :
    (scrInput x y gateCount sourceCount).SameCounts (scrInput x' y' gateCount sourceCount) := ⟨rfl, rfl⟩

/-- Every pixel of a geometry that the operands can give is an input that they can give. -/
theorem eq_scrInput {x₀ y₀ gateCount sourceCount : Half} {c : Coord}
    (same : (scrInput x₀ y₀ gateCount sourceCount).SameCounts c) (inside : c.Inside) :
    ∃ x y, c = scrInput x y gateCount sourceCount := by
  obtain ⟨g, s, gs, ss⟩ := c
  obtain ⟨rfl, rfl⟩ := same
  refine ⟨BitVec.ofNat 16 g, BitVec.ofNat 16 s, ?_⟩
  have hg : g % 2 ^ 16 = g := Nat.mod_eq_of_lt (inside.gate.trans gateCount.isLt)
  have hs : s % 2 ^ 16 = s := Nat.mod_eq_of_lt (inside.source.trans sourceCount.isLt)
  simp only [scrInput, BitVec.toNat_ofNat, hg, hs]

/-- The result that SCR.IDX reports of its last working variables (R219). -/
def Coord.result (c : Coord) : Result := .index (BitVec.ofNat 32 c.phys) (BitVec.ofNat 17 c.gs) (BitVec.ofNat 17 c.ss)

theorem scrReservedClear_iff (mode : Half) : scrReservedClear mode = true ↔ mode.toNat < 512 := by
  rw [scrReservedClear, beq_iff_eq, ← BitVec.toNat_inj, BitVec.extractLsb'_toNat, Nat.shiftRight_eq_div_pow]
  have := mode.isLt
  simp only [BitVec.toNat_ofNat]
  omega

section
variable {mode gate source gateCount sourceCount : Half}

theorem scrPrecheck_iff : scrPrecheck mode gate source gateCount sourceCount = true ↔
    mode.toNat < 512 ∧ (scrInput gate source gateCount sourceCount).Inside := by
  simp only [scrPrecheck, Bool.and_eq_true, decide_eq_true_iff, scrReservedClear_iff]
  constructor
  · rintro ⟨clear, -, -, hg, hs⟩
    exact ⟨clear, hg, hs⟩
  · rintro ⟨clear, hg, hs⟩
    exact ⟨clear, Nat.one_le_of_lt hg, Nat.one_le_of_lt hs, hg, hs⟩

theorem scramble_eq_some {d : Coord} : scramble mode gate source gateCount sourceCount = some d ↔
    mode.toNat < 512 ∧ (scrInput gate source gateCount sourceCount).Inside ∧
      scrStages (ScrMode.ofMask mode) (scrInput gate source gateCount sourceCount) = some d := by
  rw [← and_assoc, ← scrPrecheck_iff, scramble, Option.ite_none_right_eq_some]
  rfl

/-- A refused input ends SCR.IDX with ERR_PARAM and zeros, and nothing else happens. -/
theorem exec_scrIdx_of_none (h : scramble mode gate source gateCount sourceCount = none) (st : State) :
    exec (.scrIdx mode gate source gateCount sourceCount) st = .next (st.ended .errParam (.index 0 0 0)) := by
  simp only [exec, execScrIdx, scrPort, h]
  rfl

/-- An accepted input ends SCR.IDX with the offset and the counts, and nothing else happens. -/
theorem exec_scrIdx_of_some {d : Coord} (h : scramble mode gate source gateCount sourceCount = some d) (st : State) :
    exec (.scrIdx mode gate source gateCount sourceCount) st = .next (st.ended .ok d.result) := by
  simp only [exec, execScrIdx, scrPort, h]
  rfl

/-- The completion shows in the history, so different ends are different states. -/
theorem ended_inj {st : State} {a b : Status} {x y : Result} : st.ended a x = st.ended b y ↔ a = b ∧ x = y := by
  simp [State.ended]

theorem exec_scrIdx_ok_iff {st : State} {res : Result} :
    exec (.scrIdx mode gate source gateCount sourceCount) st = .next (st.ended .ok res) ↔
      ∃ d, scramble mode gate source gateCount sourceCount = some d ∧ d.result = res := by
  cases h : scramble mode gate source gateCount sourceCount with
  | none => simp [exec_scrIdx_of_none h, ended_inj]
  | some d => simp [exec_scrIdx_of_some h, ended_inj]

/-- Neither count outgrows 17 bits (R220). -/
theorem gates_lt (m : ScrMode) (n : Half) : m.gates n.toNat < 2 ^ 17 := by
  have := n.isLt
  unfold ScrMode.gates
  split_ifs <;> omega

theorem sources_lt (m : ScrMode) (n : Half) : m.sources n.toNat < 2 ^ 17 := by
  have := n.isLt
  unfold ScrMode.sources ScrMode.wideSources
  split_ifs <;> omega

/-- The offset does not outgrow 32 bits (R220). -/
theorem phys_lt {d : Coord} (h : scramble mode gate source gateCount sourceCount = some d) : d.phys < 2 ^ 32 := by
  obtain ⟨-, inside, h⟩ := scramble_eq_some.1 h
  have rearranges := rearranges_scrStages (ScrMode.ofMask mode)
  calc d.phys < d.gs * d.ss := (rearranges.inside h inside).phys_lt
    _ = gateCount.toNat * sourceCount.toNat := rearranges.area h
    _ ≤ 2 ^ 16 * 2 ^ 16 := Nat.mul_le_mul gateCount.isLt.le sourceCount.isLt.le
    _ = 2 ^ 32 := rfl

/-- What the numbers of an accepted input's result are: nothing of them is lost. -/
theorem scramble_of_exec {st : State} {phys : BitVec 32} {g s : BitVec 17}
    (h : exec (.scrIdx mode gate source gateCount sourceCount) st = .next (st.ended .ok (.index phys g s))) :
    ∃ d, scramble mode gate source gateCount sourceCount = some d ∧
      phys.toNat = d.phys ∧ g.toNat = d.gs ∧ s.toNat = d.ss := by
  obtain ⟨d, hd, res⟩ := exec_scrIdx_ok_iff.1 h
  obtain ⟨-, -, stages⟩ := scramble_eq_some.1 hd
  obtain ⟨-, rfl⟩ := scrStages_eq_some.1 stages
  obtain ⟨rfl, rfl, rfl⟩ := Result.index.inj res
  refine ⟨_, hd, ?_, ?_, ?_⟩ <;> rw [BitVec.toNat_ofNat] <;> apply Nat.mod_eq_of_lt
  · exact phys_lt hd
  · rw [placed_gs, scrambled_gs]
    exact gates_lt _ gateCount
  · rw [placed_ss, scrambled_ss]
    exact sources_lt _ sourceCount

end

/-! ## The statements -/

/-- Settles O30, from the parities that the stages need together (`scrStages_eq_some`). -/
theorem scrAcceptsExactly : Obligations.ScrAcceptsExactly := by
  intro st mode gate source gateCount sourceCount m s1 s2 accepted
  have accepts : accepted ↔ ∃ d, scramble mode gate source gateCount sourceCount = some d := by
    simp only [scramble_eq_some, exists_and_left, scrStages_eq_some, exists_eq', and_true, ScrMode.admits_iff]
    constructor
    · rintro ⟨clear, -, -, hg, hs, parities⟩
      exact ⟨clear, ⟨hg, hs⟩, parities⟩
    · rintro ⟨clear, ⟨hg, hs⟩, parities⟩
      exact ⟨clear, Nat.one_le_of_lt hg, Nat.one_le_of_lt hs, hg, hs, parities⟩
  rw [accepts]
  constructor
  · rintro ⟨d, hd⟩
    exact ⟨_, _, _, exec_scrIdx_of_some hd st⟩
  · intro refused
    exact exec_scrIdx_of_none (Option.eq_none_iff_forall_ne_some.2 fun d hd => refused ⟨d, hd⟩) st

/-- Settles O31. -/
theorem scrCountsAndRange : Obligations.ScrCountsAndRange := by
  intro st mode gate source gateCount sourceCount phys g s h m
  obtain ⟨d, hd, hphys, hg, hs⟩ := scramble_of_exec h
  obtain ⟨-, inside, stages⟩ := scramble_eq_some.1 hd
  have rearranges := rearranges_scrStages m
  rw [hphys, hg, hs]
  refine ⟨?_, rearranges.area stages, (rearranges.inside stages inside).phys_lt⟩
  obtain ⟨-, rfl⟩ := scrStages_eq_some.1 stages
  exact scrambled_gs m _

/-- The result of an accepted input in one formula. -/
theorem placed_of_exec {st : State} {mode gate source gateCount sourceCount : Half} {phys : BitVec 32} {g s : BitVec 17}
    (h : exec (.scrIdx mode gate source gateCount sourceCount) st = .next (st.ended .ok (.index phys g s))) :
    ∃ d, (ScrMode.ofMask mode).placed
        ((ScrMode.ofMask mode).scrambled (scrInput gate source gateCount sourceCount)) = d ∧
      phys.toNat = d.phys ∧ g.toNat = d.gs ∧ s.toNat = d.ss := by
  obtain ⟨d, hd, numbers⟩ := scramble_of_exec h
  obtain ⟨-, -, stages⟩ := scramble_eq_some.1 hd
  exact ⟨d, (scrStages_eq_some.1 stages).2, numbers⟩

/-- A bit of the mode mask, as the quotient that O34 writes. -/
theorem getLsbD_iff (mode : Half) (k : Nat) : mode.getLsbD k = true ↔ mode.toNat / 2 ^ k % 2 = 1 := by
  rw [← BitVec.testBit_toNat, Nat.testBit_eq_decide_div_mod_eq, decide_eq_true_iff]

/-- Settles O34: the two scrambles choose the case, the later stages agree as they stand. -/
theorem scrComposesStages : Obligations.ScrComposesStages := by
  intro st mode gate source gateCount sourceCount phys g s h bit
  obtain ⟨d, rfl, hphys, hg, hs⟩ := placed_of_exec h
  have mask : ∀ k, bit k ↔ mode.getLsbD k = true := fun k => (getLsbD_iff mode k).symm
  rw [hphys, hg, hs]
  simp only [mask]
  cases a : mode.getLsbD 0 <;> cases b : mode.getLsbD 1 <;>
    simp only [a, b, if_true, if_false, Bool.false_eq_true, and_true, Coord.phys, scrInput, ScrMode.placed,
      ScrMode.sourcePlace, ScrMode.scrambled, ScrMode.ofMask, Coord.srcScrambled, Coord.gateScrambled, interleaved,
      halfMirrored, reversed, halfRotated]

theorem interleaved_false (n y : Nat) : interleaved false n y = if y % 2 = 0 then y / 2 else y / 2 + n / 2 := by
  simp [interleaved]

theorem interleaved_true (n y : Nat) : interleaved true n y = if y % 2 = 0 then y / 2 + n / 2 else y / 2 := by
  obtain even | odd := Nat.mod_two_eq_zero_or_one y
  · simp [interleaved, even]
  · simp [interleaved, odd]

theorem halfMirrored_none (n y : Nat) : halfMirrored false false n y = y := by simp [halfMirrored]

theorem halfMirrored_left (n y : Nat) : halfMirrored true false n y = if y < n / 2 then n / 2 - 1 - y else y := by
  simp [halfMirrored]

theorem halfMirrored_right (n y : Nat) :
    halfMirrored false true n y = if y < n / 2 then y else 3 * (n / 2) - 1 - y := by
  obtain first | second := Nat.lt_or_ge y (n / 2)
  · simp [halfMirrored, first, Nat.not_le_of_lt first]
  · simp [halfMirrored, second, Nat.not_lt_of_le second]

/-- Settles O33: with one bit set, every other stage of O34 drops out. -/
theorem scrSingleStages : Obligations.ScrSingleStages := by
  intro st mode gate source gateCount sourceCount phys g s h x y gs ss n
  obtain ⟨d, rfl, hphys, -⟩ := placed_of_exec h
  rw [hphys]
  refine ⟨?_, ?_, ?_, ?_, ?_, ?_, ?_, ?_, ?_, ?_⟩
  all_goals
    rintro rfl
    simp [ScrMode.placed, ScrMode.sourcePlace, ScrMode.scrambled, ScrMode.ofMask, Coord.phys, scrInput, x, y, gs, ss, n,
      Coord.srcScrambled, Coord.gateScrambled, interleaved_false, interleaved_true, halfMirrored_none,
      halfMirrored_left, halfMirrored_right, reversed, halfRotated]

/-- Settles O32: mode 0 asks for no parity (O30) and enables no stage (O34). -/
theorem scrIdentityAtModeZero : Obligations.ScrIdentityAtModeZero := by
  intro st gate source gateCount sourceCount hg hs
  obtain ⟨phys, g, s, h⟩ := (scrAcceptsExactly st 0 gate source gateCount sourceCount).1
    ⟨by decide, Nat.one_le_of_lt hg, Nat.one_le_of_lt hs, hg, hs, by simp [ScrMode.ofMask]⟩
  refine ⟨phys, g, s, h, ?_⟩
  simpa using scrComposesStages st 0 gate source gateCount sourceCount phys g s h

/-- Gate scramble undoes source scramble (R213). -/
theorem gateScrambled_srcScrambled {c : Coord} (even : 2 ∣ c.gs) : c.srcScrambled.gateScrambled = c := by
  obtain ⟨g, s, gs, ss⟩ := c
  simp only [Coord.srcScrambled, Coord.gateScrambled, Coord.mk.injEq]
  dsimp only at even
  omega

theorem scrStages_both_scrambles {m : ScrMode} {c : Coord} (ha : m.srcScramble = false) (hb : m.gateScramble = false)
    (even : 2 ∣ c.gs) : scrStages { m with srcScramble := true, gateScramble := true } c = scrStages m c := by
  have first : stageA c = some c.srcScrambled := stageA_eq_some.2 ⟨even, rfl⟩
  have second : stageB c.srcScrambled = some c := stageB_eq_some.2 ⟨⟨_, rfl⟩, gateScrambled_srcScrambled even⟩
  simp only [scrStages_eq_bind, ha, hb, onlyIf, first, second, if_true, Bool.false_eq_true, if_false, Option.bind_some]
  rfl

theorem ofMask_or_three (mode : Half) :
    ScrMode.ofMask (mode ||| 3) = { ScrMode.ofMask mode with srcScramble := true, gateScramble := true } := by
  simp [ScrMode.ofMask]

/-- Settles O35: the two scrambles cancel, and the reserved bits are not touched. -/
theorem scrScramblesCancel : Obligations.ScrScramblesCancel := by
  intro st mode gate source gateCount sourceCount res ha hb even h
  obtain ⟨d, hd, hres⟩ := exec_scrIdx_ok_iff.1 h
  obtain ⟨clear, inside, stages⟩ := scramble_eq_some.1 hd
  refine exec_scrIdx_ok_iff.2 ⟨d, scramble_eq_some.2 ⟨?_, inside, ?_⟩, hres⟩
  · rw [BitVec.toNat_or]
    exact Nat.or_lt_two_pow (n := 9) clear (by decide)
  · rw [ofMask_or_three, scrStages_both_scrambles ha hb even, stages]

/-- Settles O36, from what `Rearranges` says of the whole chain. -/
theorem scrBijection : Obligations.ScrBijection := by
  intro st mode gateCount sourceCount gate₀ source₀ res₀ h₀
  obtain ⟨d₀, hd₀, -⟩ := exec_scrIdx_ok_iff.1 h₀
  obtain ⟨clear, -, stages₀⟩ := scramble_eq_some.1 hd₀
  have rearranges := rearranges_scrStages (ScrMode.ofMask mode)
  refine ⟨fun gate source hg hs => ?_, fun x y x' y' phys g s g' s' h h' => ?_, fun k hk => ?_⟩
  · obtain ⟨d, hd, -⟩ := rearranges.accepts (scrInput_sameCounts gate₀ source₀ gate source _ _) stages₀
    exact ⟨_, _, _, exec_scrIdx_of_some (scramble_eq_some.2 ⟨clear, ⟨hg, hs⟩, hd⟩) st⟩
  · obtain ⟨d, hd, phys_eq, -⟩ := scramble_of_exec h
    obtain ⟨d', hd', phys_eq', -⟩ := scramble_of_exec h'
    obtain ⟨-, inside, hd⟩ := scramble_eq_some.1 hd
    obtain ⟨-, inside', hd'⟩ := scramble_eq_some.1 hd'
    have same := scrInput_sameCounts x y x' y' gateCount sourceCount
    obtain ⟨gate, source⟩ := (rearranges.inside hd inside).eq_of_phys_eq (rearranges.inside hd' inside')
      (rearranges.sameCounts same hd hd') (phys_eq.symm.trans phys_eq')
    obtain ⟨gate, source⟩ := rearranges.injective same inside inside' hd hd' gate source
    exact ⟨BitVec.eq_of_toNat_eq gate, BitVec.eq_of_toNat_eq source⟩
  · obtain ⟨c, d, same, inside, hd, phys_eq⟩ := rearranges.phys_onto stages₀ hk
    obtain ⟨x, y, rfl⟩ := eq_scrInput same inside
    have h := scramble_eq_some.2 ⟨clear, inside, hd⟩
    refine ⟨_, _, _, _, _, exec_scrIdx_of_some h st, ?_⟩
    rw [BitVec.toNat_ofNat, Nat.mod_eq_of_lt (phys_lt h), phys_eq]

end Sys2Proof.Machine

/-! Proofs of the statements of 60_exceptions.md: early errors, the phases of the framer and of the LZSS unit, and the
step of a host that does nothing. -/

namespace Sys2Proof.Machine

/-! ## Steps that do nothing, operations that are refused -/

/-- Settles O8. -/
theorem waitingChangesNothing : Obligations.WaitingChangesNothing := fun _ => step_waiting

/-- Settles O38. -/
theorem lzssBusyRefuses : Obligations.LzssBusyRefuses :=
  fun _ busy => ⟨exec_lzss_running (.inl rfl) busy, exec_lzss_running (.inr rfl) busy⟩

/-! ## Early errors (R231, R242) -/

/-- The statuses with which an operation ends before it has done anything (R242). -/
def Status.isEarly : Status → Bool
  | .errOp | .errState | .errParam => true
  | .ok | .errTimeout | .errCrc | .errSrc | .errSnk => false

/-- A result with every field 0 (R91). -/
def Result.isZero (res : Result) : Prop := res = .none ∨ res = .value 0 ∨ res = .index 0 0 0

/-- From `s` the machine answers `a` with precise errors: where the last event recorded is an early error, nothing else
has happened, and the result is 0. -/
def Precise (s : State) (a : Answer) : Prop :=
  ∀ t past st res, a = .next t → t.env.trace = past ++ [.done st res] → st.isEarly = true →
    t = s.ended st res ∧ res.isZero

section
variable {s u : State} {past : List Event} {e : Event}

/-- An answer that records another event last is no early error. -/
theorem precise_of_last (htrace : u.env.trace = past ++ [e]) (h : ∀ st res, e = .done st res → st.isEarly = false) :
    Precise s (.next u) := by
  rintro t past' st res ⟨⟩ htrace' early
  rw [htrace] at htrace'
  obtain ⟨-, ⟨⟩⟩ := List.append_inj' htrace' rfl
  rw [h st res rfl] at early
  cases early

theorem precise_finish (res : Result) : Precise s (finish res u) :=
  precise_of_last (complete_env_trace ..) (by rintro _ _ ⟨⟩; rfl)

theorem precise_raise_late {st : Status} (h : st.isEarly = false) (res : Result) : Precise s (raise st res u) :=
  precise_of_last (complete_env_trace ..) (by rintro _ _ ⟨⟩; exact h)

/-- An error raised before anything is done changes nothing but its completion. -/
theorem precise_raise {res : Result} (hres : res.isZero) (st : Status) : Precise s (raise st res s) := by
  rintro t past st' res' ⟨⟩ htrace -
  obtain ⟨-, ⟨⟩⟩ := List.append_inj' htrace rfl
  exact ⟨rfl, hres⟩

/-- An operation that may be refused at once. -/
theorem precise_unless_refused {c : Prop} [Decidable c] {res : Result} {a : Answer} (hres : res.isZero) (st : Status)
    (h : Precise s a) : Precise s (if c then raise st res s else a) := by
  split
  · exact precise_raise hres st
  · exact h

end

theorem isZero_none : Result.none.isZero := .inl rfl

theorem isZero_value : (Result.value 0).isZero := .inr (.inl rfl)

theorem isZero_index : (Result.index 0 0 0).isZero := .inr (.inr rfl)

/-- LZSS.ENC and LZSS.DEC are refused or open a pull. -/
theorem exec_lzss_precise (s : State) : Precise s (exec .lzssEnc s) ∧ Precise s (exec .lzssDec s) := by
  by_cases hp : s.lzss.phase = .idle
  · obtain ⟨d, -, henc, hdec⟩ := lzssOperationsStart s hp
    rw [henc, hdec]
    exact ⟨precise_of_last rfl nofun, precise_of_last rfl nofun⟩
  · rw [exec_lzss_running (.inl rfl) hp, exec_lzss_running (.inr rfl) hp]
    exact ⟨precise_raise isZero_none _, precise_raise isZero_none _⟩

/-- Every instruction makes its early checks before its first effect (R241, R242). -/
theorem exec_precise (i : Instr) (s : State) : Precise s (exec i s) := by
  cases i with
  | cfgRd idx =>
    simp only [exec, execCfgRd]
    split
    · exact precise_raise isZero_value _
    · exact precise_finish _
  | cfgWr idx val =>
    simp only [exec, execCfgWr]
    split
    · exact precise_raise isZero_none _
    · refine precise_unless_refused isZero_none _ (precise_unless_refused isZero_none _ ?_)
      split
      · exact precise_finish _
      · exact precise_raise isZero_none _
  | lzssEnc => exact (exec_lzss_precise s).1
  | lzssDec => exact (exec_lzss_precise s).2
  | crcInit | crcUpd => exact precise_finish _
  | crcChk w =>
    simp only [exec, execCrcChk]
    split
    · exact precise_finish _
    · exact precise_raise_late rfl _
  | frmSend cmd n p =>
    exact precise_unless_refused isZero_none _ (precise_unless_refused isZero_none _ (precise_finish _))
  | frmRdreg addr => exact precise_unless_refused isZero_value _ (precise_finish _)
  | frmWrreg | frmBbeginC | frmBbeginR | frmBword | frmBraw | frmBend =>
    exact precise_unless_refused isZero_none _ (precise_finish _)
  | frmWait n =>
    refine precise_unless_refused isZero_none _ ?_
    split
    · exact precise_finish _
    · exact precise_raise_late rfl _
  | scrIdx mode gate source gateCount sourceCount =>
    simp only [exec, execScrIdx]
    split
    · exact precise_raise isZero_index _
    · exact precise_finish _
  | lit | match74 | match104 => exact precise_of_last (pushSnk_env_trace ..) nofun

/-- Settles O54: the last event is the one that `exec_precise` speaks of. -/
theorem earlyErrorsChangeNothing : Obligations.EarlyErrorsChangeNothing := by
  intro i s t ev st res h htrace early
  refine exec_precise i s t _ st res h htrace ?_
  obtain rfl | rfl | rfl := early <;> rfl

/-! ## The phase of the framer (R245) -/

/-- FRM.PHASE after an instruction, by what it was: a burst stays a burst under the FRM.BBEGIN it refuses, and an idle
framer stays idle under the FRM.BEND it refuses. -/
def framerPhaseAfter (i : Instr) (p : FrmPhase) : FrmPhase :=
  match i with
  | .frmBbeginC _ | .frmBbeginR _ => .burst
  | .frmBend => .idle
  | .cfgRd _ | .cfgWr _ _ | .lzssEnc | .lzssDec | .crcInit | .crcUpd _ _ | .crcChk _ | .scrIdx _ _ _ _ _ | .lit _
  | .match74 _ _ | .match104 _ _ | .frmSend _ _ _ | .frmRdreg _ | .frmWrreg _ _ | .frmBword _ | .frmBraw _ _
  | .frmWait _ => p

theorem framerPhaseAfter_of_not_isFrm {i : Instr} (h : isFrm i = false) (p : FrmPhase) : framerPhaseAfter i p = p := by
  cases i <;> simp only [isFrm, Bool.true_eq_false] at h <;> rfl

/-- Where the phase changes, the instruction is one of three, run in the phase it needs. -/
theorem framerPhaseAfter_ne {i : Instr} {p : FrmPhase} (h : framerPhaseAfter i p ≠ p) :
    (p = .idle ∧ ∃ w, i = .frmBbeginC w ∨ i = .frmBbeginR w) ∨ (p = .burst ∧ i = .frmBend) := by
  cases i
  case frmBbeginC w =>
    cases p with
    | idle => exact .inl ⟨rfl, w, .inl rfl⟩
    | burst => exact absurd rfl h
  case frmBbeginR w =>
    cases p with
    | idle => exact .inl ⟨rfl, w, .inr rfl⟩
    | burst => exact absurd rfl h
  case frmBend =>
    cases p with
    | idle => exact absurd rfl h
    | burst => exact .inr ⟨rfl, rfl⟩
  all_goals exact absurd rfl h

/-- An operation that is refused at once leaves FRM.PHASE as it was, one that is not leaves it as `a` does. -/
theorem frmPhase_unless_refused {s t : State} {c : Prop} [Decidable c] {st : Status} {res : Result} {a : Answer}
    {p : FrmPhase} (h : (if c then raise st res s else a) = .next t) (refused : c → s.frm.phase = p)
    (ran : ¬ c → a = .next t → t.frm.phase = p) : t.frm.phase = p := by
  split at h
  · rename_i hc
    cases h
    exact refused hc
  · rename_i hc
    exact ran hc h

theorem burst_of_bne_idle {p : FrmPhase} (h : (p != .idle) = true) : p = .burst := by
  cases p
  · cases h
  · rfl

theorem idle_of_bne_burst {p : FrmPhase} (h : (p != .burst) = true) : p = .idle := by
  cases p
  · rfl
  · cases h

/-- A frame or a poll leaves the phase: the lines come to rest as they were or as a whole frame leaves them. -/
theorem phase_eq_of_frm {f g : Frm} (h : g = f ∨ g = f.lines false) : g.phase = f.phase := by
  obtain rfl | rfl := h <;> rfl

/-- The FRM operations one by one (R181 to R189). -/
theorem exec_isFrm_phase {i : Instr} {s t : State} (hi : isFrm i = true) (h : exec i s = .next t) :
    t.frm.phase = framerPhaseAfter i s.frm.phase := by
  cases i <;> simp only [isFrm, Bool.false_eq_true] at hi
  case frmSend cmd n p =>
    refine frmPhase_unless_refused h (fun _ => rfl) fun _ h => frmPhase_unless_refused h (fun _ => rfl) fun _ h => ?_
    cases h
    simp [openFrame_eq, txHalves_eq, framerPhaseAfter]
  case frmRdreg addr =>
    refine frmPhase_unless_refused h (fun _ => rfl) fun _ h => ?_
    cases h
    obtain ⟨-, -, lines, -, -⟩ := readRegister_moved addr s
    exact phase_eq_of_frm (.inr lines)
  case frmWrreg addr val =>
    refine frmPhase_unless_refused h (fun _ => rfl) fun _ h => ?_
    cases h
    simp [openFrame_eq, tx16_eq, framerPhaseAfter]
  case frmBbeginC | frmBbeginR =>
    refine frmPhase_unless_refused h burst_of_bne_idle fun _ h => ?_
    cases h
    rfl
  case frmBword w =>
    refine frmPhase_unless_refused h (fun _ => rfl) fun _ h => ?_
    cases h
    rfl
  case frmBraw n bytes =>
    refine frmPhase_unless_refused h (fun _ => rfl) fun _ h => ?_
    cases h
    simp [txBytes_eq, framerPhaseAfter]
  case frmBend =>
    refine frmPhase_unless_refused h idle_of_bne_burst fun _ h => ?_
    cases h
    rfl
  case frmWait n =>
    refine frmPhase_unless_refused h (fun _ => rfl) fun _ h => ?_
    obtain ⟨-, -, lines, -, -⟩ := pollUntilIdle_moved n.toNat s
    rcases hpolls : pollUntilIdle n.toNat s with ⟨_ | _, u⟩ <;> rw [hpolls] at h lines <;> cases h <;>
      exact phase_eq_of_frm lines

/-- FRM.PHASE after any instruction: the other units do not move it. -/
theorem exec_frm_phase {i : Instr} {s t : State} (h : exec i s = .next t) :
    t.frm.phase = framerPhaseAfter i s.frm.phase := by
  cases hf : isFrm i with
  | true => exact exec_isFrm_phase hf h
  | false =>
    rw [framerPhaseAfter_of_not_isFrm hf]
    cases hl : isLzss i with
    | true =>
      obtain ⟨l, ev, rfl, -⟩ := exec_isLzss hl h
      rfl
    | false =>
      obtain ⟨u, st, res, rfl, ran⟩ := exec_plain hf hl h
      exact ran.phase

/-- Settles O52, by the input the step takes. -/
theorem burstPhaseTransitions : Obligations.BurstPhaseTransitions := by
  intro s t h changed
  cases hhost : s.env.host with
  | nil =>
    rw [step_waiting hhost] at h
    cases h
    exact absurd rfl changed
  | cons input rest =>
    have answered (ho : ∀ bytes, input ≠ .op bytes) (hr : input ≠ .reset) : t.frm.phase = s.frm.phase := by
      obtain ⟨l, ev, rfl, -⟩ := step_answer_lzssOnly h hhost ho hr
      rfl
    cases input with
    | op bytes =>
      obtain ⟨i, hd, he⟩ | ⟨op, rfl⟩ := step_op_cases hhost h
      · rw [exec_frm_phase he] at changed
        obtain ⟨idle, w, hi⟩ | ⟨burst, rfl⟩ := framerPhaseAfter_ne (p := s.frm.phase) changed
        · refine .inl ⟨idle, bytes, rest, w, rfl, ?_⟩
          obtain rfl | rfl := hi
          · exact .inl hd
          · exact .inr hd
        · exact .inr (.inl ⟨burst, bytes, rest, rfl, hd⟩)
      · exact absurd rfl changed
    | src a => exact absurd (answered nofun nofun) changed
    | snk a => exact absurd (answered nofun nofun) changed
    | reset => exact .inr (.inr ⟨rest, rfl⟩)

/-! ## The phase of the LZSS unit (R245) -/

/-- Under an answer the LZSS unit goes on in its phase or ends. -/
def GoesOnOrEnds (s t : State) : Prop := t.lzss.phase = s.lzss.phase ∨ t.lzss.phase = .idle

/-- The rest of an answer, after a step that leaves the phase. -/
theorem GoesOnOrEnds.of_phase {s t u : State} (h : GoesOnOrEnds t u) (hp : t.lzss.phase = s.lzss.phase) :
    GoesOnOrEnds s u := by
  rw [GoesOnOrEnds, ← hp]
  exact h

theorem putBits_phase (bits : List Bool) (l : Lzss) : (putBits bits l).1.phase = l.phase := by
  rw [putBits_frame]

theorem encFlushBits_goesOnOrEnds (s : State) : GoesOnOrEnds s (encFlushBits s) := by
  unfold encFlushBits
  split
  · exact .inr rfl
  · exact .inl rfl

theorem encLoop_goesOnOrEnds (fuel : Nat) (s : State) : GoesOnOrEnds s (encLoop fuel s) := by
  induction fuel generalizing s with
  | zero =>
    unfold encLoop
    split_ifs
    · exact .inl rfl
    · exact encFlushBits_goesOnOrEnds s
    · exact encFlushBits_goesOnOrEnds s
  | succ fuel ih =>
    unfold encLoop
    split_ifs
    · exact .inl rfl
    · exact encFlushBits_goesOnOrEnds s
    · dsimp only
      have placed := putBits_phase
        ((chooseToken s.refMode s.lzss (search s.lzss)).1.bits s.lzss.ei.toNat s.lzss.ej.toNat) s.lzss
      split <;> rename_i l _ hl <;> rw [hl] at placed
      · exact .inl placed
      · exact (ih _).of_phase placed

theorem encResume_goesOnOrEnds (rest : List Bool) (y : Nat) (s : State) : GoesOnOrEnds s (encResume rest y s) := by
  have placed := putBits_phase rest s.lzss
  unfold encResume
  split <;> rename_i l _ hl <;> rw [hl] at placed
  · exact .inl placed
  · exact (encLoop_goesOnOrEnds ..).of_phase placed

theorem encOnSrc_goesOnOrEnds (a : SrcAnswer) (s : State) : GoesOnOrEnds s (encOnSrc a s) := by
  cases a with
  | byte | eos => exact (encLoop_goesOnOrEnds ..).of_phase rfl
  | err => exact .inr rfl

theorem encOnPush_goesOnOrEnds (rest : List Bool) (y : Nat) (a : SnkAnswer) (s : State) :
    GoesOnOrEnds s (encOnPush rest y a s) := by
  cases a with
  | ok => exact (encResume_goesOnOrEnds ..).of_phase rfl
  | err => exact .inr rfl

theorem encOnFlush_goesOnOrEnds (a : SnkAnswer) (s : State) : GoesOnOrEnds s (encOnFlush a s) := by
  cases a <;> exact .inr rfl

theorem runToken_phase (token : Token) (s : State) : (runToken token s).lzss.phase = s.lzss.phase := by
  obtain ⟨c, src, left, hpush⟩ := runToken_push token s
  rw [hpush]
  rfl

/-- Reading bits does not end the decoder: it completes a token or opens a pull. -/
theorem afterFetch_decBits_phase (k : Nat) (bits : List Bool) (s : State) :
    (afterFetch (decBits k bits s)).lzss.phase = s.lzss.phase := by
  induction k generalizing bits s with
  | zero => rfl
  | succ k ih =>
    unfold decBits
    split_ifs
    · rfl
    · dsimp only
      split
      · exact runToken_phase ..
      · exact ih ..

theorem decOnSrc_goesOnOrEnds (bits : List Bool) (a : SrcAnswer) (s : State) :
    GoesOnOrEnds s (afterFetch (decOnSrc bits a s)) := by
  cases a with
  | byte => exact .inl (afterFetch_decBits_phase ..)
  | eos | err => exact .inr rfl

theorem decOnPush_goesOnOrEnds (c : Byte) (src left : Nat) (a : SnkAnswer) (s : State) :
    GoesOnOrEnds s (afterFetch (decOnPush c src left a s)) := by
  cases a with
  | ok =>
    cases left with
    | zero => exact .inl (afterFetch_decBits_phase ..)
    | succ => exact .inl rfl
  | err => exact .inr rfl

/-- A step on any other input than an operation goes on in the phase of the unit or leaves it idle; so does a wait. -/
theorem step_goesOnOrEnds {s t : State} (h : step s = .next t) (ho : ∀ bytes rest, s.env.host ≠ .op bytes :: rest) :
    GoesOnOrEnds s t := by
  rcases step_cases h with ⟨-, rfl⟩ | ⟨bytes, rest, i, hop, -⟩ | ⟨bytes, rest, op, hop, -⟩ |
    ⟨a, rest, -, -, rfl⟩ | ⟨bits, a, rest, -, -, rfl⟩ | ⟨bits, y, a, rest, -, -, rfl⟩ | ⟨a, rest, -, -, rfl⟩ |
    ⟨c, src, left, a, rest, -, -, rfl⟩ | ⟨rest, -, rfl⟩
  · exact .inl rfl
  · exact absurd hop (ho bytes rest)
  · exact absurd hop (ho bytes rest)
  · exact encOnSrc_goesOnOrEnds a _
  · exact decOnSrc_goesOnOrEnds bits a _
  · exact encOnPush_goesOnOrEnds bits y a _
  · exact encOnFlush_goesOnOrEnds a _
  · exact decOnPush_goesOnOrEnds c src left a _
  · exact .inr (congrArg Lzss.phase (resetEvent_lzss _))

theorem PlainRan.lzss_phase {s u : State} (h : PlainRan s u) : u.lzss.phase = s.lzss.phase := by
  obtain hl | ⟨-, hl, -⟩ := h.lzss <;> rw [hl]

/-- An operation of another unit leaves the phase, even where CFG.WR changes the pair. -/
theorem exec_lzss_phase {i : Instr} {s t : State} (hl : isLzss i = false) (h : exec i s = .next t) :
    t.lzss.phase = s.lzss.phase := by
  cases hf : isFrm i with
  | true =>
    obtain ⟨ev, ran⟩ := exec_isFrm hf h
    obtain ⟨st, res, moved⟩ := ran.moved
    rw [moved.lzss]
  | false =>
    obtain ⟨u, st, res, rfl, ran⟩ := exec_plain hf hl h
    exact ran.lzss_phase

/-- An operation of the port changes the phase only as LZSS.ENC or LZSS.DEC started on an idle unit. -/
theorem exec_changes_lzss_phase {i : Instr} {s t : State} (hi : isToken i = false) (h : exec i s = .next t)
    (changed : t.lzss.phase ≠ s.lzss.phase) :
    s.lzss.phase = .idle ∧ (i = .lzssEnc ∧ t.lzss.phase = .enc ∨ i = .lzssDec ∧ t.lzss.phase = .dec) := by
  have idle : s.lzss.phase = .idle := by
    by_contra running
    exact changed (congrArg Lzss.phase (exec_lzss_unchanged hi running h))
  have hl : isLzss i = true := by
    by_contra other
    exact changed (exec_lzss_phase (by simpa using other) h)
  obtain ⟨d, -, henc, hdec⟩ := lzssOperationsStart s idle
  obtain rfl | rfl := isLzss_not_token hl hi
  · rw [henc] at h
    cases h
    exact ⟨idle, .inl ⟨rfl, rfl⟩⟩
  · rw [hdec] at h
    cases h
    exact ⟨idle, .inr ⟨rfl, rfl⟩⟩

/-- Settles O53, by the input the step takes; the machine need not be in order for it. -/
theorem lzssPhaseTransitions : Obligations.LzssPhaseTransitions := by
  intro s t _ h changed
  cases hhost : s.env.host with
  | nil =>
    rw [step_waiting hhost] at h
    cases h
    exact absurd rfl changed
  | cons input rest =>
    have ended (ho : ∀ bytes, input ≠ .op bytes) : t.lzss.phase = .idle := by
      refine (step_goesOnOrEnds h fun bytes rest' hop => ?_).resolve_left changed
      rw [hhost] at hop
      exact ho bytes (List.cons.inj hop).1
    cases input with
    | op bytes =>
      obtain ⟨i, hd, he⟩ | ⟨op, rfl⟩ := step_op_cases hhost h
      · obtain ⟨idle, ⟨rfl, hp⟩ | ⟨rfl, hp⟩⟩ := exec_changes_lzss_phase
          (s := (s.taken rest).emit (.presented i)) (decodeOp_not_token hd) he changed
        · exact .inl ⟨idle, bytes, rest, rfl, .inl ⟨hd, hp⟩⟩
        · exact .inl ⟨idle, bytes, rest, rfl, .inr ⟨hd, hp⟩⟩
      · exact absurd rfl changed
    | src a => exact .inr ⟨ended nofun, _, _, rfl, nofun⟩
    | snk a => exact .inr ⟨ended nofun, _, _, rfl, nofun⟩
    | reset => exact .inr ⟨ended nofun, _, _, rfl, nofun⟩

end Sys2Proof.Machine

/-! Proof of the statement of 70_reset_and_hazards.md: REF_MODE is fixed in the hardware. -/

namespace Sys2Proof.Machine

/-! ## REF_MODE under an instruction (R269) -/

theorem LzssOnly.refMode {s t : State} (h : LzssOnly s t) : t.refMode = s.refMode := by
  obtain ⟨l, ev, rfl, -⟩ := h
  exact lzssAs_refMode s l ev

theorem FrmRan.refMode {s t : State} {ev : List Event} (h : FrmRan s t ev) : t.refMode = s.refMode := by
  obtain ⟨st, res, moved⟩ := h.moved
  exact moved.refMode

/-- No instruction has REF_MODE among what its unit may change. -/
theorem exec_refMode {i : Instr} {s t : State} (h : exec i s = .next t) : t.refMode = s.refMode := by
  cases hf : isFrm i with
  | true =>
    obtain ⟨ev, ran⟩ := exec_isFrm hf h
    exact ran.refMode
  | false =>
    cases hl : isLzss i with
    | true => exact (exec_isLzss hl h).refMode
    | false =>
      obtain ⟨u, st, res, rfl, ran⟩ := exec_plain hf hl h
      exact ran.refMode

/-! ## REF_MODE under a step (R269; log 8) -/

/-- Settles O58, by the input the step takes. -/
theorem refModeNeverChanges : Obligations.RefModeNeverChanges := by
  intro s t h
  cases hhost : s.env.host with
  | nil =>
    rw [step_waiting hhost] at h
    cases h
    rfl
  | cons input rest =>
    cases input with
    | op bytes =>
      obtain ⟨i, -, ran⟩ | ⟨op, rfl⟩ := step_op_cases hhost h
      · exact exec_refMode (s := (s.taken rest).emit (.presented i)) ran
      · rfl
    | src a => exact (step_answer_lzssOnly h hhost nofun nofun).refMode
    | snk a => exact (step_answer_lzssOnly h hhost nofun nofun).refMode
    | reset =>
      rw [step_reset hhost] at h
      cases h
      exact resetEvent_refMode (s.taken rest)

end Sys2Proof.Machine
